-- ==== Sys2Proof/Word.lean ====
section
/-! DEFINITION. The words of the block: 32-bit bus words, bytes, and the two readings of a word (spec 00_scope.md R6). -/

namespace Sys2Proof

/-- A register or bus word (R6: "Registers and bus words are 32 bits"). -/
abbrev Word := BitVec 32

/-- A byte of IBUF, OBUF or a ROM, and a symbol (R5: SYM_BITS = 8). -/
abbrev Byte := BitVec 8

/-- `u32(v)` of R6: the pattern as an unsigned integer. -/
abbrev u32 (v : Word) : Nat := v.toNat

/-- `s32(v)` of R6: the pattern as a two's complement integer. -/
abbrev s32 (v : Word) : Int := v.toInt

/-- A mathematical integer as a register receives it (R6: "where a register receives a value, the value is shown to fit"). -/
abbrev word (n : Nat) : Word := BitVec.ofNat 32 n

end Sys2Proof
end

