-- ==== Sys2Proof/Syntax.lean ====
section
/-! DEFINITION. The twelve commands of spec/opcode_table.json (30_encoding.md R93). A command word carries no operand
(R91: "There are no register fields, immediates, mode bits or prefixes"), so no constructor has an argument. -/

namespace Sys2Proof

/-- The commands (R93). Every other word is ILLEGAL (R94): the decoder refuses it by name, and the machine completes it with
ILLEGAL_CMD (40_command_sequencer.md R121). -/
inductive Instr where
  /-- NOP, R120. -/
  | nop
  /-- PAD, R131. -/
  | pad
  /-- STRIP, R135. -/
  | strip
  /-- XFER, R140. -/
  | xfer
  /-- CLEAR_FREQ, R165. -/
  | clearFreq
  /-- BUILD_FREQ, R166. -/
  | buildFreq
  /-- BUILD_SAMPLE, R167. -/
  | buildSample
  /-- BUILD_DEFAULT, R169. -/
  | buildDefault
  /-- ENCODE, R181. -/
  | encode
  /-- DECODE, R184. -/
  | decode
  /-- ABBR_W2A, R240. -/
  | abbrW2A
  /-- ABBR_A2W, R241. -/
  | abbrA2W
deriving DecidableEq, Repr

end Sys2Proof
end

