-- ==== Sys2Proof/WellFormed.lean ====
section
/-! DEFINITION. The one check on a command as syntax: the two lookups need the abbreviation unit (30_encoding.md R94(c)). -/

namespace Sys2Proof

/-- The commands of the separable abbreviation unit (00_scope.md R2). -/
def Instr.needsAbbr : Instr → Bool
  | .nop => false
  | .pad => false
  | .strip => false
  | .xfer => false
  | .clearFreq => false
  | .buildFreq => false
  | .buildSample => false
  | .buildDefault => false
  | .encode => false
  | .decode => false
  | .abbrW2A => true
  | .abbrA2W => true

/-- A command exists on a block with or without the unit (R94: "OPC is 0x40 or 0x41 and HAS_ABBR = 0" is illegal). -/
def WellFormed (hasAbbr : Bool) (i : Instr) : Bool := !i.needsAbbr || hasAbbr

end Sys2Proof
end

