-- ==== Sys2Proof/Decode.lean ====
section
/-! DEFINITION. The decoder (30_encoding.md R91-R95), total on every 32-bit word and refusing by name, and the encoder (R93). -/

namespace Sys2Proof

/-- Why a word is illegal: R94 (a), (b), (c). -/
inductive Illegal where
  /-- R94(a): "RSV != 0". -/
  | reservedBits
  /-- R94(b): "OPC is not one of the twelve values of rule R93". -/
  | unassignedOpcode
  /-- R94(c): "OPC is 0x40 or 0x41 and HAS_ABBR = 0". -/
  | unitAbsent
deriving DecidableEq, Repr

/-- The OPC field, bits 7:0 (R91). -/
def opcField (w : Word) : Nat := (w.extractLsb' 0 8).toNat

/-- The RSV field, bits 31:8 (R91). -/
def rsvField (w : Word) : Nat := (w.extractLsb' 8 24).toNat

/-- The command an OPC value stands for (R93's opcode map), or none. -/
def opcodeMap : Nat → Option Instr
  | 0x00 => some .nop
  | 0x10 => some .pad
  | 0x11 => some .strip
  | 0x12 => some .xfer
  | 0x20 => some .clearFreq
  | 0x21 => some .buildFreq
  | 0x22 => some .buildSample
  | 0x23 => some .buildDefault
  | 0x30 => some .encode
  | 0x31 => some .decode
  | 0x40 => some .abbrW2A
  | 0x41 => some .abbrA2W
  | _ => none

/-- `decode(w)` of R95. -/
def decodeWord (hasAbbr : Bool) (w : Word) : Except Illegal Instr :=
  if rsvField w != 0 then .error .reservedBits
  else match opcodeMap (opcField w) with
    | none => .error .unassignedOpcode
    | some i => if WellFormed hasAbbr i then .ok i else .error .unitAbsent

/-- The instruction as the sequencer keeps it: none for an ILLEGAL word. -/
def commandOf (hasAbbr : Bool) (w : Word) : Option Instr :=
  match decodeWord hasAbbr w with
  | .ok i => some i
  | .error _ => none

/-- The word of a command (R93, column "word"). -/
def encode : Instr → Word
  | .nop => 0x00000000
  | .pad => 0x00000010
  | .strip => 0x00000011
  | .xfer => 0x00000012
  | .clearFreq => 0x00000020
  | .buildFreq => 0x00000021
  | .buildSample => 0x00000022
  | .buildDefault => 0x00000023
  | .encode => 0x00000030
  | .decode => 0x00000031
  | .abbrW2A => 0x00000040
  | .abbrA2W => 0x00000041

/-- The host's reading of an opcode-table word: a command is one 32-bit word delivered by one bus write (R96), HAS_ABBR = 1
(R5). A value that needs more than 32 bits is no command word. -/
def decodeTableWord (nbits w : Nat) : Option Instr :=
  if w % 2 ^ nbits < 2 ^ 32 then commandOf true (word (w % 2 ^ nbits)) else none

end Sys2Proof
end

