-- ==== Sys2Proof/Config.lean ====
section
/-! DEFINITION. What one fitting of the block fixes (spec 00_scope.md R5), and the free values: constants without a body,
so that nothing can be proved about what they are. The two ROMs, which are OPEN too, are in Machine/Fitting.lean,
beside the types that carry their premises. -/

namespace Sys2Proof.Config

/-- NSYM_MAX (R5): entries of FREQ and of CTAB, one per symbol. -/
abbrev symbols : Nat := 256

/-- MAX_CODE_LEN (R5). -/
abbrev maxCodeLen : Nat := 32

/-- IBUF_BYTES (R5). -/
abbrev ibufBytes : Nat := 4096

/-- OBUF_BYTES (R5). -/
abbrev obufBytes : Nat := 4096

/-- IBUF in bits (R5: "4096 bytes (32768 bits)"). -/
abbrev ibufBits : Nat := 32768

/-- OBUF in bits (R5). -/
abbrev obufBits : Nat := 32768

/-- The reset value of PADLEN (R5, R26), the document's default padding. -/
abbrev padlenReset : Word := 5

/-- ABBR_MAXW (R5): the longest abbreviation or word. -/
abbrev abbrMaxW : Nat := 63

/-- ABBR_MAX_ENTRIES (R5). -/
abbrev abbrMaxEntries : Nat := 1048576

/-- The first offset of FREQ (10_state.md R20's map). -/
abbrev freqBase : Nat := 0x0400

/-- The first offset of CTAB (R20's map). -/
abbrev ctabBase : Nat := 0x0800

/-- The first offset of IBUF (R20's map). -/
abbrev ibufBase : Nat := 0x1000

/-- The first offset of OBUF (R20's map). -/
abbrev obufBase : Nat := 0x2000

/-- BASE (R5, R60), OPEN: the platform address of offset 0 of the block. -/
opaque base : Nat

/-- The platform address of an offset (R60: "at platform address BASE + offset"). The model works at offsets. -/
abbrev platformAddress (off : BitVec 16) : Nat := base + off.toNat

/-- LATENCY (R5, R119, R296), OPEN. `latency d` is how many HOST turns pass before the command accepted with draw number
`d` completes: finite, and nothing bounds it (log entry 2). -/
opaque latency : Nat → Nat

/-- A drawn byte of IBUF or OBUF: generation and offset (R13 "draw"; 93_implementation_defined.md U10, U12, U13; log entry 3). -/
opaque freeByte : Nat → Nat → Byte

/-- A drawn word: of FREQ or CTAB by generation and offset (U11-U13), or the value of a read while BUSY by draw number and
offset (70_reset_and_hazards.md R293, U14; log entries 3 and 10). -/
opaque freeWord : Nat → Nat → Word

/-- What a HOST branch finds under a name that no line has read (log entry 15). -/
opaque unreadName : Nat → Word

/-- The offline generator's random source (44_abbreviation_lookup.md R236), OPEN: call number and candidate. The generator
takes it modulo the number of interior positions, so every interior position is possible (log entry 17). -/
opaque randInterior : Nat → List Byte → Nat

/-- The CUTOFF of an image made from a text listing alone: R235 makes such an image, and the listing carries no cutoff (log
entry 23). -/
opaque listingCutoff : List Byte → Word

end Sys2Proof.Config
end

