-- ==== Sys2Proof/Machine/CodeTable.lean ====
section
/-! DEFINITION. Code tables as pure functions: the fields of FREQ and CTAB words (10_state.md R33, R34), BuildTable
(42_code_construction.md R151-R163), the code bits and the parse (43_encode_decode.md R180, R183). -/

namespace Sys2Proof.Machine

/-! ## FREQ words (R33) -/

/-- The bits a FREQ entry keeps: PRESENT and COUNT. Bits 30:24 are reserved and read 0 (R33). -/
def freqKeep (w : Word) : Word := w &&& 0x80FFFFFF

/-- PRESENT, bit 31. -/
def freqPresent (w : Word) : Bool := w.getLsbD 31

/-- COUNT, bits 23:0. -/
def freqCount (w : Word) : Nat := (w.extractLsb' 0 24).toNat

/-- The FREQ word of a count in a sample (R167): PRESENT exactly when the symbol occurs. -/
def sampleWord (c : Nat) : Word := if c = 0 then 0 else word (2 ^ 31 + c)

/-- The 256 FREQ words BUILD_SAMPLE writes for a text (R167). -/
def sampleFreq (t : List Byte) : List Word :=
  (List.range Config.symbols).map fun s => sampleWord (t.count (BitVec.ofNat 8 s))

/-! ## Merging (R151-R155) -/

/-- The present symbols with their counts, ascending (R151), of the FREQ words from symbol `s` on. -/
def presentFrom : Nat → List Word → List (Nat × Nat)
  | _, [] => []
  | s, w :: ws =>
    if freqPresent w then (s, freqCount w) :: presentFrom (s + 1) ws else presentFrom (s + 1) ws

/-- A node of the merge pool (R154): its weight, its sequence number, and its leaves with their depth so far. -/
structure Node where
  weight : Nat
  seq : Nat
  leaves : List (Nat × Nat)
deriving DecidableEq, Repr

/-- "compared weight first, then seq" (R154). -/
def Node.before (x y : Node) : Bool :=
  Nat.blt x.weight y.weight || (Nat.beq x.weight y.weight && Nat.blt x.seq y.seq)

/-- The leaves of R151: leaf k is the k-th present symbol with sequence number k. -/
def leafNodes : Nat → List (Nat × Nat) → List Node
  | _, [] => []
  | k, (s, c) :: ps => ⟨c, k, [(s, 0)]⟩ :: leafNodes (k + 1) ps

/-- The node of the pool with the least (weight, seq), and the pool without it (R154). -/
def popLeast : List Node → Option (Node × List Node)
  | [] => none
  | x :: xs =>
    match popLeast xs with
    | none => some (x, [])
    | some (m, rest) => if x.before m then some (x, xs) else some (m, x :: rest)

/-- "for each s in x.leaves union y.leaves: depth(s) <- depth(s) + 1" (R154). -/
def deeper (ls : List (Nat × Nat)) : List (Nat × Nat) := ls.map fun p => (p.1, p.2 + 1)

/-- One pass of R154's loop: none when fewer than two nodes are left. `next` is the parent's sequence number. -/
def mergeTwo (next : Nat) (pool : List Node) : Option (List Node) :=
  match popLeast pool with
  | none => none
  | some (x, pool1) =>
    match popLeast pool1 with
    | none => none
    | some (y, pool2) => some (⟨x.weight + y.weight, next, deeper (x.leaves ++ y.leaves)⟩ :: pool2)

/-- R154's loop; a pool of n nodes needs n - 1 passes, so n passes are enough. -/
def mergeLoop : Nat → Nat → List Node → List Node
  | 0, _, pool => pool
  | fuel + 1, next, pool =>
    match mergeTwo next pool with
    | none => pool
    | some pool' => mergeLoop fuel (next + 1) pool'

/-- LEN(s) of every present symbol: none for an empty mapping (R152), 1 for one symbol (R153), the depth in the merge tree
otherwise (R154, R155). -/
def codeLengths (freq : List Word) : List (Nat × Nat) :=
  match presentFrom 0 freq with
  | [] => []
  | [(s, _)] => [(s, 1)]
  | ps => (mergeLoop ps.length ps.length (leafNodes 0 ps)).flatMap Node.leaves

/-- MAXL of R158. -/
def maxLength (ls : List (Nat × Nat)) : Nat := ls.foldr (fun p m => max p.2 m) 0

/-! ## Canonical assignment (R160) -/

/-- One symbol's code: symbol, LEN and CODE (R34). -/
structure CodeEntry where
  sym : Nat
  len : Nat
  code : Nat
deriving DecidableEq, Repr

/-- The order of R160: "shorter codes first; ties by symbol value". -/
def canonBefore (x y : Nat × Nat) : Bool :=
  Nat.blt x.2 y.2 || (Nat.beq x.2 y.2 && Nat.blt x.1 y.1)

/-- Insertion into a list in canonical order. -/
def canonInsert (x : Nat × Nat) : List (Nat × Nat) → List (Nat × Nat)
  | [] => [x]
  | y :: ys => if canonBefore x y then x :: y :: ys else y :: canonInsert x ys

/-- "P sorted by (LEN(s), s) ascending" (R160). -/
def canonSort (ls : List (Nat × Nat)) : List (Nat × Nat) := ls.foldr canonInsert []

/-- The loop of R160 after its first symbol: `code` and `prev` are the last symbol's CODE and LEN. -/
def assignFrom (code prev : Nat) : List (Nat × Nat) → List CodeEntry
  | [] => []
  | (s, l) :: ls =>
    ⟨s, l, (code + 1) <<< (l - prev)⟩ :: assignFrom ((code + 1) <<< (l - prev)) l ls

/-- The codes of R160 over symbols already in canonical order; the first symbol's CODE is 0. -/
def assignCodes : List (Nat × Nat) → List CodeEntry
  | [] => []
  | (s, l) :: ls => ⟨s, l, 0⟩ :: assignFrom 0 l ls

/-! ## BuildTable -/

/-- How BuildTable ends: the codes in canonical order with MAXL, or one of its two errors (R152, R158). -/
inductive Build where
  /-- R163: the table, and MAXL. -/
  | table (codes : List CodeEntry) (maxl : Nat)
  /-- R152: no present symbol. -/
  | empty
  /-- R158: MAXL > MAX_CODE_LEN. -/
  | tooLong (maxl : Nat)
deriving DecidableEq, Repr

/-- R158 and R160 once the lengths are known. -/
def buildOfLengths : List (Nat × Nat) → Build
  | [] => .empty
  | p :: ls =>
    if Nat.ble (maxLength (p :: ls)) Config.maxCodeLen then
      .table (assignCodes (canonSort (p :: ls))) (maxLength (p :: ls))
    else .tooLong (maxLength (p :: ls))

/-- BuildTable (R151-R160) on the 256 FREQ words: a function of FREQ alone (R154). -/
def buildTable (freq : List Word) : Build := buildOfLengths (codeLengths freq)

/-- The code of a symbol in a table. -/
def findSym (codes : List CodeEntry) (s : Nat) : Option CodeEntry := codes.find? fun e => Nat.beq e.sym s

/-- CTAB_LEN[s] and CTAB_CODE[s] (R34, R163). -/
def ctabPair : Option CodeEntry → List Word
  | some e => [word (2 ^ 31 + e.len), word e.code]
  | none => [0, 0]

/-- The 512 words R163 writes, in offset order. -/
def ctabWords (codes : List CodeEntry) : List Word :=
  (List.range Config.symbols).flatMap fun s => ctabPair (findSym codes s)

/-! ## Reading CTAB back (R34) -/

/-- VALID, bit 31 of CTAB_LEN. -/
def ctabValid (l : Word) : Bool := l.getLsbD 31

/-- LEN, bits 5:0 of CTAB_LEN. -/
def ctabLen (l : Word) : Nat := (l.extractLsb' 0 6).toNat

/-- The present symbols of the CTAB words from symbol `s` on ("present" as in 43_encode_decode.md). -/
def entriesFrom : Nat → List Word → List CodeEntry
  | s, l :: c :: ws =>
    if ctabValid l then ⟨s, ctabLen l, c.toNat⟩ :: entriesFrom (s + 1) ws else entriesFrom (s + 1) ws
  | _, _ => []

/-! ## Code bits and parse (R180, R183) -/

/-- `bits(s)` of R180: the code, most significant bit first. -/
def CodeEntry.bits (e : CodeEntry) : List Bool :=
  (List.range e.len).map fun k => e.code.testBit (e.len - 1 - k)

/-- The concatenated bit patterns of a text (R181); a byte with no code adds none (ENCODE has refused it before). -/
def textBits (tbl : List CodeEntry) (t : List Byte) : List Bool :=
  t.flatMap fun b => ((findSym tbl b.toNat).map CodeEntry.bits).getD []

/-- The sum of LEN over a text (R181). -/
def textLength (tbl : List CodeEntry) (t : List Byte) : Nat :=
  (t.map fun b => ((findSym tbl b.toNat).map CodeEntry.len).getD 0).sum

/-- The first byte of a text with no code, with its index (R181: "first offending byte wins"). -/
def firstUnknown (tbl : List CodeEntry) : Nat → List Byte → Option (Nat × Byte)
  | _, [] => none
  | k, b :: t => if (findSym tbl b.toNat).isSome then firstUnknown tbl (k + 1) t else some (k, b)

/-- The result of R183's Parse. -/
inductive Parsed where
  /-- Ok(a byte string). -/
  | ok (out : List Byte)
  /-- Corrupt(j), j a bit index of the parsed sequence. -/
  | corrupt (j : Nat)
deriving DecidableEq, Repr

/-- The leaf that `L` bits of value `v` reach, if any (R183). -/
def leafAt (tbl : List CodeEntry) (L v : Nat) : Option CodeEntry :=
  tbl.find? fun e => Nat.beq e.len L && Nat.beq e.code v

/-- Some code continues past `L` bits of value `v` (R183). -/
def branchAt (tbl : List CodeEntry) (L v : Nat) : Bool :=
  tbl.any fun e => Nat.blt L e.len && Nat.beq (e.code >>> (e.len - L)) v

/-- The loop of R183. `i` is the next bit's index, `L` and `v` the length and value of the code read so far, `start` the
index of its first bit, `out` the bytes emitted. -/
def parseFrom (tbl : List CodeEntry) : Nat → Nat → Nat → Nat → List Byte → List Bool → Parsed
  | _, L, _, start, out, [] => if L = 0 then .ok out else .corrupt start
  | i, L, v, start, out, b :: bs =>
    match leafAt tbl (L + 1) (2 * v + b.toNat) with
    | some e => parseFrom tbl (i + 1) 0 0 (if L = 0 then i else start) (out ++ [BitVec.ofNat 8 e.sym]) bs
    | none =>
      if branchAt tbl (L + 1) (2 * v + b.toNat) then
        parseFrom tbl (i + 1) (L + 1) (2 * v + b.toNat) (if L = 0 then i else start) out bs
      else .corrupt (if L = 0 then i else start)

/-- Parse(c) of R183. -/
def parse (tbl : List CodeEntry) (c : List Bool) : Parsed := parseFrom tbl 0 0 0 0 [] c

/-! ## Bit packing (20_memory.md R64, R70, R71) -/

/-- The eight bits of a byte in buffer order, most significant first (R64). -/
def byteBits (b : Byte) : List Bool := (List.range 8).map fun j => b.getLsbD (7 - j)

/-- The first `n` bits of a byte string (R70). -/
def bitsOf (n : Nat) (bs : List Byte) : List Bool := (bs.flatMap byteBits).take n

/-- ceil(n / 8), the bytes that hold n bits (43_encode_decode.md R188: "(OUT_LEN + 7) >> 3"). -/
def byteCount (n : Nat) : Nat := (n + 7) / 8

/-- One byte of R71's sum, from at most eight bits; the missing ones are 0. -/
def packByte (c : List Bool) : Byte :=
  BitVec.ofNat 8 (((List.range 8).map fun j => (c.getD j false).toNat <<< (7 - j)).sum)

/-- The bytes R71's WriteBits stores for a bit sequence. -/
def packBits (b : List Bool) : List Byte :=
  (List.range (byteCount b.length)).map fun k => packByte ((b.drop (8 * k)).take 8)

end Sys2Proof.Machine
end

