-- ==== Sys2Proof/Machine/Rom.lean ====
section
/-! DEFINITION. The abbreviation ROM: image format (44_abbreviation_lookup.md R211-R213), the premises on an image
(R214-R217), and the two searches (R240, R241, R245). -/

namespace Sys2Proof.Machine

/-- A little-endian unsigned integer (R210). -/
def leNat : List Byte → Nat
  | [] => 0
  | b :: bs => b.toNat + 256 * leNat bs

/-- `len` bytes of an image from byte `off` on. -/
def slice (img : List Byte) (off len : Nat) : List Byte := (img.drop off).take len

/-- A byte of a record, 0 past its end. -/
def byteOr0 (bs : List Byte) (k : Nat) : Byte := bs.getD k 0

/-- N, the u32 at byte 4 (R211). -/
def romCount (img : List Byte) : Nat := leNat (slice img 4 4)

/-- CUTOFF, the u32 at byte 8 (R211, R212). -/
def romCutoff (img : List Byte) : Nat := leNat (slice img 8 4)

/-- One (abbreviation, word) pair as the lookups see it (R213). -/
structure Pair where
  abbr : List Byte
  wrd : List Byte
deriving DecidableEq, Repr

/-- A record's 128 bytes as a pair: ABBR(r) and WORD(r) (R213). -/
def recordPair (r : List Byte) : Pair :=
  ⟨slice r 1 (byteOr0 r 0).toNat, slice r 65 (byteOr0 r 64).toNat⟩

/-- The first `n` records of the bytes after the header, 128 bytes each (R211). -/
def recordsFrom : Nat → List Byte → List (List Byte)
  | 0, _ => []
  | n + 1, bs => bs.take 128 :: recordsFrom n (bs.drop 128)

/-- RECORD[0..N-1] (R211). -/
def romRecords (img : List Byte) : List (List Byte) := recordsFrom (romCount img) (img.drop 16)

/-- The pairs of an image in record order. -/
def romPairs (img : List Byte) : List Pair := (romRecords img).map recordPair

/-- `n` consecutive u32 values. -/
def u32sFrom : Nat → List Byte → List Nat
  | 0, _ => []
  | n + 1, bs => leNat (bs.take 4) :: u32sFrom n (bs.drop 4)

/-- AIDX[0..N-1] (R211). -/
def romAidx (img : List Byte) : List Nat := u32sFrom (romCount img) (img.drop (16 + 128 * romCount img))

/-- Bytewise order, a proper prefix before any longer string that extends it (R217). -/
def strBefore : List Byte → List Byte → Bool
  | _, [] => false
  | [], _ :: _ => true
  | x :: xs, y :: ys => Nat.blt x.toNat y.toNat || (Nat.beq x.toNat y.toNat && strBefore xs ys)

/-- Strictly ascending, each string before its successor (R217). -/
def strictlyAscending : List (List Byte) → Bool
  | x :: y :: zs => strBefore x y && strictlyAscending (y :: zs)
  | _ => true

/-- R214: framing. -/
def framingOk (img : List Byte) : Bool :=
  Nat.beq (leNat (slice img 0 4)) 0x52424241 && Nat.ble 1 (romCount img) && Nat.ble (romCount img) Config.abbrMaxEntries &&
    Nat.beq (leNat (slice img 12 4)) 0 && Nat.beq img.length (16 + 132 * romCount img)

/-- A letter 'a'-'z' (R215). -/
def isLetter (b : Byte) : Bool := Nat.ble 0x61 b.toNat && Nat.ble b.toNat 0x7A

/-- One half of a record: a length 1..63, that many letters, then zero bytes (R213, R215). -/
def halfOk (h : List Byte) : Bool :=
  let n := (byteOr0 h 0).toNat
  Nat.ble 1 n && Nat.ble n Config.abbrMaxW && (slice h 1 n).all isLetter && (h.drop (1 + n)).all fun b => Nat.beq b.toNat 0

/-- R215: every record. -/
def recordsOk (img : List Byte) : Bool :=
  (romRecords img).all fun r => halfOk (slice r 0 64) && halfOk (slice r 64 64)

/-- R216: no two records share a word, and no two share an abbreviation. -/
def bijectionOk (img : List Byte) : Bool :=
  decide ((romPairs img).map Pair.wrd).Nodup && decide ((romPairs img).map Pair.abbr).Nodup

/-- R217: words ascending; AIDX a permutation of 0..N-1 under which the abbreviations ascend. -/
def orderOk (img : List Byte) : Bool :=
  strictlyAscending ((romPairs img).map Pair.wrd) &&
    (romAidx img).all (fun k => Nat.blt k (romCount img)) && decide (romAidx img).Nodup &&
    strictlyAscending ((romAidx img).map fun k => (((romPairs img)[k]?).map Pair.abbr).getD [])

/-- The premises R219 puts on ABBR_ROM: R214-R217. -/
def romOk (img : List Byte) : Bool := framingOk img && recordsOk img && bijectionOk img && orderOk img

/-- R218: what a generated image has beside them: anchor stability, and shortened words that keep their ends. -/
def generatedPairOk (cutoff : Nat) (p : Pair) : Bool :=
  if Nat.ble p.wrd.length cutoff then decide (p.abbr = p.wrd)
  else Nat.ble 2 p.abbr.length && Nat.blt p.abbr.length p.wrd.length && p.abbr.isSublist p.wrd &&
    decide (p.abbr.head? = p.wrd.head?) && decide (p.abbr.getLast? = p.wrd.getLast?)

/-- `word_to_abbrev[k]` (R240): the abbreviation of the record whose word is the key. -/
def wordToAbbr (ps : List Pair) (k : List Byte) : Option (List Byte) :=
  (ps.find? fun p => decide (p.wrd = k)).map Pair.abbr

/-- `abbrev_to_word[k]` (R241). -/
def abbrToWord (ps : List Pair) (k : List Byte) : Option (List Byte) :=
  (ps.find? fun p => decide (p.abbr = k)).map Pair.wrd

/-! ## Making an image (R211, R213, R235) -/

/-- A u32 field, little-endian (R210). -/
def leBytes : Nat → Nat → List Byte
  | 0, _ => []
  | k + 1, n => BitVec.ofNat 8 n :: leBytes k (n / 256)

/-- A string in its half of a record: length, bytes, zero bytes to 64 in all (R213). -/
def halfBytes (s : List Byte) : List Byte :=
  BitVec.ofNat 8 s.length :: (s ++ List.replicate (Config.abbrMaxW - s.length) 0)

/-- The image of pairs already in word order, with the given AIDX (R211, R235). -/
def imageOf (cutoff : Nat) (ps : List Pair) (aidx : List Nat) : List Byte :=
  leBytes 4 0x52424241 ++ leBytes 4 ps.length ++ leBytes 4 cutoff ++ leBytes 4 0 ++
    ps.flatMap (fun p => halfBytes p.abbr ++ halfBytes p.wrd) ++ aidx.flatMap (leBytes 4)

/-- The pair that the example ROM below holds: the word "a", its own abbreviation. -/
def letterA : Pair := ⟨[0x61], [0x61]⟩

/-- ABBR_ROM with its premises (R219: "A model takes ABBR_ROM as a parameter with rules R214-R217 as premises"): an image that
breaks them is no value of this type (log entry 7). The default image only shows that the type has a value. -/
structure AbbrRom where
  image : List Byte := imageOf 1 [letterA] [0]
  ok : romOk image = true := by decide +kernel
deriving DecidableEq, Repr, Inhabited

/-- Fitting an image: refused when it breaks R214-R217 (93_implementation_defined.md U19). -/
def fitRom (img : List Byte) : Option AbbrRom := if h : romOk img = true then some ⟨img, h⟩ else none

end Sys2Proof.Machine
end

