-- ==== Sys2Proof/Machine/Fitting.lean ====
section
/-! DEFINITION. What is fitted to one block: the abbreviation ROM or none (HAS_ABBR, 00_scope.md R2, R5) and DEFAULT_FREQ, each
of a type that carries the premises the spec puts on it (44_abbreviation_lookup.md R219; 42_code_construction.md R170), and
this block's fitting, OPEN constants without a body. -/

namespace Sys2Proof.Machine

/-- BuildTable makes a table of these words (R170: at least one PRESENT entry, and MAXL <= 32). -/
def builds (freq : List Word) : Bool :=
  match buildTable freq with
  | .table _ _ => true
  | .empty => false
  | .tooLong _ => false

/-- R170's premises with R37's format: 256 entries, reserved bits 0, and a build that succeeds. -/
def defaultFreqOk (freq : List Word) : Bool :=
  Nat.beq freq.length Config.symbols && freq.all (fun w => decide (freqKeep w = w)) && builds freq

/-- DEFAULT_FREQ with its premises (R170: "A model takes DEFAULT_FREQ as a parameter with these two premises"). The default
value only shows that the type has a value. -/
structure DefaultFreq where
  entries : List Word := List.replicate 255 0 ++ [0x80000000]
  ok : defaultFreqOk entries = true := by decide +kernel
deriving DecidableEq, Repr, Inhabited

/-- Fitting a default table: refused when it breaks R170 (93_implementation_defined.md U20). -/
def fitDefaultFreq (freq : List Word) : Option DefaultFreq := if h : defaultFreqOk freq = true then some ⟨freq, h⟩ else none

/-- What is fitted to a block. The spec calls it configuration (10_state.md R20, R37, R38); it stands in State as a field no
step changes, so that a statement covers every fitting (log entry 6). -/
structure Fitting where
  /-- ABBR_ROM, or none when HAS_ABBR = 0 (R2, R38). -/
  abbr : Option AbbrRom
  /-- DEFAULT_FREQ (R37). -/
  defaultFreq : DefaultFreq
deriving DecidableEq, Repr, Inhabited

/-- HAS_ABBR (R2): "whether the abbreviation ROM and lookup unit are fitted". -/
def Fitting.hasAbbr (f : Fitting) : Bool := f.abbr.isSome

end Sys2Proof.Machine

namespace Sys2Proof.Config

/-- ABBR_ROM (R5, R38), OPEN. -/
opaque abbrRom : Machine.AbbrRom

/-- DEFAULT_FREQ (R5, R37), OPEN. -/
opaque defaultFreq : Machine.DefaultFreq

/-- The fitting of this block: HAS_ABBR = 1 (R5), both ROMs OPEN. -/
def fitting : Machine.Fitting := ⟨some abbrRom, defaultFreq⟩

end Sys2Proof.Config
end

