-- ==== Sys2Proof/Machine/State.lean ====
section
/-! DEFINITION. The state (10_state.md R20-R40), plain data, and the state right after a hardware reset. -/

namespace Sys2Proof.Machine

/-- Why the machine stops. The spec's own errors are no faults: they are error completions (60_exceptions.md R255). -/
inductive Fault where
  /-- Raised by XFER alone, in a state whose OUT_LEN covers more bytes than OBUF has: 41_bitbuffer.md R140 shows that no run
  reaches one, and R77 forbids the access. Safe: the model stops (log entry 13). -/
  | outLenBeyondObuf
deriving DecidableEq, Repr

/-- Why the model gives an instruction no meaning. -/
inductive Refusal where
  /-- An arm of exec without a meaning, by mnemonic. Raised by no arm of this model. Safe: the model stops. -/
  | notModelled (mnemonic : String)
deriving DecidableEq, Repr

/-- The error codes of 60_exceptions.md R250. Codes 0x0A-0xFF are never reported, so they are no values of the type. -/
inductive ErrCode where
  /-- 0x00 NONE. -/
  | noError
  /-- 0x01 ILLEGAL_CMD. -/
  | illegalCmd
  /-- 0x02 INVALID_ARGUMENT. -/
  | invalidArgument
  /-- 0x03 EMPTY_INPUT. -/
  | emptyInput
  /-- 0x04 UNKNOWN_SYMBOL. -/
  | unknownSymbol
  /-- 0x05 CORRUPT_STREAM. -/
  | corruptStream
  /-- 0x06 NO_TABLE. -/
  | noTable
  /-- 0x07 CODE_TOO_LONG. -/
  | codeTooLong
  /-- 0x08 OUT_OVERFLOW. -/
  | outOverflow
  /-- 0x09 NOT_FOUND. -/
  | notFound
deriving DecidableEq, Repr

/-- STATUS without BUSY (10_state.md R24), whose one home is the sequencer (R39). Reserved bits read 0 and hold nothing. -/
structure Status where
  done : Bool
  err : Bool
  wdrop : Bool
  tvalid : Bool
  /-- 1: OUT_LEN counts bits; 0: bytes. -/
  outu : Bool
  errCode : ErrCode
deriving DecidableEq, Repr

/-- A memory: listed places with a definite value, by bus offset in rising order, over a draw. An unlisted place has no
definite value: it reads as the draw that `gen` names (R13 "draw"; log entries 3 and 4). -/
structure Store (α : Type) where
  gen : Nat
  cells : List (Nat × α)
deriving DecidableEq, Repr

/-- IBUF or OBUF: bytes by offset, a list of Host.Cell. -/
abbrev Bytes := Store Byte

/-- FREQ or CTAB: 32-bit entries by offset (R33, R34; log entry 9). -/
abbrev Table := Store Word

/-- The four memories (R33-R36). -/
structure Memory where
  freq : Table
  ctab : Table
  ibuf : Bytes
  obuf : Bytes
deriving DecidableEq, Repr

/-- What SEQ = BUSY carries (R39): the accepted word, PADLEN, IN_LEN, FREQ and IBUF as they were at acceptance. -/
structure Snapshot where
  cmd : Word
  padlen : Word
  inLen : Word
  freq : Table
  ibuf : Bytes
deriving DecidableEq, Repr

/-- SEQ (R39). `turns` is the model's: the HOST turns left before the completion (log entry 2). -/
inductive Seq where
  | idle
  | busy (snap : Snapshot) (turns : Nat)
deriving DecidableEq, Repr

/-- One thing the HOST does (30_encoding.md R97 after expansion; 00_scope.md R9, R10), or the platform does to the block. -/
inductive Line where
  /-- HostWrite(off, v). -/
  | write (off : BitVec 16) (v : Word)
  /-- HostRead(off); the result is named. -/
  | read (off : BitVec 16) (name : Nat)
  /-- `if <name>[<bit>] = <val> goto <target>`, a HOST branch on a value read earlier; target is a place in the list. -/
  | branch (name bit : Nat) (val : Bool) (target : Nat)
  /-- The HOST observes the level of the IRQ output (R10); the result, 0 or 1, is named. -/
  | readIrq (name : Nat)
  /-- The platform drives the hardware reset input (70_reset_and_hazards.md R280). -/
  | hardReset
deriving DecidableEq, Repr

/-- The HOST agent (00_scope.md R9): its list of lines, its place in it, and what it has read, newest first. -/
structure Master where
  prog : List Line
  pc : Nat
  reads : List (Nat × Word)
deriving DecidableEq, Repr

/-- The state of the block (R20), and after `seq` the model's own fields: the HOST, the fitting, and the draw counter. -/
structure State where
  /-- CTRL.IE (R23). -/
  ie : Bool
  /-- STATUS (R24). -/
  status : Status
  /-- PADLEN (R26). -/
  padlen : Word
  /-- IN_LEN (R27). -/
  inLen : Word
  /-- OUT_LEN (R28). -/
  outLen : Word
  /-- ERR_INFO (R29). -/
  errInfo : Word
  /-- NSYM bits 8:0 (R30). -/
  nsym : BitVec 9
  /-- MAXLEN bits 5:0 (R31). -/
  maxlen : BitVec 6
  /-- FREQ, CTAB, IBUF, OBUF (R33-R36). -/
  mem : Memory
  /-- SEQ (R39). -/
  seq : Seq
  /-- The HOST (00_scope.md R9; log entry 1). -/
  master : Master
  /-- The ROMs, constant (log entry 6). -/
  fit : Fitting
  /-- The number of the next draw (log entry 3). -/
  draws : Nat
deriving DecidableEq, Repr

/-- STATUS = 0x00000000 (R40). -/
def Status.zero : Status := ⟨false, false, false, false, false, .noError⟩

/-- The four memories with nothing listed: every place is a draw (R40; log entry 4). -/
def Memory.drawn (gen : Nat) : Memory := ⟨⟨gen, []⟩, ⟨gen, []⟩, ⟨gen, []⟩, ⟨gen, []⟩⟩

/-- Right after a hardware reset (R40; 70_reset_and_hazards.md R281). The HOST has no lines yet (log entries 5 and 8). -/
def State.reset : State where
  ie := false
  status := Status.zero
  padlen := Config.padlenReset
  inLen := 0
  outLen := 0
  errInfo := 0
  nsym := 0
  maxlen := 0
  mem := Memory.drawn 0
  seq := .idle
  master := ⟨[], 0, []⟩
  fit := Config.fitting
  draws := 1

end Sys2Proof.Machine
end

