-- ==== Sys2Proof/Machine/Ops.lean ====
section
/-! DEFINITION. The shared operations: memories (20_memory.md R70-R72), draws, acceptance (40_command_sequencer.md R111),
completion with and without error (R115-R117, the block's form of taking an exception, 60_exceptions.md R255), and the two
resets with the abort (70_reset_and_hazards.md R281-R283). -/

namespace Sys2Proof.Machine

/-! ## Stores -/

/-- The definite value listed at an address, if any: the walk ends at the first address past it. -/
def lookup {α : Type} (a : Nat) : List (Nat × α) → Option α
  | [] => none
  | c :: cs => if Nat.blt c.1 a then lookup a cs else if Nat.beq c.1 a then some c.2 else none

/-- The listed cells from an address on. -/
def cellsFrom {α : Type} (a : Nat) : List (Nat × α) → List (Nat × α)
  | [] => []
  | c :: cs => if Nat.blt c.1 a then cellsFrom a cs else c :: cs

/-- The listed cells before an address. -/
def cellsBefore {α : Type} (a : Nat) : List (Nat × α) → List (Nat × α)
  | [] => []
  | c :: cs => if Nat.blt c.1 a then c :: cellsBefore a cs else []

/-- Values as cells, `stride` apart from address `a` on. -/
def block {α : Type} (stride : Nat) : Nat → List α → List (Nat × α)
  | _, [] => []
  | a, v :: vs => (a, v) :: block stride (a + stride) vs

/-- ONE place of a memory: its listed value, else the draw of its generation. -/
def Store.get {α : Type} (free : Nat → Nat → α) (st : Store α) (a : Nat) : α :=
  (lookup a st.cells).getD (free st.gen a)

/-- The places `a, a + stride, ...`, n of them, in one walk along the cells; Laws/Memory.lean proves that each is `Store.get`. -/
def windowFrom {α : Type} (free : Nat → α) (stride : Nat) : Nat → Nat → List (Nat × α) → List α
  | 0, _, _ => []
  | n + 1, a, cs =>
    match cellsFrom a cs with
    | [] => free a :: windowFrom free stride n (a + stride) []
    | c :: rest =>
      if Nat.beq c.1 a then c.2 :: windowFrom free stride n (a + stride) rest
      else free a :: windowFrom free stride n (a + stride) (c :: rest)

/-- `n` places of a store from address `a` on. -/
def Store.window {α : Type} (free : Nat → Nat → α) (stride n a : Nat) (st : Store α) : List α :=
  windowFrom (free st.gen) stride n a st.cells

/-- A write of consecutive places: they are listed, every other place keeps what it had. -/
def Store.write {α : Type} (stride a : Nat) (vs : List α) (st : Store α) : Store α :=
  { st with cells := cellsBefore a st.cells ++ block stride a vs ++ cellsFrom (a + stride * vs.length) st.cells }

/-- The canonical form of one store's cells: addresses strictly rising, each one of the store's places. A listed place has a
definite value and an unlisted one has none, so no entry equals what an unlisted address holds. -/
def cellsOk {α : Type} (stride lo hi : Nat) : List (Nat × α) → Bool
  | [] => true
  | c :: cs =>
    Nat.ble lo c.1 && Nat.blt c.1 hi && Nat.beq (c.1 % stride) 0 && cellsOk stride (c.1 + 1) hi cs

/-- The canonical form of the four memories. -/
def Memory.wf (m : Memory) : Bool :=
  cellsOk 4 Config.freqBase 0x0800 m.freq.cells && cellsOk 4 Config.ctabBase 0x1000 m.ctab.cells &&
    cellsOk 1 Config.ibufBase 0x2000 m.ibuf.cells && cellsOk 1 Config.obufBase 0x3000 m.obuf.cells

/-! ## The memories (R33-R36, R63, R70-R72) -/

/-- A byte of IBUF or OBUF by offset. -/
def Bytes.at (st : Bytes) (a : Nat) : Byte := st.get Config.freeByte a

/-- `n` bytes of IBUF or OBUF from an offset on. -/
def Bytes.take (n a : Nat) (st : Bytes) : List Byte := st.window Config.freeByte 1 n a

/-- A FREQ word by offset; the reserved bits of a drawn word read 0 too (R33; log entry 11). -/
def Table.freqAt (st : Table) (a : Nat) : Word := freqKeep (st.get Config.freeWord a)

/-- A CTAB word by offset (R34). -/
def Table.ctabAt (st : Table) (a : Nat) : Word := st.get Config.freeWord a

/-- FREQ[0..255] (R33). -/
def Table.freqWords (st : Table) : List Word := (st.window Config.freeWord 4 256 Config.freqBase).map freqKeep

/-- CTAB as 512 words in offset order (R34). -/
def Table.ctabAll (st : Table) : List Word := st.window Config.freeWord 4 512 Config.ctabBase

/-- The present symbols of CTAB (43_encode_decode.md: "present" means CTAB_LEN[s].VALID = 1). -/
def Table.entries (st : Table) : List CodeEntry := entriesFrom 0 st.ctabAll

/-- FREQ[0..255] <- 256 words. -/
def Table.setFreq (ws : List Word) (st : Table) : Table := st.write 4 Config.freqBase (ws.map freqKeep)

/-- CTAB <- 512 words in offset order. -/
def Table.setCtab (ws : List Word) (st : Table) : Table := st.write 4 Config.ctabBase ws

/-- Byte `j` of a word, lane j (R63). -/
def lane (j : Nat) (v : Word) : Byte := v.extractLsb' (8 * j) 8

/-- The four lanes of a word, lowest address first (R63). -/
def lanes (v : Word) : List Byte := [lane 0 v, lane 1 v, lane 2 v, lane 3 v]

/-- The word whose lanes are four bytes (R63: b0 | b1 << 8 | b2 << 16 | b3 << 24). -/
def ofLanes (b0 b1 b2 b3 : Byte) : Word :=
  b0.setWidth 32 ||| b1.setWidth 32 <<< 8 ||| b2.setWidth 32 <<< 16 ||| b3.setWidth 32 <<< 24

/-- The word of a buffer at an offset (R63). -/
def Bytes.wordAt (st : Bytes) (a : Nat) : Word := ofLanes (st.at a) (st.at (a + 1)) (st.at (a + 2)) (st.at (a + 3))

/-- ONE byte of the whole address space, at a byte offset; outside the four memories there is none and it is 0. A table's word
is laid out by the lanes of R63 here, a layout nothing can observe (log entry 9). -/
def Memory.byteAt (m : Memory) (a : Nat) : Byte :=
  if a < 0x0400 then 0
  else if a < 0x0800 then lane (a % 4) (m.freq.freqAt (a - a % 4))
  else if a < 0x1000 then lane (a % 4) (m.ctab.ctabAt (a - a % 4))
  else if a < 0x2000 then m.ibuf.at a
  else if a < 0x3000 then m.obuf.at a
  else 0

/-- `ITEXT(n)` (R72) of an IBUF content. -/
def Bytes.itext (n : Nat) (ibuf : Bytes) : List Byte := ibuf.take n Config.ibufBase

/-- `IBITS(n)` (R70) of an IBUF content. -/
def Bytes.ibits (n : Nat) (ibuf : Bytes) : List Bool := bitsOf n (ibuf.itext (byteCount n))

/-- `WriteBytes(s)` (R72). -/
def State.writeBytes (bs : List Byte) (s : State) : State :=
  { s with mem := { s.mem with obuf := s.mem.obuf.write 1 Config.obufBase bs } }

/-- `WriteBits(b)` (R71). -/
def State.writeBits (b : List Bool) (s : State) : State := s.writeBytes (packBits b)

/-- `OUT_LEN <- n ; STATUS.OUTU <- u` (u = true: bits). -/
def State.setOut (n : Nat) (u : Bool) (s : State) : State :=
  { s with outLen := word n, status := { s.status with outu := u } }

/-! ## Draws (R13, R114, R117, R283) -/

/-- OBUF <- draw. -/
def State.drawObuf (s : State) : State :=
  { s with mem := { s.mem with obuf := ⟨s.draws, []⟩ }, draws := s.draws + 1 }

/-- IBUF <- draw. -/
def State.drawIbuf (s : State) : State :=
  { s with mem := { s.mem with ibuf := ⟨s.draws, []⟩ }, draws := s.draws + 1 }

/-- FREQ <- draw. -/
def State.drawFreq (s : State) : State :=
  { s with mem := { s.mem with freq := ⟨s.draws, []⟩ }, draws := s.draws + 1 }

/-- CTAB <- draw. -/
def State.drawCtab (s : State) : State :=
  { s with mem := { s.mem with ctab := ⟨s.draws, []⟩ }, draws := s.draws + 1 }

/-! ## Acceptance (R111, R112) -/

/-- SEQ = BUSY; the same as STATUS.BUSY (R39). -/
def Seq.isBusy : Seq → Bool
  | .idle => false
  | .busy _ _ => true

/-- STATUS.BUSY (R24, R39). -/
def State.busy (s : State) : Bool := s.seq.isBusy

/-- The three BUILD commands (R111, R150). -/
def isBuild : Option Instr → Bool
  | some .buildFreq => true
  | some .buildSample => true
  | some .buildDefault => true
  | some .nop => false
  | some .pad => false
  | some .strip => false
  | some .xfer => false
  | some .clearFreq => false
  | some .encode => false
  | some .decode => false
  | some .abbrW2A => false
  | some .abbrA2W => false
  | none => false

/-- The command of a word on this block, none for ILLEGAL (R95). -/
def State.command (s : State) (w : Word) : Option Instr := commandOf s.fit.hasAbbr w

/-- R111: acceptance of a word, to complete after `turns` HOST turns. -/
def State.accept (turns : Nat) (w : Word) (s : State) : State :=
  let b := isBuild (s.command w)
  { s with
    status := { s.status with done := false, err := false, errCode := .noError, tvalid := !b && s.status.tvalid }
    errInfo := 0
    nsym := if b then 0 else s.nsym
    maxlen := if b then 0 else s.maxlen
    seq := .busy ⟨w, s.padlen, s.inLen, s.mem.freq, s.mem.ibuf⟩ turns }

/-- A host write dropped while BUSY (R112; 70_reset_and_hazards.md R292). -/
def State.dropWrite (s : State) : State := { s with status := { s.status with wdrop := true } }

/-- A write to CMD (R111, R112): accepted when IDLE, with a latency drawn for it, else dropped. -/
def State.present (w : Word) (s : State) : State :=
  if s.busy then s.dropWrite
  else { s with draws := s.draws + 1 }.accept (Config.latency s.draws) w

/-! ## Completion (R115-R117) -/

/-- An error and its information word (60_exceptions.md R250, R251). -/
structure Failure where
  code : ErrCode
  info : Word
deriving DecidableEq, Repr

/-- R115: "STATUS.BUSY <- 0 ; STATUS.DONE <- 1 ; SEQ <- IDLE". After a body's writes this is also `complete()` (R116). -/
def State.settle (s : State) : State := { s with status := { s.status with done := true }, seq := .idle }

/-- The writes R117 names for the failed command, beside the error registers. -/
def State.discard (c : Option Instr) (s : State) : State :=
  match c with
  | some .pad => s.drawObuf.setOut 0 true
  | some .strip => s.drawObuf.setOut 0 true
  | some .encode => s.drawObuf.setOut 0 true
  | some .decode => s.drawObuf.setOut 0 false
  | some .abbrW2A => s.drawObuf.setOut 0 false
  | some .abbrA2W => s.drawObuf.setOut 0 false
  | some .buildFreq => s.drawCtab
  | some .buildSample => s.drawCtab
  | some .buildDefault =>
    { s with mem := { s.mem with freq := s.mem.freq.setFreq s.fit.defaultFreq.entries } }.drawCtab
  | some .nop => s
  | some .xfer => s
  | some .clearFreq => s
  | none => s

/-- `raise E(info)` (R117): TAKING AN ERROR COMPLETION. The body's writes are gone; the error registers, R117's writes for the
command, and R115's. -/
def State.raise (c : Option Instr) (f : Failure) (s : State) : State :=
  let d := s.discard c
  { d with status := { d.status with err := true, errCode := f.code }, errInfo := f.info }.settle

/-- The completion step on the result of a body (R114, R115): the state with the body's writes, or an error. -/
def State.finish (c : Option Instr) (s : State) : Except Failure State → State
  | .ok t => t.settle
  | .error f => s.raise c f

/-! ## Resets (R281-R283) -/

/-- R283's table: the memories an aborted command was writing become draws. -/
def State.abortDraws (c : Option Instr) (s : State) : State :=
  match c with
  | some .pad => s.drawObuf
  | some .strip => s.drawObuf
  | some .encode => s.drawObuf
  | some .decode => s.drawObuf
  | some .abbrW2A => s.drawObuf
  | some .abbrA2W => s.drawObuf
  | some .xfer => s.drawIbuf
  | some .clearFreq => s.drawFreq
  | some .buildSample => s.drawFreq.drawCtab
  | some .buildDefault => s.drawFreq.drawCtab
  | some .buildFreq => s.drawCtab
  | some .nop => s
  | none => s

/-- R282 and R283: abort of the running command, if there is one. -/
def State.abort (s : State) : State :=
  match s.seq with
  | .idle => s
  | .busy k _ => s.abortDraws (s.command k.cmd)

/-- The register values both resets leave (R281, R282). -/
def State.resetRegs (s : State) : State :=
  { s with
    ie := false
    status := Status.zero
    padlen := Config.padlenReset
    inLen := 0
    outLen := 0
    errInfo := 0
    nsym := 0
    maxlen := 0
    seq := .idle }

/-- R282: the soft reset. DESIGN CHOICE (log entry 22): CTAB keeps its words unless a BUILD is aborted, as R282, R40 and D33 say,
where 10_state.md R34 ("Reset leaves it unspecified") and 93_implementation_defined.md U11 leave it any value. -/
def State.softReset (s : State) : State := s.abort.resetRegs

/-- R281: the hardware reset input. The HOST and the ROMs stay (log entry 16). -/
def State.hardReset (s : State) : State :=
  { s with mem := Memory.drawn s.draws, draws := s.draws + 1 }.resetRegs

end Sys2Proof.Machine
end

