-- ==== Sys2Proof/Machine/Operands.lean ====
section
/-! DEFINITION. Where a command takes its operands from (30_encoding.md R92): the snapshot of acceptance (10_state.md R39,
40_command_sequencer.md R113), and CTAB, TVALID, OUT_LEN, OUTU, OBUF and the ROMs as they stand (R114). -/

namespace Sys2Proof.Machine

/-- The snapshot a completion reads. On a state that is not BUSY, which no completion runs on, it is the live values, which R39
says the snapshot always equals (log entry 12). -/
def State.snap (s : State) : Snapshot :=
  match s.seq with
  | .busy k _ => k
  | .idle => ⟨0, s.padlen, s.inLen, s.mem.freq, s.mem.ibuf⟩

/-- `p = s32(PADLEN)` as snapshotted (R26, R92). -/
def State.pad (s : State) : Int := s32 s.snap.padlen

/-- `n = u32(IN_LEN)` as snapshotted (R27, R92). -/
def State.count (s : State) : Nat := u32 s.snap.inLen

/-- `ITEXT(n)` of the snapshot (20_memory.md R72). -/
def State.text (s : State) : List Byte := s.snap.ibuf.itext s.count

/-- `IBITS(n)` of the snapshot (R70). -/
def State.bits (s : State) : List Bool := s.snap.ibuf.ibits s.count

/-- CTAB's present symbols, as ENCODE and DECODE read them (43_encode_decode.md R181, R184). -/
def State.codes (s : State) : List CodeEntry := s.mem.ctab.entries

/-- INVALID_ARGUMENT records "the register value that failed the check, as stored" (60_exceptions.md R251): IN_LEN. -/
def State.badInLen (s : State) : Failure := ⟨.invalidArgument, s.snap.inLen⟩

/-- The same for PADLEN. -/
def State.badPadlen (s : State) : Failure := ⟨.invalidArgument, s.snap.padlen⟩

end Sys2Proof.Machine
end

