-- ==== Sys2Proof/Machine/BitBuffer.lean ====
section
/-! DEFINITION. PAD, STRIP and XFER (41_bitbuffer.md). -/

namespace Sys2Proof.Machine

/-- The body of PAD (R131). -/
def padBody (s : State) : Except Failure State :=
  if Config.ibufBits < s.count then .error s.badInLen
  else if s.pad < 0 then .error s.badPadlen
  else if Config.obufBits < s.pad.toNat + s.count then .error ⟨.outOverflow, word (s.pad.toNat + s.count)⟩
  else .ok ((s.writeBits (List.replicate s.pad.toNat false ++ s.bits)).setOut (s.pad.toNat + s.count) true)

/-- PAD (R131). -/
def execPad (s : State) : Host.Outcome State Fault Refusal := .next (s.finish (some .pad) (padBody s))

/-- The body of STRIP (R135). -/
def stripBody (s : State) : Except Failure State :=
  if Config.ibufBits < s.count then .error s.badInLen
  else if s.pad < 0 then .error s.badPadlen
  else if (s.count : Int) < s.pad then .error s.badPadlen
  else .ok ((s.writeBits (s.bits.drop s.pad.toNat)).setOut (s.count - s.pad.toNat) true)

/-- STRIP (R135). -/
def execStrip (s : State) : Host.Outcome State Fault Refusal := .next (s.finish (some .strip) (stripBody s))

/-- m of R140: the bytes of the last output. -/
def State.outBytes (s : State) : Nat := if s.status.outu then byteCount (u32 s.outLen) else u32 s.outLen

/-- The body of XFER (R140). -/
def xferBody (s : State) : State :=
  { s with
    mem := { s.mem with ibuf := s.mem.ibuf.write 1 Config.ibufBase (s.mem.obuf.take s.outBytes Config.obufBase) }
    inLen := s.outLen }

/-- XFER (R140). "m <= 4096 always holds": a state where it does not, which no run reaches, stops by name (log entry 13). -/
def execXfer (s : State) : Host.Outcome State Fault Refusal :=
  if s.outBytes ≤ Config.obufBytes then .next (s.finish (some .xfer) (.ok (xferBody s))) else .fault .outLenBeyondObuf

end Sys2Proof.Machine
end

