-- ==== Sys2Proof/Machine/Codec.lean ====
section
/-! DEFINITION. ENCODE and DECODE (43_encode_decode.md R181, R184). -/

namespace Sys2Proof.Machine

/-- The body of ENCODE (R181), checks in its order. -/
def encodeBody (s : State) : Except Failure State :=
  if Config.ibufBytes < s.count then .error s.badInLen
  else if s.status.tvalid = false then .error ⟨.noTable, 0⟩
  else match firstUnknown s.codes 0 s.text with
    | some (k, b) => .error ⟨.unknownSymbol, word (k <<< 8 ||| b.toNat)⟩
    | none =>
      if s.pad < 0 then .error s.badPadlen
      else if Config.obufBits < s.pad.toNat + textLength s.codes s.text then
        .error ⟨.outOverflow, word (s.pad.toNat + textLength s.codes s.text)⟩
      else
        .ok ((s.writeBits (List.replicate s.pad.toNat false ++ textBits s.codes s.text)).setOut
          (s.pad.toNat + textLength s.codes s.text) true)

/-- ENCODE (R181). -/
def execEncode (s : State) : Host.Outcome State Fault Refusal := .next (s.finish (some .encode) (encodeBody s))

/-- The body of DECODE (R184), checks in its order. -/
def decodeBody (s : State) : Except Failure State :=
  if Config.ibufBits < s.count then .error s.badInLen
  else if s.status.tvalid = false then .error ⟨.noTable, 0⟩
  else if s.pad < 0 ∨ (s.count : Int) < s.pad then .error s.badPadlen
  else match parse s.codes (s.bits.drop s.pad.toNat) with
    | .corrupt j => .error ⟨.corruptStream, word (s.pad.toNat + j)⟩
    | .ok out =>
      if Config.obufBytes < out.length then .error ⟨.outOverflow, word out.length⟩
      else .ok ((s.writeBytes out).setOut out.length false)

/-- DECODE (R184). -/
def execDecode (s : State) : Host.Outcome State Fault Refusal := .next (s.finish (some .decode) (decodeBody s))

end Sys2Proof.Machine
end

