-- ==== Sys2Proof/Machine/Construction.lean ====
section
/-! DEFINITION. CLEAR_FREQ and the three BUILD commands (42_code_construction.md R165-R170). -/

namespace Sys2Proof.Machine

/-- FREQ <- 256 words. -/
def State.setFreq (ws : List Word) (s : State) : State :=
  { s with mem := { s.mem with freq := s.mem.freq.setFreq ws } }

/-- R163: CTAB, NSYM, MAXLEN and TVALID of a built table. -/
def State.setTable (codes : List CodeEntry) (maxl : Nat) (s : State) : State :=
  { s with
    mem := { s.mem with ctab := s.mem.ctab.setCtab (ctabWords codes) }
    nsym := BitVec.ofNat 9 codes.length
    maxlen := BitVec.ofNat 6 maxl
    status := { s.status with tvalid := true } }

/-- `BuildTable()` on the given FREQ words, then `complete()`, in state `s` (R151-R163). -/
def buildInto (freq : List Word) (s : State) : Except Failure State :=
  match buildTable freq with
  | .empty => .error ⟨.emptyInput, 0⟩
  | .tooLong m => .error ⟨.codeTooLong, word m⟩
  | .table codes m => .ok (s.setTable codes m)

/-- CLEAR_FREQ (R165). -/
def execClearFreq (s : State) : Host.Outcome State Fault Refusal :=
  .next (s.finish (some .clearFreq) (.ok (s.setFreq (List.replicate Config.symbols 0))))

/-- The body of BUILD_FREQ (R166): FREQ as snapshotted. -/
def buildFreqBody (s : State) : Except Failure State := buildInto s.snap.freq.freqWords s

/-- BUILD_FREQ (R166). -/
def execBuildFreq (s : State) : Host.Outcome State Fault Refusal := .next (s.finish (some .buildFreq) (buildFreqBody s))

/-- The body of BUILD_SAMPLE (R167). -/
def buildSampleBody (s : State) : Except Failure State :=
  if Config.ibufBytes < s.count then .error s.badInLen
  else if s.count = 0 then .error ⟨.emptyInput, 0⟩
  else buildInto (sampleFreq s.text) (s.setFreq (sampleFreq s.text))

/-- BUILD_SAMPLE (R167). -/
def execBuildSample (s : State) : Host.Outcome State Fault Refusal :=
  .next (s.finish (some .buildSample) (buildSampleBody s))

/-- The body of BUILD_DEFAULT (R169). -/
def buildDefaultBody (s : State) : Except Failure State :=
  buildInto s.fit.defaultFreq.entries (s.setFreq s.fit.defaultFreq.entries)

/-- BUILD_DEFAULT (R169). -/
def execBuildDefault (s : State) : Host.Outcome State Fault Refusal :=
  .next (s.finish (some .buildDefault) (buildDefaultBody s))

end Sys2Proof.Machine
end

