-- ==== Sys2Proof/Machine/Lookup.lean ====
section
/-! DEFINITION. ABBR_W2A and ABBR_A2W (44_abbreviation_lookup.md R240-R245). -/

namespace Sys2Proof.Machine

/-- The body R240 and R241 share: the key check, then the search the command makes in the ROM's pairs. Without the ROM the
opcode is illegal and completes with ILLEGAL_CMD and the command word (R242; log entry 14). -/
def lookupBody (i : Instr) (search : List Pair → List Byte → Option (List Byte)) (s : State) : Except Failure State :=
  match s.fit.abbr with
  | none => .error ⟨.illegalCmd, encode i⟩
  | some rom =>
    if s.count = 0 ∨ Config.ibufBytes < s.count then .error s.badInLen
    else match search (romPairs rom.image) s.text with
      | some a => .ok ((s.writeBytes a).setOut a.length false)
      | none => .error ⟨.notFound, 0⟩

/-- Whose writes R117 discards on an error: the lookup's with the ROM, ILLEGAL's without it (R242: "change nothing else"). -/
def lookupAs (i : Instr) (s : State) : Option Instr := if s.fit.hasAbbr then some i else none

/-- ABBR_W2A (R240). -/
def execAbbrW2A (s : State) : Host.Outcome State Fault Refusal :=
  .next (s.finish (lookupAs .abbrW2A s) (lookupBody .abbrW2A wordToAbbr s))

/-- ABBR_A2W (R241). -/
def execAbbrA2W (s : State) : Host.Outcome State Fault Refusal :=
  .next (s.finish (lookupAs .abbrA2W s) (lookupBody .abbrA2W abbrToWord s))

end Sys2Proof.Machine
end

