-- ==== Sys2Proof/Machine/Sequencer.lean ====
section
/-! DEFINITION. NOP and the illegal words (40_command_sequencer.md R120, R121). -/

namespace Sys2Proof.Machine

/-- NOP (R120): `complete()` and nothing else. -/
def execNop (s : State) : Host.Outcome State Fault Refusal := .next (s.finish (some .nop) (.ok s))

/-- ILLEGAL (R121): `raise ILLEGAL_CMD(w)`. -/
def execIllegal (w : Word) (s : State) : Host.Outcome State Fault Refusal :=
  .next (s.finish none (.error ⟨.illegalCmd, w⟩))

end Sys2Proof.Machine
end

