-- ==== Sys2Proof/Machine/Dispatch.lean ====
section
/-! DEFINITION. exec: the completion step of each command (40_command_sequencer.md R113). -/

namespace Sys2Proof.Machine

def exec (i : Instr) (s : State) : Host.Outcome State Fault Refusal :=
  match i with
  | .nop => Sys2Proof.Machine.execNop s
  | .pad => Sys2Proof.Machine.execPad s
  | .strip => Sys2Proof.Machine.execStrip s
  | .xfer => Sys2Proof.Machine.execXfer s
  | .clearFreq => Sys2Proof.Machine.execClearFreq s
  | .buildFreq => Sys2Proof.Machine.execBuildFreq s
  | .buildSample => Sys2Proof.Machine.execBuildSample s
  | .buildDefault => Sys2Proof.Machine.execBuildDefault s
  | .encode => Sys2Proof.Machine.execEncode s
  | .decode => Sys2Proof.Machine.execDecode s
  | .abbrW2A => Sys2Proof.Machine.execAbbrW2A s
  | .abbrA2W => Sys2Proof.Machine.execAbbrA2W s

end Sys2Proof.Machine
end

