-- ==== Sys2Proof/Machine/Flags.lean ====
section
/-! DEFINITION. The block's flags: the words STATUS, CTRL and CAPS read as, the W1C write, and the IRQ level
(10_state.md R22-R24: "These bits are the block's only flags"; 60_exceptions.md R250, R256). -/

namespace Sys2Proof.Machine

/-- The number of an error code (R250). -/
def ErrCode.number : ErrCode → Word
  | .noError => 0x00
  | .illegalCmd => 0x01
  | .invalidArgument => 0x02
  | .emptyInput => 0x03
  | .unknownSymbol => 0x04
  | .corruptStream => 0x05
  | .noTable => 0x06
  | .codeTooLong => 0x07
  | .outOverflow => 0x08
  | .notFound => 0x09

/-- A flag as bit `k` of a word. -/
def flagBit (b : Bool) (k : Nat) : Word := if b then 1#32 <<< k else 0

/-- STATUS as it reads (R24). -/
def State.statusWord (s : State) : Word :=
  flagBit s.busy 0 ||| flagBit s.status.done 1 ||| flagBit s.status.err 2 ||| flagBit s.status.wdrop 3 |||
    flagBit s.status.tvalid 4 ||| flagBit s.status.outu 5 ||| s.status.errCode.number <<< 8

/-- A write to STATUS (R24): "clears each of DONE, ERR and WDROP whose bit is 1 in the written value". -/
def State.clearFlags (v : Word) (s : State) : State :=
  { s with status := { s.status with
      done := s.status.done && !v.getLsbD 1
      err := s.status.err && !v.getLsbD 2
      wdrop := s.status.wdrop && !v.getLsbD 3 } }

/-- A write to CTRL (R23): a soft reset when SRST = 1, else IE. -/
def State.writeCtrl (v : Word) (s : State) : State :=
  if v.getLsbD 1 then s.softReset else { s with ie := v.getLsbD 0 }

/-- CTRL as it reads (R23). -/
def State.ctrlWord (s : State) : Word := flagBit s.ie 0

/-- CAPS as it reads (R22). -/
def Fitting.capsWord (f : Fitting) : Word := if f.hasAbbr then 0x00CC0120 else 0x00CC0020

/-- ABBR_N as it reads (R32). -/
def Fitting.abbrN (f : Fitting) : Word :=
  match f.abbr with
  | some rom => word (romCount rom.image)
  | none => 0

/-- IRQ = CTRL.IE AND STATUS.DONE (R256). -/
def State.irq (s : State) : Bool := s.ie && s.status.done

end Sys2Proof.Machine
end

