-- ==== Sys2Proof/Machine/Bus.lean ====
section
/-! DEFINITION. The bus: HostRead and HostWrite over the register map (10_state.md R20-R36; 20_memory.md R60-R66), IDLE and BUSY
(70_reset_and_hazards.md R290-R293). -/

namespace Sys2Proof.Machine

/-- What an offset selects: a register of R20's map, or a word of a memory by its offset. -/
inductive Loc where
  | id
  | version
  | caps
  | ctrl
  | status
  | cmd
  | padlen
  | inLen
  | outLen
  | errInfo
  | nsym
  | maxlen
  | abbrN
  | freq (a : Nat)
  | ctab (a : Nat)
  | ibuf (a : Nat)
  | obuf (a : Nat)
  | reserved
deriving DecidableEq, Repr

/-- The registers by word offset (R20's map). -/
def locateReg : Nat → Loc
  | 0x0000 => .id
  | 0x0004 => .version
  | 0x0008 => .caps
  | 0x000C => .ctrl
  | 0x0010 => .status
  | 0x0014 => .cmd
  | 0x0018 => .padlen
  | 0x001C => .inLen
  | 0x0020 => .outLen
  | 0x0024 => .errInfo
  | 0x0028 => .nsym
  | 0x002C => .maxlen
  | 0x0030 => .abbrN
  | _ => .reserved

/-- R20's map by the word offset `off AND 0xFFFC` (R62). -/
def locateWord (a : Nat) : Loc :=
  if a < 0x0400 then locateReg a
  else if a < 0x0800 then .freq a
  else if a < 0x1000 then .ctab a
  else if a < 0x2000 then .ibuf a
  else if a < 0x3000 then .obuf a
  else .reserved

/-- The word offset of a transaction (R62: "bits 1:0 of `off` are ignored"). -/
def wordOffset (off : BitVec 16) : Nat := (off &&& 0xFFFC).toNat

/-- R20's map with R62. -/
def locate (off : BitVec 16) : Loc := locateWord (wordOffset off)

/-- R293: the places whose value is unspecified while BUSY. -/
def Loc.unstable : Loc → Bool
  | .outLen => true
  | .errInfo => true
  | .nsym => true
  | .maxlen => true
  | .freq _ => true
  | .ctab _ => true
  | .ibuf _ => true
  | .obuf _ => true
  | _ => false

/-- The value at a place as it stands (R21-R36, R63, R66). -/
def State.look (s : State) : Loc → Word
  | .id => 0x48554646
  | .version => 0x00000001
  | .caps => s.fit.capsWord
  | .ctrl => s.ctrlWord
  | .status => s.statusWord
  | .cmd => 0
  | .padlen => s.padlen
  | .inLen => s.inLen
  | .outLen => s.outLen
  | .errInfo => s.errInfo
  | .nsym => s.nsym.setWidth 32
  | .maxlen => s.maxlen.setWidth 32
  | .abbrN => s.fit.abbrN
  | .freq a => s.mem.freq.freqAt a
  | .ctab a => s.mem.ctab.ctabAt a
  | .ibuf a => s.mem.ibuf.wordAt a
  | .obuf a => s.mem.obuf.wordAt a
  | .reserved => 0

/-- HostRead(off) (R61, R65): the value as it stands, or while BUSY a fresh draw for the places of R293 (log entry 10). The
draw counter is all it changes. -/
def State.hostRead (off : BitVec 16) (s : State) : Word × State :=
  if s.busy && (locate off).unstable then (Config.freeWord s.draws (wordOffset off), { s with draws := s.draws + 1 })
  else (s.look (locate off), s)

/-- A write dropped while BUSY (R292), performed when IDLE. -/
def State.unlessBusy (s t : State) : State := if s.busy then s.dropWrite else t

/-- HostWrite at a place (R23-R27, R33, R35, R63, R65, R66, R292). -/
def State.store (v : Word) (s : State) : Loc → State
  | .ctrl => s.writeCtrl v
  | .status => s.clearFlags v
  | .cmd => s.present v
  | .padlen => s.unlessBusy { s with padlen := v }
  | .inLen => s.unlessBusy { s with inLen := v }
  | .freq a => s.unlessBusy { s with mem := { s.mem with freq := s.mem.freq.write 4 a [freqKeep v] } }
  | .ibuf a => s.unlessBusy { s with mem := { s.mem with ibuf := s.mem.ibuf.write 1 a (lanes v) } }
  | .id => s
  | .version => s
  | .caps => s
  | .outLen => s
  | .errInfo => s
  | .nsym => s
  | .maxlen => s
  | .abbrN => s
  | .ctab _ => s
  | .obuf _ => s
  | .reserved => s

/-- HostWrite(off, v) (R61). -/
def State.hostWrite (off : BitVec 16) (v : Word) (s : State) : State := s.store v (locate off)

end Sys2Proof.Machine
end

