-- ==== Sys2Proof/Machine/HostAgent.lean ====
section
/-! DEFINITION. The HOST agent's turn (00_scope.md R9; 30_encoding.md R97; 40_command_sequencer.md R122). -/

namespace Sys2Proof.Machine

/-- The newest value read under a name; a name nothing has read has a free value (log entry 15). -/
def Master.value (m : Master) (name : Nat) : Word :=
  match m.reads.find? fun r => Nat.beq r.1 name with
  | some r => r.2
  | none => Config.unreadName name

/-- The HOST goes on to the next line. -/
def State.nextLine (s : State) : State := { s with master := { s.master with pc := s.master.pc + 1 } }

/-- The HOST names a value it has read, and goes on. -/
def State.record (name : Nat) (v : Word) (s : State) : State :=
  { s with master := { s.master with pc := s.master.pc + 1, reads := (name, v) :: s.master.reads } }

/-- A taken branch. -/
def State.goTo (target : Nat) (s : State) : State := { s with master := { s.master with pc := target } }

/-- One line of the HOST's list. -/
def State.runLine (s : State) : Line → State
  | .write off v => (s.hostWrite off v).nextLine
  | .read off name => (s.hostRead off).2.record name (s.hostRead off).1
  | .branch name bit val target =>
    if (s.master.value name).getLsbD bit = val then s.goTo target else s.nextLine
  | .readIrq name => s.record name (flagBit s.irq 0)
  | .hardReset => s.hardReset.nextLine

/-- One turn of the HOST: its next line, or nothing when it has come to the end. -/
def State.hostTurn (s : State) : State :=
  match s.master.prog[s.master.pc]? with
  | some l => s.runLine l
  | none => s

end Sys2Proof.Machine
end

