-- ==== Sys2Proof/Machine/Notation.lean ====
section
/-! DEFINITION. The host-program notation of 30_encoding.md R97 and its expansion to the HOST's lines. EXPECT is "a test
assertion, not a bus transaction", so it is no line: an assertion is a theorem about what was read. -/

namespace Sys2Proof.Machine

/-- A line of the notation (R97). Names are numbers. -/
inductive Stmt where
  /-- `WR <offset>, <value>` -/
  | wr (off : BitVec 16) (v : Word)
  /-- `RD <offset> -> <name>` -/
  | rd (off : BitVec 16) (name : Nat)
  /-- `CMD <MNEMONIC>` -/
  | cmd (i : Instr)
  /-- `WAIT`, polling under a name of its own -/
  | wait (name : Nat)
  /-- `RUN <MNEMONIC>` -/
  | run (i : Instr) (name : Nat)
  /-- `SETFREQ <sym>, <count>` -/
  | setFreq (sym : Byte) (count : BitVec 24)
  /-- `WRTEXT "<bytes>"` -/
  | wrText (bytes : List Byte)
  /-- `ACK` -/
  | ack
  /-- `if <name>[<bit>] = <val> goto <line>`, lines numbered from 1 -/
  | ifGoto (name bit : Nat) (val : Bool) (line : Nat)
  /-- `RD IRQ`, the model's: the HOST looks at the IRQ output (log entry 15). -/
  | rdIrq (name : Nat)
deriving DecidableEq, Repr

/-- The offset of CMD, and of STATUS (R20's map). -/
abbrev cmdOffset : BitVec 16 := 0x0014

/-- The offset of STATUS (R20's map). -/
abbrev statusOffset : BitVec 16 := 0x0010

/-- A byte string as (offset, word) writes from a buffer offset on, four bytes a word, missing high bytes 0 (R97, R63). -/
def textWrites : Nat → Nat → List Byte → List Line
  | 0, _, _ => []
  | n + 1, off, bs =>
    .write (BitVec.ofNat 16 off) (ofLanes (bs.getD 0 0) (bs.getD 1 0) (bs.getD 2 0) (bs.getD 3 0)) ::
      textWrites n (off + 4) (bs.drop 4)

/-- WAIT placed at list place `at_` (R97: "L: RD STATUS -> t; if t[1] = 0 goto L"). -/
def waitLines (at_ name : Nat) : List Line := [.read statusOffset name, .branch name 1 false at_]

/-- The number of lines a statement expands to. -/
def Stmt.size : Stmt → Nat
  | .wr _ _ => 1
  | .rd _ _ => 1
  | .cmd _ => 1
  | .wait _ => 2
  | .run _ _ => 3
  | .setFreq _ _ => 1
  | .wrText bs => (bs.length + 3) / 4
  | .ack => 1
  | .ifGoto _ _ _ _ => 1
  | .rdIrq _ => 1

/-- The list place where line `n` (from 1) of a program starts. -/
def placeOf (p : List Stmt) (n : Nat) : Nat := ((p.take (n - 1)).map Stmt.size).sum

/-- One statement's lines, in program `p`, at list place `at_`. -/
def Stmt.expand (p : List Stmt) (at_ : Nat) : Stmt → List Line
  | .wr off v => [.write off v]
  | .rd off name => [.read off name]
  | .cmd i => [.write cmdOffset (encode i)]
  | .wait name => waitLines at_ name
  | .run i name => .write cmdOffset (encode i) :: waitLines (at_ + 1) name
  | .setFreq sym count => [.write (BitVec.ofNat 16 (0x0400 + 4 * sym.toNat)) (0x80000000 ||| count.setWidth 32)]
  | .wrText bs => textWrites ((bs.length + 3) / 4) Config.ibufBase bs
  | .ack => [.write statusOffset 0x0000000E]
  | .ifGoto name bit val line => [.branch name bit val (placeOf p line)]
  | .rdIrq name => [.readIrq name]

/-- The statements from list place `at_` on. -/
def expandFrom (p : List Stmt) : Nat → List Stmt → List Line
  | _, [] => []
  | at_, st :: rest => st.expand p at_ ++ expandFrom p (at_ + st.size) rest

/-- A program as the HOST's lines. -/
def assemble (p : List Stmt) : List Line := expandFrom p 0 p

/-- The HOST with a program, at its first line. -/
def State.withProgram (p : List Stmt) (s : State) : State := { s with master := ⟨assemble p, 0, []⟩ }

end Sys2Proof.Machine
end

