-- ==== Sys2Proof/Machine/Step.lean ====
section
/-! DEFINITION. One step of the machine (00_scope.md R9): the UNIT's completion when its turns are over, else a turn of the
HOST (log entries 1 and 2). -/

namespace Sys2Proof.Machine

/-- The completion step of an accepted word (40_command_sequencer.md R113): the command it decodes to, or ILLEGAL. -/
def completion (w : Word) (s : State) : Host.Outcome State Fault Refusal :=
  match decodeWord s.fit.hasAbbr w with
  | .ok i => exec i s
  | .error _ => execIllegal w s

/-- One step: a completion (R113, enabled exactly when SEQ = BUSY), or a turn of the HOST. -/
def step (s : State) : Host.Outcome State Fault Refusal :=
  match s.seq with
  | .busy k 0 => completion k.cmd s
  | .busy k (t + 1) => .next { s with seq := .busy k t }.hostTurn
  | .idle => .next s.hostTurn

/-- `s` with a command word just accepted (R111) and its completion the very next step. A block that is BUSY drops a CMD write
(R112), so the sequencer is IDLE before it (log entry 8). -/
def State.withFetchWord (s : State) (nbits w : Nat) : State :=
  { s with seq := .idle }.accept 0 (word (w % 2 ^ nbits))

/-- `RUN <i>` (30_encoding.md R97) with nothing between acceptance and completion: what the two steps make of the state. -/
def runCommand (i : Instr) (s : State) : Host.Outcome State Fault Refusal := completion (encode i) (s.accept 0 (encode i))

end Sys2Proof.Machine
end

