-- ==== Sys2Proof/Machine/Assigner.lean ====
section
/-! DEFINITION. The offline generator of the ROM image (44_abbreviation_lookup.md R225-R236). It runs in software before the
hardware exists and is no command of the block (00_scope.md R3(f)); it fixes what a generated ROM holds. -/

namespace Sys2Proof.Machine

/-- Why the generator emits no image. -/
inductive AssignError where
  /-- R226: "If V is empty". -/
  | emptyVocabulary
  /-- R225 with R215: a word that is not 1..63 letters. -/
  | wordRefused (w : List Byte)
  /-- R214: more than ABBR_MAX_ENTRIES words (log entry 17). -/
  | tooManyWords (n : Nat)
  /-- R211: a cutoff the image's u32 field cannot hold (log entry 17). -/
  | cutoffTooLarge (cutoff : Nat)
  /-- R233: `AssignmentExhausted` with the list X of exhausted words, in the order they were processed. -/
  | assignmentExhausted (words : List (List Byte))
deriving DecidableEq, Repr

/-- A word the image can hold (R215, R225). -/
def vocabWordOk (w : List Byte) : Bool :=
  Nat.ble 1 w.length && Nat.ble w.length Config.abbrMaxW && w.all isLetter

/-- The processing order (R227): ascending length, then ascending bytewise order. -/
def processBefore (x y : List Byte) : Bool :=
  Nat.blt x.length y.length || (Nat.beq x.length y.length && strBefore x y)

/-- Insertion into a list that a strict order `lt` sorts. -/
def insertBy {α : Type} (lt : α → α → Bool) (x : α) : List α → List α
  | [] => [x]
  | y :: ys => if lt x y then x :: y :: ys else y :: insertBy lt x ys

/-- A list sorted by a strict order. -/
def sortBy {α : Type} (lt : α → α → Bool) (xs : List α) : List α := xs.foldr (insertBy lt) []

/-- The generator's state: A2W as pairs (R227), the exhausted words X (R233), and how often RandInterior has been called
(R236: "a seeded generator state that advances with each call"). -/
structure Assigner where
  pairs : List Pair
  exhausted : List (List Byte)
  calls : Nat
deriving DecidableEq, Repr

/-- "cand is a key of A2W" (R229). -/
def Assigner.taken (a : Assigner) (cand : List Byte) : Bool := a.pairs.any fun p => decide (p.abbr = cand)

/-- The least interior position whose letter is in Q (R229, R230). -/
def preferredInterior (q cand : List Byte) : Option Nat :=
  ((List.range (cand.length - 2)).map (· + 1)).find? fun i => q.any fun b => decide (b = byteOr0 cand i)

/-- RandInterior(cand) (R236): an interior position, from the random source's value at this call. -/
def randInterior (rand : Nat → List Byte → Nat) (calls : Nat) (cand : List Byte) : Nat :=
  1 + rand calls cand % (cand.length - 2)

/-- The position to delete, and the calls of the random source made so far (R229). -/
def deletion (q : List Byte) (rand : Nat → List Byte → Nat) (calls : Nat) (cand : List Byte) : Nat × Nat :=
  match preferredInterior q cand with
  | some j => (j, calls)
  | none => (randInterior rand calls cand, calls + 1)

/-- The loop of R229: the result, or none for EXHAUSTED, and the calls made. Each pass removes a character, so the word's
length bounds the passes. -/
def shorten (q : List Byte) (rand : Nat → List Byte → Nat) (a : Assigner) : Nat → Nat → List Byte → Option (List Byte) × Nat
  | 0, calls, _ => (none, calls)
  | fuel + 1, calls, cand =>
    if Nat.ble cand.length 2 then (none, calls)
    else
      let d := deletion q rand calls cand
      let cand' := cand.eraseIdx d.1
      if a.taken cand' then shorten q rand a fuel d.2 cand' else (some cand', d.2)

/-- One word: an anchor (R228), or shortened and registered (R232), or exhausted (R233). -/
def assignWord (cutoff : Nat) (q : List Byte) (rand : Nat → List Byte → Nat) (a : Assigner) (w : List Byte) : Assigner :=
  if Nat.ble w.length cutoff then { a with pairs := a.pairs ++ [⟨w, w⟩] }
  else
    match shorten q rand a w.length a.calls w with
    | (some c, calls) => { a with pairs := a.pairs ++ [⟨c, w⟩], calls := calls }
    | (none, calls) => { a with exhausted := a.exhausted ++ [w], calls := calls }

/-- The whole run over a vocabulary without duplicates (R227). -/
def assignAll (cutoff : Nat) (q : List Byte) (rand : Nat → List Byte → Nat) (v : List (List Byte)) : Assigner :=
  (sortBy processBefore v).foldl (assignWord cutoff q rand) ⟨[], [], 0⟩

/-- AIDX (R217): the record numbers in ascending order of abbreviation. -/
def aidxOf (ps : List Pair) : List Nat :=
  (sortBy (fun x y => strBefore x.1.abbr y.1.abbr) ps.zipIdx).map Prod.snd

/-- The image of the registered pairs (R235). -/
def emitImage (cutoff : Nat) (ps : List Pair) : List Byte :=
  let sorted := sortBy (fun x y => strBefore x.wrd y.wrd) ps
  imageOf cutoff sorted (aidxOf sorted)

/-- The generator (R225-R235): an image, or why there is none. The vocabulary is a set, so duplicates count once. DESIGN CHOICE
(log entry 17): where several refusals apply, the first of this order is reported: an empty vocabulary, the first word the image
cannot hold, too many words, a cutoff the field cannot hold, and only then, after the assignment, the exhausted words. -/
def generate (v : List (List Byte)) (cutoff : Nat) (q : List Byte) (rand : Nat → List Byte → Nat) :
    Except AssignError (List Byte) :=
  let words := v.dedup
  if words.isEmpty then .error .emptyVocabulary
  else
    match words.find? (fun w => !vocabWordOk w) with
    | some w => .error (.wordRefused w)
    | none =>
      if Nat.ble words.length Config.abbrMaxEntries then
        if Nat.blt cutoff (2 ^ 32) then
          let a := assignAll cutoff q rand words
          if a.exhausted.isEmpty then .ok (emitImage cutoff a.pairs) else .error (.assignmentExhausted a.exhausted)
        else .error (.cutoffTooLarge cutoff)
      else .error (.tooManyWords words.length)

/-- The generator with the platform's random source (R236). -/
def generateImage (v : List (List Byte)) (cutoff : Nat) (q : List Byte) : Except AssignError (List Byte) :=
  generate v cutoff q Config.randInterior

/-! ## The text listing (R235; 00_scope.md R4(c)) -/

/-- A space, between the two strings of a line. -/
abbrev space : Byte := 0x20

/-- A newline, at the end of every line. -/
abbrev newline : Byte := 0x0A

/-- One line "`<abbrev> <word>`", newline-terminated (R235, R213; 91_not_in_source.md). -/
def listingLine (p : Pair) : List Byte := p.abbr ++ space :: (p.wrd ++ [newline])

/-- The text listing of pairs (R235). -/
def listing (ps : List Pair) : List Byte := ps.flatMap listingLine

/-- The lines of a text without their newlines, `cur` the line read so far; none when the last line has no newline. -/
def linesFrom (cur : List Byte) : List Byte → Option (List (List Byte))
  | [] => if cur.isEmpty then some [] else none
  | b :: bs => if b = newline then (linesFrom [] bs).map (cur :: ·) else linesFrom (cur ++ [b]) bs

/-- A line as its pair: the abbreviation before the first space, the word after it; none when there is no space. -/
def linePair (line : List Byte) : Option Pair :=
  match line.dropWhile (fun b => !decide (b = space)) with
  | [] => none
  | _ :: w => some ⟨line.takeWhile fun b => !decide (b = space), w⟩

/-- The pairs of a text listing, or none when a line is not of its form. -/
def readListing (txt : List Byte) : Option (List Pair) := (linesFrom [] txt).bind fun ls => ls.mapM linePair

/-- Why a listing gives no image. -/
inductive ListingError where
  /-- A line is not "`<abbrev> <word>`" with a newline (log entry 23). -/
  | malformed
  /-- The pairs break R214-R217: no pairs, too many, a string that is not 1..63 letters, or one that stands twice (R219, U19). -/
  | refused
deriving DecidableEq, Repr

/-- The image of a listing with a given cutoff (R235: header, records in WORD order, AIDX in ABBR order). -/
def imageOfListing (cutoff : Word) (txt : List Byte) : Except ListingError (List Byte) :=
  match readListing txt with
  | none => .error .malformed
  | some ps =>
    if romOk (emitImage (u32 cutoff) ps) then .ok (emitImage (u32 cutoff) ps) else .error .refused

/-- "A ROM image can be made from that listing alone" (R235), and "loading it needs no recomputation": no assignment is run. The
header's CUTOFF, which no lookup reads (R212), is a free value (log entry 23). -/
def loadListing (txt : List Byte) : Except ListingError (List Byte) := imageOfListing (Config.listingCutoff txt) txt

/-- The listing of a ROM image, "the same information" (R235). DESIGN CHOICE (log entry 23): its lines stand in record order, that
is ascending WORD, where R235 gives the lines no order. -/
def romListing (img : List Byte) : List Byte := listing (romPairs img)

end Sys2Proof.Machine
end

