-- ==== Sys2Proof/Safety.lean ====
section
/-! DEFINITION. What claims are stated in: how a command ends, what it leaves unchanged, and the invariant that every step keeps,
under which no run stops. -/

namespace Sys2Proof.Machine

/-! ## How a command ends -/

/-- A successful completion (40_command_sequencer.md R115, R116). -/
def Succeeded (s t : State) : Prop :=
  t.seq = .idle ∧ t.status.done = true ∧ t.status.err = s.status.err ∧ t.status.errCode = s.status.errCode ∧
    t.errInfo = s.errInfo

/-- A completion with an error (R115, R117). -/
def Failed (t : State) (code : ErrCode) (info : Word) : Prop :=
  t.seq = .idle ∧ t.status.done = true ∧ t.status.err = true ∧ t.status.errCode = code ∧ t.errInfo = info

/-! ## Frames -/

/-- What no command writes: CTRL.IE, PADLEN, STATUS.WDROP, the HOST and the ROMs. -/
def Unwritten (s t : State) : Prop :=
  t.ie = s.ie ∧ t.padlen = s.padlen ∧ t.status.wdrop = s.status.wdrop ∧ t.master = s.master ∧ t.fit = s.fit

/-- TVALID, NSYM and MAXLEN as before. -/
def SameSummary (s t : State) : Prop :=
  t.status.tvalid = s.status.tvalid ∧ t.nsym = s.nsym ∧ t.maxlen = s.maxlen

/-- OUT_LEN and OUTU as before. -/
def SameOutput (s t : State) : Prop := t.outLen = s.outLen ∧ t.status.outu = s.status.outu

/-- Every byte of memory outside `lo .. hi - 1` as before. -/
def KeptOutside (lo hi : Nat) (s t : State) : Prop :=
  ∀ a, a < lo ∨ hi ≤ a → t.mem.byteAt a = s.mem.byteAt a

/-- Every byte of memory as before. -/
def KeptAll (s t : State) : Prop := ∀ a, t.mem.byteAt a = s.mem.byteAt a

/-- From `s` to `t` a memory has become a draw (00_scope.md R13) in the model's form, log entry 3: it lists no definite value, and its
generation is one that `s` had not yet used. -/
def FreshDraw {α : Type} (s t : State) (st : Store α) : Prop := st.cells = [] ∧ s.draws ≤ st.gen ∧ st.gen < t.draws

/-- The command succeeds with an output: `bytes` at OBUF[0..], OUT_LEN = `len` in the unit `u` (true: bits), nothing else. -/
def Outputs (i : Instr) (s : State) (u : Bool) (len : Nat) (bytes : List Byte) : Prop :=
  ∃ t, exec i s = .next t ∧ Succeeded s t ∧ t.outLen = word len ∧ t.status.outu = u ∧
    Bytes.take bytes.length 0x2000 t.mem.obuf = bytes ∧
    Unwritten s t ∧ SameSummary s t ∧ t.inLen = s.inLen ∧ KeptOutside 0x2000 (0x2000 + bytes.length) s t

/-- A command with output fails: OUT_LEN = 0 in its unit, and nothing else outside OBUF changes but the error registers (R117). That
OBUF becomes a draw is said of every error at once, in CommandsWriteOnlyTheirTargets. -/
def Raises (i : Instr) (s : State) (u : Bool) (code : ErrCode) (info : Word) : Prop :=
  ∃ t, exec i s = .next t ∧ Failed t code info ∧ t.outLen = 0 ∧ t.status.outu = u ∧
    Unwritten s t ∧ SameSummary s t ∧ t.inLen = s.inLen ∧ KeptOutside 0x2000 0x3000 s t

/-- A BUILD succeeds: FREQ holds `freq`, CTAB the table of `codes` with its summary (42_code_construction.md R163), and
nothing else changes. -/
def BuildsTable (i : Instr) (s : State) (freq : List Word) (codes : List CodeEntry) (maxl : Nat) : Prop :=
  ∃ t, exec i s = .next t ∧ Succeeded s t ∧ t.status.tvalid = true ∧ t.nsym = BitVec.ofNat 9 codes.length ∧
    t.maxlen = BitVec.ofNat 6 maxl ∧ t.mem.ctab.ctabAll = ctabWords codes ∧ t.mem.freq.freqWords = freq ∧
    Unwritten s t ∧ SameOutput s t ∧ t.inLen = s.inLen ∧ KeptOutside 0x0400 0x1000 s t

/-- A BUILD fails: nothing outside CTAB changes but the error registers, FREQ included (R117). That CTAB becomes a draw is said of
every error at once, in CommandsWriteOnlyTheirTargets. -/
def BuildRaises (i : Instr) (s : State) (code : ErrCode) (info : Word) : Prop :=
  ∃ t, exec i s = .next t ∧ Failed t code info ∧ Unwritten s t ∧ SameSummary s t ∧ SameOutput s t ∧ t.inLen = s.inLen ∧
    KeptOutside 0x0800 0x1000 s t

/-- A byte has a code in CTAB (43_encode_decode.md: "present" means CTAB_LEN[s].VALID = 1). -/
def State.hasCode (s : State) (b : Byte) : Prop := (findSym s.codes b.toNat).isSome = true

/-! ## The merge of R154, as a relation -/

/-- The present symbols, ascending (42_code_construction.md R151). -/
def presentSymbols (freq : List Word) : List Nat := (List.range 256).filter fun n => (freq.getD n 0).getLsbD 31

/-- COUNT, bits 23:0 of a symbol's FREQ entry (10_state.md R33). -/
def countOf (freq : List Word) (n : Nat) : Nat := (freq.getD n 0).toNat % 2 ^ 24

/-- The pool R154 starts from: leaf k is the k-th present symbol, with its COUNT, sequence number k and depth 0. -/
def mergePool (freq : List Word) : List Node :=
  (presentSymbols freq).zipIdx.map fun p => ⟨countOf freq p.1, p.2, [(p.1, 0)]⟩

/-- A node has the least (weight, seq) against every node of a list, "compared weight first, then seq" (R154). -/
def LeastAgainst (x : Node) (pool : List Node) : Prop :=
  ∀ z ∈ pool, x.weight < z.weight ∨ (x.weight = z.weight ∧ x.seq < z.seq)

/-- R154's loop on a pool of nodes in any order, `next` the next sequence number, ends with the one node `root`. Its leaves carry
their depths. -/
inductive Merges : Nat → List Node → Node → Prop where
  /-- One node is left. -/
  | done (next : Nat) (root : Node) : Merges next [root] root
  /-- The least node x and the least node y of the others become one, every leaf of theirs one deeper. -/
  | merge (next : Nat) (pool : List Node) (x y : Node) (rest : List Node) (root : Node) :
    pool.Perm (x :: y :: rest) → LeastAgainst x (y :: rest) → LeastAgainst y rest →
    Merges (next + 1)
      (⟨x.weight + y.weight, next, (x.leaves ++ y.leaves).map fun p => (p.1, p.2 + 1)⟩ :: rest) root →
    Merges next pool root

/-! ## The invariant -/

/-- The snapshot equals the live values (10_state.md R39). -/
def SnapshotLive (s : State) : Prop :=
  match s.seq with
  | .idle => True
  | .busy k _ => k.padlen = s.padlen ∧ k.inLen = s.inLen ∧ k.freq = s.mem.freq ∧ k.ibuf = s.mem.ibuf

/-- While BUSY there is no completion to report, and a running BUILD has no table (R111). -/
def PendingClear (s : State) : Prop :=
  match s.seq with
  | .idle => True
  | .busy k _ =>
    s.status.done = false ∧ s.status.err = false ∧ s.status.errCode = .noError ∧ s.errInfo = 0 ∧
      (isBuild (s.command k.cmd) = true → s.status.tvalid = false)

/-- CTAB is the table of a successful build, with its NSYM and MAXLEN. -/
def HoldsBuiltTable (s : State) : Prop :=
  ∃ freq codes maxl, freq.length = 256 ∧ buildTable freq = .table codes maxl ∧
    s.mem.ctab.ctabAll = ctabWords codes ∧ s.nsym = BitVec.ofNat 9 codes.length ∧ s.maxlen = BitVec.ofNat 6 maxl

/-- TVALID tells whether there is a table (10_state.md R30, R31, R34; 42_code_construction.md R150). -/
def TableSound (s : State) : Prop :=
  (s.status.tvalid = true → HoldsBuiltTable s) ∧ (s.status.tvalid = false → s.nsym = 0 ∧ s.maxlen = 0)

/-- ERR has a code, and no code has no information (R24, R29). -/
def ErrorSound (s : State) : Prop :=
  (s.status.err = true → s.status.errCode ≠ .noError) ∧ (s.status.errCode = .noError → s.errInfo = 0)

/-- The next draw is new: no memory reads from it yet (the model's own, log entry 3). -/
def DrawsFresh (s : State) : Prop :=
  s.mem.freq.gen < s.draws ∧ s.mem.ctab.gen < s.draws ∧ s.mem.ibuf.gen < s.draws ∧ s.mem.obuf.gen < s.draws

/-- The invariant of the machine. -/
structure Inv (s : State) : Prop where
  /-- The memories keep their canonical form. -/
  memory : s.mem.wf = true
  /-- "m <= 4096 always holds" (41_bitbuffer.md R140). -/
  output : s.outBytes ≤ 4096
  snapshot : SnapshotLive s
  pending : PendingClear s
  table : TableSound s
  errors : ErrorSound s
  draws : DrawsFresh s

/-- A run of `n` steps ends in a state, without a fault or a refusal. -/
def RunsTo (n : Nat) (s t : State) : Prop := Host.Core.run Sys2Proof.core n s = .next t

/-- Three commands run one after the other (`RUN` of 30_encoding.md R97), each completing in a next state. -/
def RunsThree (i j k : Instr) (s s1 s2 s3 : State) : Prop :=
  runCommand i s = .next s1 ∧ runCommand j s1 = .next s2 ∧ runCommand k s2 = .next s3

end Sys2Proof.Machine
end

