-- ==== Sys2Proof/Certificates/Slice0/Obligations.lean ====
section
/-! DEFINITION. The statements for the provers, from the numbered rules of spec/. `s.count`, `s.pad`, `s.text` and `s.bits` are
IN_LEN, PADLEN, ITEXT(IN_LEN) and IBITS(IN_LEN) of the snapshot (Machine/Operands.lean); the ways a command ends and the frames
are defined in Safety.lean. -/

open Sys2Proof Sys2Proof.Machine

/-- 30_encoding.md R93, R95: no bit of a command word is dropped, in either direction. -/
def Obligations.DecodeInvertsEncode : Prop :=
  ∀ (h : Bool) (w : Word) (i : Instr), decodeWord h w = .ok i ↔ (WellFormed h i = true ∧ w = encode i)

/-- R95: "Every 32-bit word decodes to exactly one of the twelve commands or to ILLEGAL". -/
def Obligations.DecodeFollowsOpcodeMap : Prop :=
  ∀ (h : Bool) (w : Word),
    (decodeWord h w = .ok .nop ↔ w = 0x00000000) ∧ (decodeWord h w = .ok .pad ↔ w = 0x00000010) ∧
    (decodeWord h w = .ok .strip ↔ w = 0x00000011) ∧ (decodeWord h w = .ok .xfer ↔ w = 0x00000012) ∧
    (decodeWord h w = .ok .clearFreq ↔ w = 0x00000020) ∧ (decodeWord h w = .ok .buildFreq ↔ w = 0x00000021) ∧
    (decodeWord h w = .ok .buildSample ↔ w = 0x00000022) ∧ (decodeWord h w = .ok .buildDefault ↔ w = 0x00000023) ∧
    (decodeWord h w = .ok .encode ↔ w = 0x00000030) ∧ (decodeWord h w = .ok .decode ↔ w = 0x00000031) ∧
    (decodeWord h w = .ok .abbrW2A ↔ w = 0x00000040 ∧ h = true) ∧
    (decodeWord h w = .ok .abbrA2W ↔ w = 0x00000041 ∧ h = true) ∧
    ((∃ e, decodeWord h w = .error e) ↔ ∀ i, decodeWord h w ≠ .ok i)

/-- R94 (a), (b), (c), the decoding side; what an illegal word does is StepCompletesIllegalWord. -/
def Obligations.IllegalWordsByReason : Prop :=
  ∀ (h : Bool) (w : Word),
    (decodeWord h w = .error .reservedBits ↔ 256 ≤ w.toNat) ∧
    (decodeWord h w = .error .unassignedOpcode ↔ w.toNat < 256 ∧
      w.toNat ∉ [0x00, 0x10, 0x11, 0x12, 0x20, 0x21, 0x22, 0x23, 0x30, 0x31, 0x40, 0x41]) ∧
    (decodeWord h w = .error .unitAbsent ↔ h = false ∧ (w = 0x00000040 ∨ w = 0x00000041))

/-- R93, a sanity statement about a few words. -/
def Obligations.TableWordsDecode : Prop :=
  decodeTableWord 32 0x00000010 = some .pad ∧ decodeTableWord 32 0x00000022 = some .buildSample ∧
    decodeTableWord 32 0x00000031 = some .decode ∧ decodeTableWord 32 0x00000041 = some .abbrA2W ∧
    decodeTableWord 32 0x00000130 = none

/-- R113: completion "runs the body of the accepted command c". -/
def Obligations.StepCompletesAcceptedCommand : Prop :=
  ∀ (s : State) (k : Snapshot) (i : Instr), s.seq = .busy k 0 → decodeWord s.fit.hasAbbr k.cmd = .ok i →
    step s = exec i s

/-- R121: the body of ILLEGAL is `raise ILLEGAL_CMD(w)`. -/
def Obligations.StepCompletesIllegalWord : Prop :=
  ∀ (s : State) (k : Snapshot) (e : Illegal), s.seq = .busy k 0 → decodeWord s.fit.hasAbbr k.cmd = .error e →
    ∃ t, step s = .next t ∧ Failed t .illegalCmd k.cmd ∧ SameOutput s t ∧ SameSummary s t ∧ Unwritten s t ∧
      t.inLen = s.inLen ∧ t.mem = s.mem

/-- R9, R10, R97, R113, R280. The model's own are the count of turns in which LATENCY is held (log entry 2), the line that looks at IRQ
and the free value of a name that nothing has read (log entry 15), and the reset line, which leaves the HOST (log entry 16). -/
def Obligations.StepGivesHostItsTurn : Prop :=
  ∀ s : State, (s.seq = .idle → step s = .next s.hostTurn) ∧
    (∀ k n, s.seq = .busy k (n + 1) → step s = .next { s with seq := .busy k n }.hostTurn) ∧
    (∀ off v, s.master.prog[s.master.pc]? = some (.write off v) →
      s.hostTurn = { s.hostWrite off v with master := { s.master with pc := s.master.pc + 1 } }) ∧
    (∀ off name, s.master.prog[s.master.pc]? = some (.read off name) →
      s.hostTurn = { (s.hostRead off).2 with
        master := ⟨s.master.prog, s.master.pc + 1, (name, (s.hostRead off).1) :: s.master.reads⟩ }) ∧
    (∀ name bit val target (v : Word), s.master.prog[s.master.pc]? = some (.branch name bit val target) →
      v = ((s.master.reads.find? fun r => decide (r.1 = name)).map Prod.snd).getD (Config.unreadName name) →
      s.hostTurn = { s with
        master := { s.master with pc := if v.getLsbD bit = val then target else s.master.pc + 1 } }) ∧
    (∀ name, s.master.prog[s.master.pc]? = some (.readIrq name) →
      s.hostTurn = { s with
        master := ⟨s.master.prog, s.master.pc + 1, (name, if s.irq then 1 else 0) :: s.master.reads⟩ }) ∧
    (s.master.prog[s.master.pc]? = some .hardReset →
      s.hostTurn = { s.hardReset with master := { s.master with pc := s.master.pc + 1 } }) ∧
    (s.master.prog[s.master.pc]? = none → s.hostTurn = s)

/-- The model's fetch, log entry 8. -/
def Obligations.FetchedWordRunsNext : Prop :=
  ∀ (s : State) (i : Instr), WellFormed s.fit.hasAbbr i = true →
    step (s.withFetchWord 32 (encode i).toNat) = exec i (s.withFetchWord 32 (encode i).toNat)

/-- R111, in the one bus transaction. -/
def Obligations.AcceptanceTakesSnapshot : Prop :=
  ∀ (s : State) (w : Word), s.seq = .idle →
    ∃ t turns, s.hostWrite 0x0014 w = t ∧
      t.status.done = false ∧ t.status.err = false ∧ t.status.errCode = .noError ∧ t.errInfo = 0 ∧
      ((w = 0x00000021 ∨ w = 0x00000022 ∨ w = 0x00000023) → t.status.tvalid = false ∧ t.nsym = 0 ∧ t.maxlen = 0) ∧
      (¬(w = 0x00000021 ∨ w = 0x00000022 ∨ w = 0x00000023) → SameSummary s t) ∧
      t.seq = .busy ⟨w, s.padlen, s.inLen, s.mem.freq, s.mem.ibuf⟩ turns ∧ t.busy = true ∧
      Unwritten s t ∧ SameOutput s t ∧ t.inLen = s.inLen ∧ t.mem = s.mem ∧ t.irq = false

/-- R112 and R292. -/
def Obligations.BusyWritesAreDropped : Prop :=
  ∀ (s : State) (off : BitVec 16) (v : Word), s.busy = true →
    (wordOffset off = 0x0014 ∨ wordOffset off = 0x0018 ∨ wordOffset off = 0x001C ∨
      (0x0400 ≤ wordOffset off ∧ wordOffset off < 0x0800) ∨ (0x1000 ≤ wordOffset off ∧ wordOffset off < 0x2000)) →
    s.hostWrite off v = { s with status := { s.status with wdrop := true } }

/-- R150: "On failure it leaves no table". -/
def Obligations.FailedBuildHasNoTable : Prop :=
  ∀ (s t : State) (i : Instr), isBuild (some i) = true → runCommand i s = .next t → t.status.err = true →
    t.status.tvalid = false ∧ t.nsym = 0 ∧ t.maxlen = 0

/-- R20's map with R65, R66, R291 and R293, every offset written out. That a read while BUSY takes the draw of the counter, which no
rule names, is the model's form of R293's draw (log entries 3 and 10); STATUS and ABBR_N are spelt out in StatusReadsAndClears and
LookupsWithoutRomAreIllegal, IBUF and OBUF in BufferLanesAreLittleEndian. -/
def Obligations.ReadsFollowTheRegisterMap : Prop :=
  ∀ (s : State) (off : BitVec 16) (w : Nat), w = wordOffset off →
    (s.seq = .idle → (s.hostRead off).2 = s) ∧
    (w = 0x0000 → s.hostRead off = (0x48554646, s)) ∧ (w = 0x0004 → s.hostRead off = (0x00000001, s)) ∧
    (w = 0x0008 → s.hostRead off = (if s.fit.abbr = none then 0x00CC0020 else 0x00CC0120, s)) ∧
    (w = 0x000C → s.hostRead off = (if s.ie then 1 else 0, s)) ∧ (w = 0x0010 → s.hostRead off = (s.look .status, s)) ∧
    (w = 0x0014 → s.hostRead off = (0, s)) ∧ (w = 0x0018 → s.hostRead off = (s.padlen, s)) ∧
    (w = 0x001C → s.hostRead off = (s.inLen, s)) ∧ (w = 0x0030 → s.hostRead off = (s.look .abbrN, s)) ∧
    ((0x0034 ≤ w ∧ w < 0x0400) ∨ 0x3000 ≤ w → s.hostRead off = (0, s)) ∧
    (s.seq = .idle →
      (w = 0x0020 → s.hostRead off = (s.outLen, s)) ∧ (w = 0x0024 → s.hostRead off = (s.errInfo, s)) ∧
      (w = 0x0028 → s.hostRead off = (word s.nsym.toNat, s)) ∧ (w = 0x002C → s.hostRead off = (word s.maxlen.toNat, s)) ∧
      (∀ n, n < 256 →
        (w = 0x0400 + 4 * n → s.mem.freq.freqWords[n]? = some (s.hostRead off).1) ∧
        (w = 0x0800 + 8 * n → s.mem.ctab.ctabAll[2 * n]? = some (s.hostRead off).1 ∧
          (s.hostRead off).1 = s.mem.ctab.ctabAt (0x0800 + 8 * n)) ∧
        (w = 0x0804 + 8 * n → s.mem.ctab.ctabAll[2 * n + 1]? = some (s.hostRead off).1 ∧
          (s.hostRead off).1 = s.mem.ctab.ctabAt (0x0804 + 8 * n)))) ∧
    (s.busy = true → (w = 0x0020 ∨ w = 0x0024 ∨ w = 0x0028 ∨ w = 0x002C ∨ (0x0400 ≤ w ∧ w < 0x3000)) →
      s.hostRead off = (Config.freeWord s.draws w, { s with draws := s.draws + 1 }))

/-- R62. -/
def Obligations.LowOffsetBitsAreIgnored : Prop :=
  ∀ (s : State) (off : BitVec 16) (v : Word),
    s.hostRead off = s.hostRead (off &&& 0xFFFC) ∧ s.hostWrite off v = s.hostWrite (off &&& 0xFFFC) v

/-- R66 and R33. That bits 30:24 of a FREQ entry are 0 also where the entry is a draw is the model's reading of R33 (log entry 11).
The values are those as they stand (`look`): a HostRead of NSYM, MAXLEN or FREQ while BUSY is any word (log entry 10). -/
def Obligations.ReservedAndReadOnlySpace : Prop :=
  ∀ (s : State) (off : BitVec 16) (v : Word),
    (((0x0034 ≤ wordOffset off ∧ wordOffset off < 0x0400) ∨ 0x3000 ≤ wordOffset off) →
      (s.hostRead off).1 = 0 ∧ s.hostWrite off v = s) ∧
    ((wordOffset off = 0x0000 ∨ wordOffset off = 0x0004 ∨ wordOffset off = 0x0008 ∨
      (0x0020 ≤ wordOffset off ∧ wordOffset off ≤ 0x0030) ∨
      (0x0800 ≤ wordOffset off ∧ wordOffset off < 0x1000) ∨ (0x2000 ≤ wordOffset off ∧ wordOffset off < 0x3000)) →
      s.hostWrite off v = s) ∧
    s.look .ctrl &&& 0xFFFFFFFE = 0 ∧ s.look .status &&& 0xFFFF00C0 = 0 ∧ s.look .nsym &&& 0xFFFFFE00 = 0 ∧
    s.look .maxlen &&& 0xFFFFFFC0 = 0 ∧ (∀ a, s.look (.freq a) &&& 0x7F000000 = 0) ∧
    s.hostWrite 0x000C v = s.hostWrite 0x000C (v &&& 0x00000003) ∧
    s.hostWrite 0x0010 v = s.hostWrite 0x0010 (v &&& 0x0000000E) ∧
    (0x0400 ≤ wordOffset off ∧ wordOffset off < 0x0800 → s.hostWrite off v = s.hostWrite off (v &&& 0x80FFFFFF))

/-- R63, with the frame of the write (R65): nothing but IBUF changes, no register among them. -/
def Obligations.BufferLanesAreLittleEndian : Prop :=
  ∀ (s : State) (k : Nat) (v : Word), s.seq = .idle → k < 1024 →
    (s.hostRead (BitVec.ofNat 16 (0x1000 + 4 * k))).1 =
      (s.mem.ibuf.at (0x1000 + 4 * k)).setWidth 32 ||| (s.mem.ibuf.at (0x1000 + 4 * k + 1)).setWidth 32 <<< 8 |||
      (s.mem.ibuf.at (0x1000 + 4 * k + 2)).setWidth 32 <<< 16 ||| (s.mem.ibuf.at (0x1000 + 4 * k + 3)).setWidth 32 <<< 24 ∧
    (s.hostRead (BitVec.ofNat 16 (0x2000 + 4 * k))).1 =
      (s.mem.obuf.at (0x2000 + 4 * k)).setWidth 32 ||| (s.mem.obuf.at (0x2000 + 4 * k + 1)).setWidth 32 <<< 8 |||
      (s.mem.obuf.at (0x2000 + 4 * k + 2)).setWidth 32 <<< 16 ||| (s.mem.obuf.at (0x2000 + 4 * k + 3)).setWidth 32 <<< 24 ∧
    (∀ j, j < 4 → (s.hostWrite (BitVec.ofNat 16 (0x1000 + 4 * k)) v).mem.ibuf.at (0x1000 + 4 * k + j) =
      v.extractLsb' (8 * j) 8) ∧
    KeptOutside (0x1000 + 4 * k) (0x1000 + 4 * k + 4) s (s.hostWrite (BitVec.ofNat 16 (0x1000 + 4 * k)) v) ∧
    ∃ ibuf, s.hostWrite (BitVec.ofNat 16 (0x1000 + 4 * k)) v = { s with mem := { s.mem with ibuf := ibuf } }

/-- R26, R27, R33, with the frame of a write (R65). -/
def Obligations.OperandRegistersStoreAllBits : Prop :=
  ∀ (s : State) (v : Word) (n : Nat), s.seq = .idle → n < 256 →
    s.hostWrite 0x0018 v = { s with padlen := v } ∧ s.hostWrite 0x001C v = { s with inLen := v } ∧
    ((s.hostWrite 0x0018 v).hostRead 0x0018).1 = v ∧ ((s.hostWrite 0x001C v).hostRead 0x001C).1 = v ∧
    ((s.hostWrite (BitVec.ofNat 16 (0x0400 + 4 * n)) v).hostRead (BitVec.ofNat 16 (0x0400 + 4 * n))).1 =
      v &&& 0x80FFFFFF ∧
    KeptOutside (0x0400 + 4 * n) (0x0400 + 4 * n + 4) s (s.hostWrite (BitVec.ofNat 16 (0x0400 + 4 * n)) v) ∧
    ∃ freq, s.hostWrite (BitVec.ofNat 16 (0x0400 + 4 * n)) v = { s with mem := { s.mem with freq := freq } }

/-- R24, and the ten codes of R250: a write to STATUS "ignores every other bit". That ERRCODE survives the write is the model's choice of R24 over the example
lines P3 line 7 and P4 line 14 of 95_test_vectors.md (log entry 20). -/
def Obligations.StatusReadsAndClears : Prop :=
  ∀ (s : State) (v : Word),
    s.look .status = BitVec.ofNat 32 (s.busy.toNat + 2 * s.status.done.toNat + 4 * s.status.err.toNat +
      8 * s.status.wdrop.toNat + 16 * s.status.tvalid.toNat + 32 * s.status.outu.toNat +
      256 * s.status.errCode.number.toNat) ∧
    [ErrCode.noError, .illegalCmd, .invalidArgument, .emptyInput, .unknownSymbol, .corruptStream, .noTable, .codeTooLong,
        .outOverflow, .notFound].map ErrCode.number =
      [0x00, 0x01, 0x02, 0x03, 0x04, 0x05, 0x06, 0x07, 0x08, 0x09] ∧
    s.hostWrite 0x0010 v = { s with status := { s.status with
      done := s.status.done && !v.getLsbD 1, err := s.status.err && !v.getLsbD 2,
      wdrop := s.status.wdrop && !v.getLsbD 3 } }

/-- R23. -/
def Obligations.CtrlWriteRule : Prop :=
  ∀ (s : State) (v : Word),
    (v.getLsbD 1 = true → s.hostWrite 0x000C v = s.softReset ∧ (s.hostWrite 0x000C v).ie = false) ∧
    (v.getLsbD 1 = false → s.hostWrite 0x000C v = { s with ie := v.getLsbD 0 }) ∧
    s.look .ctrl = if s.ie then 1 else 0

/-- R256, R258. -/
def Obligations.IrqIsEnabledDone : Prop :=
  ∀ s : State, s.irq = (s.ie && s.status.done) ∧ (∀ w n, (s.accept n w).irq = false) ∧
    (∀ i t, exec i s = .next t → t.irq = s.ie) ∧
    (∀ k t, s.seq = .busy k 0 → step s = .next t → t.irq = s.ie) ∧ s.softReset.irq = false ∧ s.hardReset.irq = false ∧
    (∀ v : Word, v.getLsbD 1 = true → (s.hostWrite 0x0010 v).irq = false)

/-- R282, with R283's table. That CTAB keeps its words is the model's choice of R282, R40 and D33 over R34 and U11 (log entry 22), and
a draw is said in the model's form, an unused generation with no cell (FreshDraw, log entry 3). -/
def Obligations.SoftResetRule : Prop :=
  ∀ (s : State) (v : Word), v.getLsbD 1 = true →
    ∃ t, s.hostWrite 0x000C v = t ∧ t.ie = false ∧ t.look .status = 0 ∧ t.padlen = 5 ∧ t.inLen = 0 ∧ t.outLen = 0 ∧
      t.errInfo = 0 ∧ t.nsym = 0 ∧ t.maxlen = 0 ∧ t.seq = .idle ∧ t.irq = false ∧ t.master = s.master ∧ t.fit = s.fit ∧
      (s.seq = .idle → t.mem = s.mem) ∧
      (∀ k n, s.seq = .busy k n →
        (s.command k.cmd ∉ [some .pad, some .strip, some .encode, some .decode, some .abbrW2A, some .abbrA2W] →
          t.mem.obuf = s.mem.obuf) ∧
        (s.command k.cmd ≠ some .xfer → t.mem.ibuf = s.mem.ibuf) ∧
        (s.command k.cmd ∉ [some .clearFreq, some .buildSample, some .buildDefault] → t.mem.freq = s.mem.freq) ∧
        (s.command k.cmd ∉ [some .buildFreq, some .buildSample, some .buildDefault] → t.mem.ctab = s.mem.ctab) ∧
        (s.command k.cmd ∈ [some .pad, some .strip, some .encode, some .decode, some .abbrW2A, some .abbrA2W] →
          FreshDraw s t t.mem.obuf) ∧
        (s.command k.cmd = some .xfer → FreshDraw s t t.mem.ibuf) ∧
        (s.command k.cmd ∈ [some .clearFreq, some .buildSample, some .buildDefault] → FreshDraw s t t.mem.freq) ∧
        (s.command k.cmd ∈ [some .buildFreq, some .buildSample, some .buildDefault] → FreshDraw s t t.mem.ctab))

/-- R281. A draw is said in the model's form, an unused generation with no cell (FreshDraw, log entry 3). -/
def Obligations.HardResetRule : Prop :=
  ∀ s : State, s.hardReset.ie = false ∧ s.hardReset.look .status = 0 ∧ s.hardReset.padlen = 5 ∧ s.hardReset.inLen = 0 ∧
    s.hardReset.outLen = 0 ∧ s.hardReset.errInfo = 0 ∧ s.hardReset.nsym = 0 ∧ s.hardReset.maxlen = 0 ∧
    s.hardReset.seq = .idle ∧ s.hardReset.irq = false ∧ s.hardReset.fit = s.fit ∧
    (∀ l, l = .id ∨ l = .version ∨ l = .caps ∨ l = .abbrN → s.hardReset.look l = s.look l) ∧
    FreshDraw s s.hardReset s.hardReset.mem.freq ∧ FreshDraw s s.hardReset s.hardReset.mem.ctab ∧
    FreshDraw s s.hardReset s.hardReset.mem.ibuf ∧ FreshDraw s s.hardReset s.hardReset.mem.obuf

/-- V-R1, R40. -/
def Obligations.ResetReadsAsSpecified : Prop :=
  ([0x0000, 0x0004, 0x0008, 0x000C, 0x0010, 0x0014, 0x0018, 0x001C, 0x0020, 0x0024, 0x0028, 0x002C, 0x0034, 0x3000].map
      fun off => (State.reset.hostRead off).1) =
    [0x48554646, 0x00000001, 0x00CC0120, 0, 0, 0, 0x00000005, 0, 0, 0, 0, 0, 0, 0]

/-- R70. -/
def Obligations.IbitsReadsMsbFirst : Prop :=
  ∀ (st : Bytes) (n : Nat), n ≤ 32768 → (Bytes.ibits n st).length = n ∧
    ∀ i, i < n → (Bytes.ibits n st)[i]? = some ((st.at (0x1000 + i / 8)).getLsbD (7 - i % 8))

/-- R71. -/
def Obligations.WriteBitsPacksMsbFirst : Prop :=
  ∀ (s : State) (b : List Bool), b.length ≤ 32768 →
    (∀ k j, k < (b.length + 7) / 8 → j < 8 →
      ((s.writeBits b).mem.obuf.at (0x2000 + k)).getLsbD (7 - j) = b.getD (8 * k + j) false) ∧
    KeptOutside 0x2000 (0x2000 + (b.length + 7) / 8) s (s.writeBits b)

/-- R72. -/
def Obligations.TextPrimitives : Prop :=
  (∀ (st : Bytes) (n k : Nat), n ≤ 4096 → (Bytes.itext n st).length = n ∧
    (k < n → (Bytes.itext n st)[k]? = some (st.at (0x1000 + k)))) ∧
  (∀ (s : State) (bs : List Byte), bs.length ≤ 4096 →
    (∀ k, k < bs.length → some ((s.writeBytes bs).mem.obuf.at (0x2000 + k)) = bs[k]?) ∧
    KeptOutside 0x2000 (0x2000 + bs.length) s (s.writeBytes bs))

/-- R131. IBITS and the packing are pinned down by IbitsReadsMsbFirst and WriteBitsPacksMsbFirst. -/
def Obligations.PadFollowsItsRule : Prop :=
  ∀ s : State,
    (32768 < s.count → Raises .pad s true .invalidArgument s.snap.inLen) ∧
    (s.count ≤ 32768 → s.pad < 0 → Raises .pad s true .invalidArgument s.snap.padlen) ∧
    (s.count ≤ 32768 → 0 ≤ s.pad → 32768 < s.pad + s.count →
      Raises .pad s true .outOverflow (BitVec.ofInt 32 (s.pad + s.count))) ∧
    (s.count ≤ 32768 → 0 ≤ s.pad → s.pad + s.count ≤ 32768 →
      Outputs .pad s true (s.pad.toNat + s.count) (packBits (List.replicate s.pad.toNat false ++ s.bits)))

/-- R135. -/
def Obligations.StripFollowsItsRule : Prop :=
  ∀ s : State,
    (32768 < s.count → Raises .strip s true .invalidArgument s.snap.inLen) ∧
    (s.count ≤ 32768 → s.pad < 0 ∨ (s.count : Int) < s.pad → Raises .strip s true .invalidArgument s.snap.padlen) ∧
    (s.count ≤ 32768 → 0 ≤ s.pad → s.pad ≤ (s.count : Int) →
      Outputs .strip s true (s.count - s.pad.toNat) (packBits (s.bits.drop s.pad.toNat)))

/-- R140; that m is at most 4096 in every run is part of the invariant (StepKeepsInvariant). -/
def Obligations.XferFollowsItsRule : Prop :=
  ∀ (s : State) (m : Nat), m = (if s.status.outu then (s.outLen.toNat + 7) / 8 else s.outLen.toNat) → m ≤ 4096 →
    ∃ t, exec .xfer s = .next t ∧ Succeeded s t ∧ t.inLen = s.outLen ∧
      Bytes.take m 0x1000 t.mem.ibuf = Bytes.take m 0x2000 s.mem.obuf ∧
      Unwritten s t ∧ SameSummary s t ∧ SameOutput s t ∧ KeptOutside 0x1000 (0x1000 + m) s t

/-- The model's choice, log entry 13; StepNeverStops says that no run reaches such a state. -/
def Obligations.XferStopsBeyondObuf : Prop :=
  ∀ s : State, 4096 < s.outBytes → exec .xfer s = .fault .outLenBeyondObuf

/-- R137. -/
def Obligations.PadThenStripRestoresInput : Prop :=
  ∀ (s : State) (n : Nat), s.seq = .idle → n = s.inLen.toNat → n ≤ 32768 → 0 ≤ s.padlen.toInt →
    s.padlen.toInt + n ≤ 32768 →
    ∃ s1 s2, runCommand .pad s = .next s1 ∧ runCommand .xfer s1 = .next s2 ∧ s1.status.err = false ∧ s2.status.err = false ∧
      (∃ t, runCommand .strip s2 = .next t ∧ t.status.err = false ∧ t.outLen = word n ∧ t.status.outu = true ∧
        Bytes.take ((n + 7) / 8) 0x2000 t.mem.obuf = packBits (Bytes.ibits n s.mem.ibuf)) ∧
      (∀ v : Word, 0 ≤ v.toInt → v.toInt ≤ s.padlen.toInt + n → v ≠ s.padlen →
        ∃ t, runCommand .strip { s2 with padlen := v } = .next t ∧ t.status.err = false ∧ t.status.outu = true ∧
          (t.outLen.toNat : Int) = s.padlen.toInt + n - v.toInt ∧ t.outLen.toNat ≠ n)

/-- R165. -/
def Obligations.ClearFreqFollowsItsRule : Prop :=
  ∀ s : State, ∃ t, exec .clearFreq s = .next t ∧ Succeeded s t ∧ (∀ n, n < 256 → t.look (.freq (0x0400 + 4 * n)) = 0) ∧
    Unwritten s t ∧ SameSummary s t ∧ SameOutput s t ∧ t.inLen = s.inLen ∧ KeptOutside 0x0400 0x0800 s t

/-- R166. -/
def Obligations.BuildFreqFollowsItsRule : Prop :=
  ∀ s : State,
    (buildTable s.snap.freq.freqWords = .empty → BuildRaises .buildFreq s .emptyInput 0) ∧
    (∀ m, buildTable s.snap.freq.freqWords = .tooLong m → BuildRaises .buildFreq s .codeTooLong (word m)) ∧
    (∀ codes m, buildTable s.snap.freq.freqWords = .table codes m →
      BuildsTable .buildFreq s s.mem.freq.freqWords codes m)

/-- R167; SampleBuildNeverTooLong says that the last case always applies. -/
def Obligations.BuildSampleFollowsItsRule : Prop :=
  ∀ s : State,
    (4096 < s.count → BuildRaises .buildSample s .invalidArgument s.snap.inLen) ∧
    (s.count = 0 → BuildRaises .buildSample s .emptyInput 0) ∧
    (∀ freq codes m, s.count ≤ 4096 → 0 < s.count →
      freq = ((List.range 256).map fun n =>
        if s.text.count (BitVec.ofNat 8 n) = 0 then (0 : Word)
        else 0x80000000 ||| word (s.text.count (BitVec.ofNat 8 n))) →
      buildTable freq = .table codes m → BuildsTable .buildSample s freq codes m)

/-- R169, R170: the ROM's premises stand in the type of the fitting (log entry 7). -/
def Obligations.BuildDefaultFollowsItsRule : Prop :=
  ∀ s : State, ∃ codes m, buildTable s.fit.defaultFreq.entries = .table codes m ∧
    BuildsTable .buildDefault s s.fit.defaultFreq.entries codes m

/-- R152. -/
def Obligations.EmptyMappingHasNoTable : Prop :=
  ∀ (freq : List Word) (s : State), (∀ w ∈ freq, w.getLsbD 31 = false) ↔ buildInto freq s = .error ⟨.emptyInput, 0⟩

/-- R153. -/
def Obligations.OneSymbolGetsOneBit : Prop :=
  ∀ (freq : List Word) (n : Nat) (h : n < freq.length), freq[n].getLsbD 31 = true →
    (∀ (k : Nat) (hk : k < freq.length), freq[k].getLsbD 31 = true → k = n) →
    buildTable freq = .table [⟨n, 1, 0⟩] 1

/-- R151, R163; R154, R155 and R158, by the relation Merges of Safety.lean, which is R154's loop; R156. No symbol and one symbol are
EmptyMappingHasNoTable and OneSymbolGetsOneBit. Laws/Merge.lean has the merge's laws. -/
def Obligations.TableHoldsThePresentAtMergeDepths : Prop :=
  (∀ (freq : List Word) (codes : List CodeEntry) (m : Nat), freq.length = 256 → buildTable freq = .table codes m →
      (∀ n, n < 256 → ((∃ e ∈ codes, e.sym = n) ↔ (freq.getD n 0).getLsbD 31 = true)) ∧
      (codes.map CodeEntry.sym).Nodup ∧ (∀ e ∈ codes, e.sym < 256 ∧ 1 ≤ e.len ∧ e.len ≤ m) ∧
      (∃ e ∈ codes, e.len = m) ∧ m ≤ 32 ∧ codes.length = (freq.filter freqPresent).length ∧
      (ctabWords codes).length = 512 ∧
      (∀ n e, n < 256 → e ∈ codes → e.sym = n →
        (ctabWords codes)[2 * n]? = some (0x80000000 ||| word e.len) ∧ (ctabWords codes)[2 * n + 1]? = some (word e.code)) ∧
      (∀ n, n < 256 → (∀ e ∈ codes, e.sym ≠ n) →
        (ctabWords codes)[2 * n]? = some 0 ∧ (ctabWords codes)[2 * n + 1]? = some 0)) ∧
  (∀ freq : List Word, freq.length = 256 → 2 ≤ (presentSymbols freq).length →
    ∃ root, Merges (presentSymbols freq).length (mergePool freq) root ∧
      ∀ m, m = (root.leaves.map Prod.snd).foldr max 0 →
        (32 < m → buildTable freq = .tooLong m) ∧
        (m ≤ 32 → ∃ codes, buildTable freq = .table codes m ∧ (codes.map fun e => (e.sym, e.len)).Perm root.leaves)) ∧
  (∀ (freq : List Word) (codes : List CodeEntry) (m : Nat) (len : Nat → Nat), freq.length = 256 →
    buildTable freq = .table codes m → (∀ e ∈ codes, 1 ≤ len e.sym) →
    (codes.map fun e => (1 / 2 : ℚ) ^ len e.sym).sum ≤ 1 →
    (codes.map fun e => countOf freq e.sym * e.len).sum ≤ (codes.map fun e => countOf freq e.sym * len e.sym).sum)

/-- R161(a). -/
def Obligations.BuiltCodesArePrefixFree : Prop :=
  ∀ (freq : List Word) (codes : List CodeEntry) (m : Nat), buildTable freq = .table codes m →
    ∀ e ∈ codes, ∀ e' ∈ codes, e.sym ≠ e'.sym → ¬(e.bits <+: e'.bits)

/-- R160, R161(b) and (e). -/
def Obligations.BuiltCodesAreCanonical : Prop :=
  ∀ (freq : List Word) (codes : List CodeEntry) (m : Nat), buildTable freq = .table codes m →
    (∀ e ∈ codes, e.code < 2 ^ e.len) ∧
    codes.Pairwise (fun e e' => e.len < e'.len ∨ (e.len = e'.len ∧ e.sym < e'.sym)) ∧
    (∀ e ∈ codes, ∀ e' ∈ codes, e.len = e'.len → (e.sym < e'.sym ↔ e.code < e'.code)) ∧
    (∀ h : 0 < codes.length, codes[0].code = 0) ∧
    (∀ (i : Nat) (h : i + 1 < codes.length),
      codes[i + 1].code = (codes[i].code + 1) * 2 ^ (codes[i + 1].len - codes[i].len))

/-- R161(c). -/
def Obligations.BuiltCodesAreComplete : Prop :=
  ∀ (freq : List Word) (codes : List CodeEntry) (m : Nat), buildTable freq = .table codes m → 2 ≤ codes.length →
    (codes.map fun e => 2 ^ (32 - e.len)).sum = 2 ^ 32 ∧
    ∀ v, v < 2 ^ 32 → ∃! e, e ∈ codes ∧ v >>> (32 - e.len) = e.code

/-- R168. -/
def Obligations.SampleBuildNeverTooLong : Prop :=
  ∀ t : List Byte, 0 < t.length → t.length ≤ 4096 → ∃ codes m, buildTable (sampleFreq t) = .table codes m

/-- R34. -/
def Obligations.EntriesReadCtabFields : Prop :=
  ∀ (st : Table) (n : Nat), n < 256 →
    findSym st.entries n =
      if (st.ctabAt (0x0800 + 8 * n)).getLsbD 31 then
        some ⟨n, (st.ctabAt (0x0800 + 8 * n)).toNat % 64, (st.ctabAt (0x0804 + 8 * n)).toNat⟩
      else none

/-- R181, in its order of checks (60_exceptions.md R253). -/
def Obligations.EncodeFollowsItsRule : Prop :=
  ∀ s : State,
    (4096 < s.count → Raises .encode s true .invalidArgument s.snap.inLen) ∧
    (s.count ≤ 4096 → s.status.tvalid = false → Raises .encode s true .noTable 0) ∧
    (∀ (k : Nat) (hk : k < s.text.length), s.count ≤ 4096 → s.status.tvalid = true →
      (∀ (j : Nat) (hj : j < k), s.hasCode (s.text[j]'(Nat.lt_trans hj hk))) → ¬s.hasCode s.text[k] →
      Raises .encode s true .unknownSymbol (word (k * 256 + s.text[k].toNat))) ∧
    (s.count ≤ 4096 → s.status.tvalid = true → (∀ b ∈ s.text, s.hasCode b) →
      (s.pad < 0 → Raises .encode s true .invalidArgument s.snap.padlen) ∧
      (0 ≤ s.pad → 32768 < s.pad + textLength s.codes s.text →
        Raises .encode s true .outOverflow (BitVec.ofInt 32 (s.pad + textLength s.codes s.text))) ∧
      (0 ≤ s.pad → s.pad + textLength s.codes s.text ≤ 32768 →
        Outputs .encode s true (s.pad.toNat + textLength s.codes s.text)
          (packBits (List.replicate s.pad.toNat false ++ textBits s.codes s.text))))

/-- R184; the parse itself is pinned down by ParseIsUnambiguous. -/
def Obligations.DecodeFollowsItsRule : Prop :=
  ∀ s : State,
    (32768 < s.count → Raises .decode s false .invalidArgument s.snap.inLen) ∧
    (s.count ≤ 32768 → s.status.tvalid = false → Raises .decode s false .noTable 0) ∧
    (s.count ≤ 32768 → s.status.tvalid = true → s.pad < 0 ∨ (s.count : Int) < s.pad →
      Raises .decode s false .invalidArgument s.snap.padlen) ∧
    (s.count ≤ 32768 → s.status.tvalid = true → 0 ≤ s.pad → s.pad ≤ (s.count : Int) →
      (∀ j, parse s.codes (s.bits.drop s.pad.toNat) = .corrupt j →
        Raises .decode s false .corruptStream (word (s.pad.toNat + j))) ∧
      (∀ out, parse s.codes (s.bits.drop s.pad.toNat) = .ok out → 4096 < out.length →
        Raises .decode s false .outOverflow (word out.length)) ∧
      (∀ out, parse s.codes (s.bits.drop s.pad.toNat) = .ok out → out.length ≤ 4096 →
        Outputs .decode s false out.length out))

/-- R187; a symbol's bits are R180's, its CODE most significant bit first; the index of Corrupt is R183's, the first bit of the code that could not be completed. -/
def Obligations.ParseIsUnambiguous : Prop :=
  ∀ s : State, HoldsBuiltTable s → ∀ (c : List Bool) (u : List Byte),
    (parse s.codes c = .ok u ↔ ((∀ b ∈ u, s.hasCode b) ∧ textBits s.codes u = c)) ∧
    (∀ u' : List Byte, (∀ b ∈ u, s.hasCode b) → (∀ b ∈ u', s.hasCode b) → textBits s.codes u = c →
      textBits s.codes u' = c → u = u') ∧
    (∀ j, parse s.codes c = .corrupt j ↔ j < c.length ∧
      (∃ u' : List Byte, (∀ b ∈ u', s.hasCode b) ∧ textBits s.codes u' = c.take j) ∧
      ∀ e ∈ s.codes, ¬(e.bits <+: c.drop j)) ∧
    (∀ e ∈ s.codes, e.bits.length = e.len ∧
      ∀ i, i < e.len → e.bits[i]? = some (e.code.testBit (e.len - 1 - i))) ∧
    textBits s.codes [] = [] ∧
    (∀ e ∈ s.codes, ∀ b : Byte, e.sym = b.toNat → textBits s.codes (b :: u) = e.bits ++ textBits s.codes u ∧
      textLength s.codes (b :: u) = e.len + textLength s.codes u)

/-- R185. -/
def Obligations.EncodeDecodeRoundTrip : Prop :=
  ∀ (s : State) (n : Nat) (t : List Byte), s.seq = .idle → s.status.tvalid = true → HoldsBuiltTable s →
    n = s.inLen.toNat → n ≤ 4096 → t = Bytes.itext n s.mem.ibuf → (∀ b ∈ t, s.hasCode b) →
    0 ≤ s.padlen.toInt → s.padlen.toInt + textLength s.codes t ≤ 32768 →
    ∃ s1 s2 s3, RunsThree .encode .xfer .decode s s1 s2 s3 ∧ s1.status.err = false ∧ s2.status.err = false ∧
      s3.status.err = false ∧ s3.outLen = word n ∧ s3.status.outu = false ∧ Bytes.take n 0x2000 s3.mem.obuf = t

/-- R186. Its list of errors leaves out OUT_OVERFLOW, which a padding shorter by more than 4096 one-bit codes gives (R184), so the statement names no code. -/
def Obligations.WrongPaddingNeverReproduces : Prop :=
  ∀ (s s1 s2 s3 : State) (v : Word) (t : List Byte), s.seq = .idle → s.status.tvalid = true → HoldsBuiltTable s →
    t = Bytes.itext s.inLen.toNat s.mem.ibuf → v ≠ s.padlen →
    runCommand .encode s = .next s1 → s1.status.err = false → runCommand .xfer s1 = .next s2 →
    runCommand .decode { s2 with padlen := v } = .next s3 →
    s3.status.err = true ∨ Bytes.take s3.outLen.toNat 0x2000 s3.mem.obuf ≠ t

/-- R240. For EVERY record with the key, so there is at most one answer (R216). -/
def Obligations.WordToAbbrFollowsItsRule : Prop :=
  ∀ (s : State) (rom : AbbrRom), s.fit.abbr = some rom →
    (s.count = 0 ∨ 4096 < s.count → Raises .abbrW2A s false .invalidArgument s.snap.inLen) ∧
    (0 < s.count → s.count ≤ 4096 →
      (∀ p ∈ romPairs rom.image, p.wrd = s.text → Outputs .abbrW2A s false p.abbr.length p.abbr) ∧
      ((∀ p ∈ romPairs rom.image, p.wrd ≠ s.text) → Raises .abbrW2A s false .notFound 0))

/-- R241. -/
def Obligations.AbbrToWordFollowsItsRule : Prop :=
  ∀ (s : State) (rom : AbbrRom), s.fit.abbr = some rom →
    (s.count = 0 ∨ 4096 < s.count → Raises .abbrA2W s false .invalidArgument s.snap.inLen) ∧
    (0 < s.count → s.count ≤ 4096 →
      (∀ p ∈ romPairs rom.image, p.abbr = s.text → Outputs .abbrA2W s false p.wrd.length p.wrd) ∧
      ((∀ p ∈ romPairs rom.image, p.abbr ≠ s.text) → Raises .abbrA2W s false .notFound 0))

/-- R242. -/
def Obligations.LookupsWithoutRomAreIllegal : Prop :=
  ∀ s : State,
    (s.fit.abbr = none → s.look .caps = 0x00CC0020 ∧ s.look .abbrN = 0 ∧
      ∀ k, s.seq = .busy k 0 → k.cmd = 0x00000040 ∨ k.cmd = 0x00000041 →
        ∃ t, step s = .next t ∧ Failed t .illegalCmd k.cmd ∧ SameOutput s t ∧ SameSummary s t ∧ Unwritten s t ∧
          t.inLen = s.inLen ∧ t.mem = s.mem) ∧
    (∀ rom, s.fit.abbr = some rom → s.look .caps = 0x00CC0120 ∧ s.look .abbrN = word (romCount rom.image))

/-- R243. -/
def Obligations.LookupsAreInverse : Prop :=
  ∀ (s : State) (rom : AbbrRom) (p : Pair), s.seq = .idle → s.fit.abbr = some rom → p ∈ romPairs rom.image →
    (Bytes.itext s.inLen.toNat s.mem.ibuf = p.wrd →
      ∃ s1 s2 s3, RunsThree .abbrW2A .xfer .abbrA2W s s1 s2 s3 ∧ s3.status.err = false ∧
        s3.outLen = word p.wrd.length ∧ Bytes.take s3.outLen.toNat 0x2000 s3.mem.obuf = p.wrd) ∧
    (Bytes.itext s.inLen.toNat s.mem.ibuf = p.abbr →
      ∃ s1 s2 s3, RunsThree .abbrA2W .xfer .abbrW2A s s1 s2 s3 ∧ s3.status.err = false ∧
        s3.outLen = word p.abbr.length ∧ Bytes.take s3.outLen.toNat 0x2000 s3.mem.obuf = p.abbr)

/-- R214-R217, R235: the generator's ROM is a bijection over the whole vocabulary, and its listing carries the same
information. The listing has no cutoff, so the statement gives it (log entry 23). -/
def Obligations.GeneratedImagesAreWellFormed : Prop :=
  ∀ (v : List (List Byte)) (cutoff : Nat) (q : List Byte) (rand : Nat → List Byte → Nat) (img : List Byte),
    generate v cutoff q rand = .ok img →
    romOk img = true ∧ romCutoff img = cutoff ∧ (∀ w, w ∈ v ↔ ∃ p ∈ romPairs img, p.wrd = w) ∧
      imageOfListing (word cutoff) (romListing img) = .ok img

/-- R218 (a) and (b). -/
def Obligations.GeneratedPairsKeepTheirEnds : Prop :=
  ∀ (v : List (List Byte)) (cutoff : Nat) (q : List Byte) (rand : Nat → List Byte → Nat) (img : List Byte),
    generate v cutoff q rand = .ok img → ∀ p ∈ romPairs img,
      (p.wrd.length ≤ cutoff → p.abbr = p.wrd) ∧
      (cutoff < p.wrd.length → 2 ≤ p.abbr.length ∧ p.abbr.length < p.wrd.length ∧ p.abbr.Sublist p.wrd ∧
        p.abbr.head? = p.wrd.head? ∧ p.abbr.getLast? = p.wrd.getLast?)

/-- R92's table of writes, R115, and R117's OBUF <- draw and CTAB <- draw: an error completion is one that sets ERR, which is 0 while
BUSY (R111). A draw is said in the model's form, an unused generation with no cell (FreshDraw, log entry 3). -/
def Obligations.CommandsWriteOnlyTheirTargets : Prop :=
  ∀ (i : Instr) (s t : State), exec i s = .next t →
    t.seq = .idle ∧ t.status.done = true ∧ Unwritten s t ∧
    (i ≠ .xfer → t.inLen = s.inLen ∧ t.mem.ibuf = s.mem.ibuf) ∧
    (i ∉ [.pad, .strip, .encode, .decode, .abbrW2A, .abbrA2W] → SameOutput s t ∧ t.mem.obuf = s.mem.obuf) ∧
    (i ∉ [.clearFreq, .buildSample, .buildDefault] → t.mem.freq = s.mem.freq) ∧
    (i ∉ [.buildFreq, .buildSample, .buildDefault] → SameSummary s t ∧ t.mem.ctab = s.mem.ctab) ∧
    (s.status.err = false → t.status.err = true →
      (i ∈ [.pad, .strip, .encode, .decode] ∨ (i ∈ [.abbrW2A, .abbrA2W] ∧ s.fit.abbr ≠ none) → FreshDraw s t t.mem.obuf) ∧
      (i ∈ [.buildFreq, .buildSample, .buildDefault] → FreshDraw s t t.mem.ctab))

/-- R120. -/
def Obligations.NopOnlyCompletes : Prop :=
  ∀ s : State, exec .nop s = .next { s with status := { s.status with done := true }, seq := .idle }

/-- R295, R76. That no host write changes ERRCODE is the model's choice of R24 and R295 over the example lines P3 line 7 and P4
line 14 of 95_test_vectors.md (log entry 20). -/
def Obligations.ResultsAreStable : Prop :=
  ∀ (s : State) (off : BitVec 16) (v : Word), s.seq = .idle → wordOffset off ≠ 0x0014 →
    ¬(wordOffset off = 0x000C ∧ v.getLsbD 1 = true) → ∀ t, t = s.hostWrite off v ∨ t = (s.hostRead off).2 →
    SameOutput s t ∧ SameSummary s t ∧ t.errInfo = s.errInfo ∧ t.status.errCode = s.status.errCode ∧
      t.mem.ctab = s.mem.ctab ∧ t.mem.obuf = s.mem.obuf ∧ t.codes = s.codes

/-- The invariant Inv of Sys2Proof/Safety.lean. -/
def Obligations.InvariantHoldsAtReset : Prop :=
  ∀ p : List Stmt, Inv (State.reset.withProgram p)

/-- R39 (the snapshot equals the live values), R140 (m <= 4096 always holds), R34 and R150 (TVALID and CTAB). -/
def Obligations.StepKeepsInvariant : Prop :=
  ∀ s t : State, Inv s → step s = .next t → Inv t

/-- R114: every body is total; R119: "No command hangs". -/
def Obligations.StepNeverStops : Prop :=
  (∀ s : State, Inv s → ∃ t, step s = .next t) ∧
  (∀ (p : List Stmt) (n : Nat), ∃ t, RunsTo n (State.reset.withProgram p) t)

/-- R119: every accepted command that no reset aborts completes after a finite time; the count of turns is the model's, log entry 2. -/
def Obligations.BusyEventuallyEnds : Prop :=
  ∀ (s : State) (k : Snapshot) (n : Nat), Inv s → s.seq = .busy k n →
    ∃ m t, m ≤ n + 1 ∧ RunsTo m s t ∧ t.seq = .idle
end

