-- ==== Sys2Proof/Laws/Memory.lean ====
section
/-! SUPPORT. The laws of the memories: one place by the walk (`lookup`), by window and after a write, and the canonical form,
which every memory operation keeps. They hold of every list of cells, canonical or not. -/

namespace Sys2Proof.Machine

variable {α : Type}

/-! ## lookup against the walks -/

theorem lookup_nil (a : Nat) : lookup a ([] : List (Nat × α)) = none := rfl

theorem lookup_cons (a : Nat) (c : Nat × α) (cs : List (Nat × α)) :
    lookup a (c :: cs) = if c.1 < a then lookup a cs else if c.1 = a then some c.2 else none := by
  simp only [lookup, Nat.blt_eq, Nat.beq_eq]

theorem cellsFrom_cons (a : Nat) (c : Nat × α) (cs : List (Nat × α)) :
    cellsFrom a (c :: cs) = if c.1 < a then cellsFrom a cs else c :: cs := by
  simp only [cellsFrom, Nat.blt_eq]

theorem cellsBefore_cons (a : Nat) (c : Nat × α) (cs : List (Nat × α)) :
    cellsBefore a (c :: cs) = if c.1 < a then c :: cellsBefore a cs else [] := by
  simp only [cellsBefore, Nat.blt_eq]

/-- Dropping the cells before `a` does not change what is listed from `a` on. -/
theorem lookup_cellsFrom {a b : Nat} (h : a ≤ b) (cs : List (Nat × α)) : lookup b (cellsFrom a cs) = lookup b cs := by
  induction cs with
  | nil => rfl
  | cons c cs ih =>
    rw [cellsFrom_cons]
    split
    · rw [ih, lookup_cons, if_pos (by omega)]
    · rfl

/-- What is left after `cellsFrom a` begins at `a` or later. -/
theorem cellsFrom_head {a : Nat} {cs rest : List (Nat × α)} {c : Nat × α} (h : cellsFrom a cs = c :: rest) : a ≤ c.1 := by
  induction cs with
  | nil => simp [cellsFrom] at h
  | cons d cs ih =>
    rw [cellsFrom_cons] at h
    split at h
    · exact ih h
    · obtain ⟨rfl, -⟩ := List.cons.inj h; omega

/-- In front of any cells that begin later, the cells before `a` answer below `a` as the whole list does. -/
theorem lookup_before_append {a b : Nat} (h : b < a) (cs tail : List (Nat × α))
    (ht : ∀ c rest, tail = c :: rest → a ≤ c.1) : lookup b (cellsBefore a cs ++ tail) = lookup b cs := by
  have tailNone : lookup b tail = none := by
    cases tail with
    | nil => rfl
    | cons c rest =>
      have := ht c rest rfl
      rw [lookup_cons, if_neg (by omega), if_neg (by omega)]
  induction cs with
  | nil => simpa [cellsBefore, lookup] using tailNone
  | cons c cs ih =>
    rw [cellsBefore_cons]
    split
    · rw [List.cons_append, lookup_cons, lookup_cons, ih]
    · rw [List.nil_append, tailNone, lookup_cons, if_neg (by omega), if_neg (by omega)]

/-- The cells before `a` list nothing from `a` on. -/
theorem lookup_after_append {a b : Nat} (h : a ≤ b) (cs tail : List (Nat × α)) :
    lookup b (cellsBefore a cs ++ tail) = lookup b tail := by
  induction cs with
  | nil => rfl
  | cons c cs ih =>
    rw [cellsBefore_cons]
    split
    · rw [List.cons_append, lookup_cons, if_pos (by omega), ih]
    · rfl

/-- A block answers at each of its places. -/
theorem lookup_block_append (stride : Nat) (hs : 0 < stride) (vs : List α) (tail : List (Nat × α)) (a k : Nat)
    (hk : k < vs.length) : lookup (a + stride * k) (block stride a vs ++ tail) = some vs[k] := by
  induction vs generalizing a k with
  | nil => simp at hk
  | cons v vs ih =>
    rw [block, List.cons_append, lookup_cons]
    cases k with
    | zero => simp
    | succ k =>
      have : a + stride * (k + 1) = a + stride + stride * k := by ring
      rw [if_pos (by simp only [this]; omega), this, ih (a + stride) k (by simpa using hk)]
      simp

/-- Past a block, the cells behind it answer. -/
theorem lookup_past_block (stride : Nat) (vs : List α) (tail : List (Nat × α)) (a b : Nat)
    (h : a + stride * vs.length ≤ b) (hs : 0 < stride) : lookup b (block stride a vs ++ tail) = lookup b tail := by
  induction vs generalizing a with
  | nil => rfl
  | cons v vs ih =>
    have e : a + stride * (vs.length + 1) = a + stride + stride * vs.length := by ring
    rw [List.length_cons, e] at h
    rw [block, List.cons_append, lookup_cons, if_pos (by show a < b; omega), ih (a + stride) h]

/-! ## Store laws -/

/-- Read after write, at the places written. -/
theorem Store.get_write_same (free : Nat → Nat → α) (stride : Nat) (hs : 0 < stride) (a : Nat) (vs : List α) (st : Store α)
    (k : Nat) (hk : k < vs.length) : (st.write stride a vs).get free (a + stride * k) = vs[k] := by
  rw [Store.get, Store.write, List.append_assoc, lookup_after_append (by omega),
    lookup_block_append stride hs vs _ a k hk, Option.getD_some]

/-- A write leaves every place before it alone. -/
theorem Store.get_write_before (free : Nat → Nat → α) (stride a b : Nat) (vs : List α) (st : Store α) (h : b < a) :
    (st.write stride a vs).get free b = st.get free b := by
  rw [Store.get, Store.get, Store.write, List.append_assoc, lookup_before_append h]
  intro c rest hc
  cases vs with
  | nil => exact cellsFrom_head (by simpa [block] using hc)
  | cons v vs => simp only [block, List.cons_append, List.cons.injEq] at hc; rw [← hc.1]

/-- A write leaves every place past it alone. -/
theorem Store.get_write_after (free : Nat → Nat → α) (stride a b : Nat) (hs : 0 < stride) (vs : List α) (st : Store α)
    (h : a + stride * vs.length ≤ b) : (st.write stride a vs).get free b = st.get free b := by
  rw [Store.get, Store.get, Store.write, List.append_assoc,
    lookup_after_append (le_trans (Nat.le_add_right _ _) h), lookup_past_block stride vs _ a b h hs, lookup_cellsFrom h]

@[simp] theorem Store.write_gen (stride a : Nat) (vs : List α) (st : Store α) : (st.write stride a vs).gen = st.gen := rfl

/-- A window is the list of its places. -/
theorem windowFrom_eq_map (free : Nat → α) (stride : Nat) (hs : 0 < stride) (n a : Nat) (cs : List (Nat × α)) :
    windowFrom free stride n a cs =
      (List.range n).map fun k => (lookup (a + stride * k) cs).getD (free (a + stride * k)) := by
  induction n generalizing a cs with
  | zero => rfl
  | succ n ih =>
    have shift : ∀ k, a + stride * (k + 1) = a + stride + stride * k := fun k => by ring
    rw [List.range_succ_eq_map, List.map_cons, List.map_map, windowFrom]
    have tailEq : ∀ ds : List (Nat × α), (∀ b, a < b → lookup b ds = lookup b cs) →
        windowFrom free stride n (a + stride) ds =
          (List.range n).map ((fun k => (lookup (a + stride * k) cs).getD (free (a + stride * k))) ∘ Nat.succ) := by
      intro ds hd
      rw [ih]
      refine List.map_congr_left fun k _ => ?_
      simp only [Function.comp, Nat.succ_eq_add_one, shift]
      rw [hd _ (by omega)]
    have hfrom : ∀ b, a ≤ b → lookup b (cellsFrom a cs) = lookup b cs := fun b hb => lookup_cellsFrom hb cs
    split
    · rename_i h0
      rw [tailEq [] (fun b hb => by rw [← hfrom b (by omega), h0])]
      rw [← hfrom (a + stride * 0) (by omega), h0]
      simp [lookup]
    · rename_i c rest h0
      have hc := cellsFrom_head h0
      simp only [Nat.beq_eq]
      split
      · rename_i he
        rw [tailEq rest (fun b hb => by
          rw [← hfrom b (by omega), h0, lookup_cons, if_pos (by omega)])]
        rw [← hfrom (a + stride * 0) (by omega), h0, lookup_cons]
        simp [he]
      · rename_i he
        rw [tailEq (c :: rest) (fun b hb => by rw [← hfrom b (by omega), h0])]
        rw [← hfrom (a + stride * 0) (by omega), h0, lookup_cons, if_neg (by simp; omega), if_neg (by simpa using he)]
        simp

/-- A window of a store, place by place. -/
theorem Store.window_eq_map (free : Nat → Nat → α) (stride : Nat) (hs : 0 < stride) (n a : Nat) (st : Store α) :
    st.window free stride n a = (List.range n).map fun k => st.get free (a + stride * k) :=
  windowFrom_eq_map (free st.gen) stride hs n a st.cells

/-- A window just written is what was written. -/
theorem Store.window_write (free : Nat → Nat → α) (stride : Nat) (hs : 0 < stride) (a : Nat) (vs : List α) (st : Store α) :
    (st.write stride a vs).window free stride vs.length a = vs := by
  rw [Store.window_eq_map free stride hs]
  apply List.ext_getElem (by simp)
  intro k h1 h2
  rw [List.getElem_map, List.getElem_range, Store.get_write_same free stride hs a vs st k h2]

/-! ## The canonical form -/

theorem cellsOk_cons (stride lo hi : Nat) (c : Nat × α) (cs : List (Nat × α)) :
    cellsOk stride lo hi (c :: cs) = true ↔
      lo ≤ c.1 ∧ c.1 < hi ∧ c.1 % stride = 0 ∧ cellsOk stride (c.1 + 1) hi cs = true := by
  simp only [cellsOk, Bool.and_eq_true, Nat.ble_eq, Nat.blt_eq, Nat.beq_eq]
  tauto

theorem cellsOk_lower {stride lo lo' hi : Nat} (h : lo' ≤ lo) (cs : List (Nat × α)) (hc : cellsOk stride lo hi cs = true) :
    cellsOk stride lo' hi cs = true := by
  cases cs with
  | nil => rfl
  | cons c cs => rw [cellsOk_cons] at hc ⊢; exact ⟨by omega, hc.2⟩

/-- The cells from `a` on are canonical from `a` on. -/
theorem cellsOk_cellsFrom {stride lo hi : Nat} (a : Nat) (cs : List (Nat × α)) (hc : cellsOk stride lo hi cs = true) :
    cellsOk stride a hi (cellsFrom a cs) = true := by
  induction cs generalizing lo with
  | nil => rfl
  | cons c cs ih =>
    rw [cellsFrom_cons]
    split
    · exact ih ((cellsOk_cons ..).mp hc).2.2.2
    · rw [cellsOk_cons] at hc ⊢; exact ⟨by omega, hc.2⟩

/-- Canonical cells before `a`, then canonical cells from `a` on. -/
theorem cellsOk_before_append {stride lo hi a : Nat} (cs tail : List (Nat × α)) (hc : cellsOk stride lo hi cs = true)
    (hla : lo ≤ a) (ht : cellsOk stride a hi tail = true) : cellsOk stride lo hi (cellsBefore a cs ++ tail) = true := by
  induction cs generalizing lo with
  | nil => exact cellsOk_lower hla tail ht
  | cons c cs ih =>
    rw [cellsBefore_cons]
    split
    · obtain ⟨h1, h2, h3, h4⟩ := (cellsOk_cons ..).mp hc
      rw [List.cons_append, cellsOk_cons]
      exact ⟨h1, h2, h3, ih h4 (by omega)⟩
    · exact cellsOk_lower hla tail ht

theorem cellsOk_block_append {stride lo hi : Nat} (hs : 0 < stride) (a : Nat) (vs : List α) (tail : List (Nat × α))
    (hla : lo ≤ a) (ha : a % stride = 0) (hhi : a + stride * vs.length ≤ hi)
    (ht : cellsOk stride (a + stride * vs.length) hi tail = true) : cellsOk stride lo hi (block stride a vs ++ tail) = true := by
  induction vs generalizing lo a with
  | nil => exact cellsOk_lower (by simpa using hla) tail (by simpa using ht)
  | cons v vs ih =>
    have e : a + stride * (vs.length + 1) = a + stride + stride * vs.length := by ring
    rw [List.length_cons, e] at hhi ht
    rw [block, List.cons_append, cellsOk_cons]
    exact ⟨hla, by show a < hi; omega, ha, ih (a + stride) (by show a + 1 ≤ a + stride; omega) (by simpa using ha) hhi ht⟩

/-- A write within a store's places keeps its canonical form. -/
theorem Store.write_cellsOk {stride lo hi : Nat} (hs : 0 < stride) (a : Nat) (vs : List α) (st : Store α) (hla : lo ≤ a)
    (ha : a % stride = 0) (hhi : a + stride * vs.length ≤ hi) (h : cellsOk stride lo hi st.cells = true) :
    cellsOk stride lo hi (st.write stride a vs).cells = true := by
  rw [Store.write, List.append_assoc]
  exact cellsOk_before_append _ _ h hla (cellsOk_block_append hs a vs _ (le_refl a) ha hhi (cellsOk_cellsFrom _ _ h))

/-! ## The four memories -/

theorem Memory.wf_iff (m : Memory) : m.wf = true ↔
    cellsOk 4 0x0400 0x0800 m.freq.cells = true ∧ cellsOk 4 0x0800 0x1000 m.ctab.cells = true ∧
      cellsOk 1 0x1000 0x2000 m.ibuf.cells = true ∧ cellsOk 1 0x2000 0x3000 m.obuf.cells = true := by
  simp [Memory.wf, and_assoc]

theorem Memory.drawn_wf (gen : Nat) : (Memory.drawn gen).wf = true := rfl

/-- Writing bytes into OBUF keeps the canonical form. -/
theorem Memory.wf_obuf_write {m : Memory} (h : m.wf = true) (bs : List Byte) (hb : bs.length ≤ 4096) :
    Memory.wf { m with obuf := m.obuf.write 1 0x2000 bs } = true := by
  rw [Memory.wf_iff] at h ⊢
  exact ⟨h.1, h.2.1, h.2.2.1, Store.write_cellsOk (by omega) _ _ _ (by omega) (by omega) (by omega) h.2.2.2⟩

/-- Writing bytes into IBUF keeps the canonical form. -/
theorem Memory.wf_ibuf_write {m : Memory} (h : m.wf = true) (a : Nat) (bs : List Byte) (ha : 0x1000 ≤ a)
    (hb : a + bs.length ≤ 0x2000) : Memory.wf { m with ibuf := m.ibuf.write 1 a bs } = true := by
  rw [Memory.wf_iff] at h ⊢
  exact ⟨h.1, h.2.1, Store.write_cellsOk (by omega) _ _ _ ha (by omega) (by omega) h.2.2.1, h.2.2.2⟩

/-- Writing words into FREQ keeps the canonical form. -/
theorem Memory.wf_freq_write {m : Memory} (h : m.wf = true) (a : Nat) (ws : List Word) (ha : 0x0400 ≤ a) (h4 : a % 4 = 0)
    (hb : a + 4 * ws.length ≤ 0x0800) : Memory.wf { m with freq := m.freq.write 4 a ws } = true := by
  rw [Memory.wf_iff] at h ⊢
  exact ⟨Store.write_cellsOk (by omega) _ _ _ ha h4 hb h.1, h.2⟩

/-- Writing words into CTAB keeps the canonical form. -/
theorem Memory.wf_ctab_write {m : Memory} (h : m.wf = true) (a : Nat) (ws : List Word) (ha : 0x0800 ≤ a) (h4 : a % 4 = 0)
    (hb : a + 4 * ws.length ≤ 0x1000) : Memory.wf { m with ctab := m.ctab.write 4 a ws } = true := by
  rw [Memory.wf_iff] at h ⊢
  exact ⟨h.1, Store.write_cellsOk (by omega) _ _ _ ha h4 hb h.2.1, h.2.2⟩

theorem Memory.wf_drawObuf {m : Memory} (h : m.wf = true) (g : Nat) : Memory.wf { m with obuf := ⟨g, []⟩ } = true := by
  rw [Memory.wf_iff] at h ⊢; exact ⟨h.1, h.2.1, h.2.2.1, rfl⟩

theorem Memory.wf_drawIbuf {m : Memory} (h : m.wf = true) (g : Nat) : Memory.wf { m with ibuf := ⟨g, []⟩ } = true := by
  rw [Memory.wf_iff] at h ⊢; exact ⟨h.1, h.2.1, rfl, h.2.2.2⟩

theorem Memory.wf_drawFreq {m : Memory} (h : m.wf = true) (g : Nat) : Memory.wf { m with freq := ⟨g, []⟩ } = true := by
  rw [Memory.wf_iff] at h ⊢; exact ⟨rfl, h.2⟩

theorem Memory.wf_drawCtab {m : Memory} (h : m.wf = true) (g : Nat) : Memory.wf { m with ctab := ⟨g, []⟩ } = true := by
  rw [Memory.wf_iff] at h ⊢; exact ⟨h.1, rfl, h.2.2⟩

/-! ## Lengths -/

@[simp] theorem windowFrom_length (free : Nat → α) (stride n a : Nat) (cs : List (Nat × α)) :
    (windowFrom free stride n a cs).length = n := by
  induction n generalizing a cs with
  | zero => rfl
  | succ n ih =>
    rw [windowFrom]
    split
    · simp [ih]
    · split <;> simp [ih]

@[simp] theorem Bytes.take_length (n a : Nat) (st : Bytes) : (Bytes.take n a st).length = n :=
  windowFrom_length _ _ _ _ _

@[simp] theorem Bytes.itext_length (n : Nat) (st : Bytes) : (Bytes.itext n st).length = n := Bytes.take_length _ _ _

@[simp] theorem Table.freqWords_length (st : Table) : st.freqWords.length = 256 := by
  simp [Table.freqWords, Store.window]

@[simp] theorem Table.ctabAll_length (st : Table) : st.ctabAll.length = 512 := windowFrom_length _ _ _ _ _

/-- A byte of a text is the IBUF byte at its offset (20_memory.md R72). -/
theorem Bytes.take_getElem (n a k : Nat) (st : Bytes) (h : k < (Bytes.take n a st).length) :
    (Bytes.take n a st)[k] = st.at (a + k) := by
  simp only [Bytes.take, Store.window_eq_map _ 1 (by omega), List.getElem_map, List.getElem_range, one_mul, Bytes.at]

end Sys2Proof.Machine
end

