-- ==== Sys2Proof/Laws/State.lean ====
section
/-! SUPPORT. One lemma per field of State per named update, true by rfl, so that no proof unfolds a record update. -/

namespace Sys2Proof.Machine

variable (s : State)

/-! ## writeBytes -/

@[simp] theorem State.writeBytes_ie (bs : List Byte) : (s.writeBytes bs).ie = s.ie := rfl
@[simp] theorem State.writeBytes_status (bs : List Byte) : (s.writeBytes bs).status = s.status := rfl
@[simp] theorem State.writeBytes_padlen (bs : List Byte) : (s.writeBytes bs).padlen = s.padlen := rfl
@[simp] theorem State.writeBytes_inLen (bs : List Byte) : (s.writeBytes bs).inLen = s.inLen := rfl
@[simp] theorem State.writeBytes_outLen (bs : List Byte) : (s.writeBytes bs).outLen = s.outLen := rfl
@[simp] theorem State.writeBytes_errInfo (bs : List Byte) : (s.writeBytes bs).errInfo = s.errInfo := rfl
@[simp] theorem State.writeBytes_nsym (bs : List Byte) : (s.writeBytes bs).nsym = s.nsym := rfl
@[simp] theorem State.writeBytes_maxlen (bs : List Byte) : (s.writeBytes bs).maxlen = s.maxlen := rfl
@[simp] theorem State.writeBytes_mem (bs : List Byte) : (s.writeBytes bs).mem = { s.mem with obuf := s.mem.obuf.write 1 0x2000 bs } := rfl
@[simp] theorem State.writeBytes_seq (bs : List Byte) : (s.writeBytes bs).seq = s.seq := rfl
@[simp] theorem State.writeBytes_master (bs : List Byte) : (s.writeBytes bs).master = s.master := rfl
@[simp] theorem State.writeBytes_fit (bs : List Byte) : (s.writeBytes bs).fit = s.fit := rfl
@[simp] theorem State.writeBytes_draws (bs : List Byte) : (s.writeBytes bs).draws = s.draws := rfl

/-! ## writeBits -/

@[simp] theorem State.writeBits_ie (b : List Bool) : (s.writeBits b).ie = s.ie := rfl
@[simp] theorem State.writeBits_status (b : List Bool) : (s.writeBits b).status = s.status := rfl
@[simp] theorem State.writeBits_padlen (b : List Bool) : (s.writeBits b).padlen = s.padlen := rfl
@[simp] theorem State.writeBits_inLen (b : List Bool) : (s.writeBits b).inLen = s.inLen := rfl
@[simp] theorem State.writeBits_outLen (b : List Bool) : (s.writeBits b).outLen = s.outLen := rfl
@[simp] theorem State.writeBits_errInfo (b : List Bool) : (s.writeBits b).errInfo = s.errInfo := rfl
@[simp] theorem State.writeBits_nsym (b : List Bool) : (s.writeBits b).nsym = s.nsym := rfl
@[simp] theorem State.writeBits_maxlen (b : List Bool) : (s.writeBits b).maxlen = s.maxlen := rfl
@[simp] theorem State.writeBits_mem (b : List Bool) : (s.writeBits b).mem = { s.mem with obuf := s.mem.obuf.write 1 0x2000 (packBits b) } := rfl
@[simp] theorem State.writeBits_seq (b : List Bool) : (s.writeBits b).seq = s.seq := rfl
@[simp] theorem State.writeBits_master (b : List Bool) : (s.writeBits b).master = s.master := rfl
@[simp] theorem State.writeBits_fit (b : List Bool) : (s.writeBits b).fit = s.fit := rfl
@[simp] theorem State.writeBits_draws (b : List Bool) : (s.writeBits b).draws = s.draws := rfl

/-! ## setOut -/

@[simp] theorem State.setOut_ie (n : Nat) (u : Bool) : (s.setOut n u).ie = s.ie := rfl
@[simp] theorem State.setOut_status (n : Nat) (u : Bool) : (s.setOut n u).status = { s.status with outu := u } := rfl
@[simp] theorem State.setOut_padlen (n : Nat) (u : Bool) : (s.setOut n u).padlen = s.padlen := rfl
@[simp] theorem State.setOut_inLen (n : Nat) (u : Bool) : (s.setOut n u).inLen = s.inLen := rfl
@[simp] theorem State.setOut_outLen (n : Nat) (u : Bool) : (s.setOut n u).outLen = word n := rfl
@[simp] theorem State.setOut_errInfo (n : Nat) (u : Bool) : (s.setOut n u).errInfo = s.errInfo := rfl
@[simp] theorem State.setOut_nsym (n : Nat) (u : Bool) : (s.setOut n u).nsym = s.nsym := rfl
@[simp] theorem State.setOut_maxlen (n : Nat) (u : Bool) : (s.setOut n u).maxlen = s.maxlen := rfl
@[simp] theorem State.setOut_mem (n : Nat) (u : Bool) : (s.setOut n u).mem = s.mem := rfl
@[simp] theorem State.setOut_seq (n : Nat) (u : Bool) : (s.setOut n u).seq = s.seq := rfl
@[simp] theorem State.setOut_master (n : Nat) (u : Bool) : (s.setOut n u).master = s.master := rfl
@[simp] theorem State.setOut_fit (n : Nat) (u : Bool) : (s.setOut n u).fit = s.fit := rfl
@[simp] theorem State.setOut_draws (n : Nat) (u : Bool) : (s.setOut n u).draws = s.draws := rfl

/-! ## drawObuf -/

@[simp] theorem State.drawObuf_ie : s.drawObuf.ie = s.ie := rfl
@[simp] theorem State.drawObuf_status : s.drawObuf.status = s.status := rfl
@[simp] theorem State.drawObuf_padlen : s.drawObuf.padlen = s.padlen := rfl
@[simp] theorem State.drawObuf_inLen : s.drawObuf.inLen = s.inLen := rfl
@[simp] theorem State.drawObuf_outLen : s.drawObuf.outLen = s.outLen := rfl
@[simp] theorem State.drawObuf_errInfo : s.drawObuf.errInfo = s.errInfo := rfl
@[simp] theorem State.drawObuf_nsym : s.drawObuf.nsym = s.nsym := rfl
@[simp] theorem State.drawObuf_maxlen : s.drawObuf.maxlen = s.maxlen := rfl
@[simp] theorem State.drawObuf_mem : s.drawObuf.mem = { s.mem with obuf := ⟨s.draws, []⟩ } := rfl
@[simp] theorem State.drawObuf_seq : s.drawObuf.seq = s.seq := rfl
@[simp] theorem State.drawObuf_master : s.drawObuf.master = s.master := rfl
@[simp] theorem State.drawObuf_fit : s.drawObuf.fit = s.fit := rfl
@[simp] theorem State.drawObuf_draws : s.drawObuf.draws = s.draws + 1 := rfl

/-! ## drawIbuf -/

@[simp] theorem State.drawIbuf_ie : s.drawIbuf.ie = s.ie := rfl
@[simp] theorem State.drawIbuf_status : s.drawIbuf.status = s.status := rfl
@[simp] theorem State.drawIbuf_padlen : s.drawIbuf.padlen = s.padlen := rfl
@[simp] theorem State.drawIbuf_inLen : s.drawIbuf.inLen = s.inLen := rfl
@[simp] theorem State.drawIbuf_outLen : s.drawIbuf.outLen = s.outLen := rfl
@[simp] theorem State.drawIbuf_errInfo : s.drawIbuf.errInfo = s.errInfo := rfl
@[simp] theorem State.drawIbuf_nsym : s.drawIbuf.nsym = s.nsym := rfl
@[simp] theorem State.drawIbuf_maxlen : s.drawIbuf.maxlen = s.maxlen := rfl
@[simp] theorem State.drawIbuf_mem : s.drawIbuf.mem = { s.mem with ibuf := ⟨s.draws, []⟩ } := rfl
@[simp] theorem State.drawIbuf_seq : s.drawIbuf.seq = s.seq := rfl
@[simp] theorem State.drawIbuf_master : s.drawIbuf.master = s.master := rfl
@[simp] theorem State.drawIbuf_fit : s.drawIbuf.fit = s.fit := rfl
@[simp] theorem State.drawIbuf_draws : s.drawIbuf.draws = s.draws + 1 := rfl

/-! ## drawFreq -/

@[simp] theorem State.drawFreq_ie : s.drawFreq.ie = s.ie := rfl
@[simp] theorem State.drawFreq_status : s.drawFreq.status = s.status := rfl
@[simp] theorem State.drawFreq_padlen : s.drawFreq.padlen = s.padlen := rfl
@[simp] theorem State.drawFreq_inLen : s.drawFreq.inLen = s.inLen := rfl
@[simp] theorem State.drawFreq_outLen : s.drawFreq.outLen = s.outLen := rfl
@[simp] theorem State.drawFreq_errInfo : s.drawFreq.errInfo = s.errInfo := rfl
@[simp] theorem State.drawFreq_nsym : s.drawFreq.nsym = s.nsym := rfl
@[simp] theorem State.drawFreq_maxlen : s.drawFreq.maxlen = s.maxlen := rfl
@[simp] theorem State.drawFreq_mem : s.drawFreq.mem = { s.mem with freq := ⟨s.draws, []⟩ } := rfl
@[simp] theorem State.drawFreq_seq : s.drawFreq.seq = s.seq := rfl
@[simp] theorem State.drawFreq_master : s.drawFreq.master = s.master := rfl
@[simp] theorem State.drawFreq_fit : s.drawFreq.fit = s.fit := rfl
@[simp] theorem State.drawFreq_draws : s.drawFreq.draws = s.draws + 1 := rfl

/-! ## drawCtab -/

@[simp] theorem State.drawCtab_ie : s.drawCtab.ie = s.ie := rfl
@[simp] theorem State.drawCtab_status : s.drawCtab.status = s.status := rfl
@[simp] theorem State.drawCtab_padlen : s.drawCtab.padlen = s.padlen := rfl
@[simp] theorem State.drawCtab_inLen : s.drawCtab.inLen = s.inLen := rfl
@[simp] theorem State.drawCtab_outLen : s.drawCtab.outLen = s.outLen := rfl
@[simp] theorem State.drawCtab_errInfo : s.drawCtab.errInfo = s.errInfo := rfl
@[simp] theorem State.drawCtab_nsym : s.drawCtab.nsym = s.nsym := rfl
@[simp] theorem State.drawCtab_maxlen : s.drawCtab.maxlen = s.maxlen := rfl
@[simp] theorem State.drawCtab_mem : s.drawCtab.mem = { s.mem with ctab := ⟨s.draws, []⟩ } := rfl
@[simp] theorem State.drawCtab_seq : s.drawCtab.seq = s.seq := rfl
@[simp] theorem State.drawCtab_master : s.drawCtab.master = s.master := rfl
@[simp] theorem State.drawCtab_fit : s.drawCtab.fit = s.fit := rfl
@[simp] theorem State.drawCtab_draws : s.drawCtab.draws = s.draws + 1 := rfl

/-! ## dropWrite -/

@[simp] theorem State.dropWrite_ie : s.dropWrite.ie = s.ie := rfl
@[simp] theorem State.dropWrite_status : s.dropWrite.status = { s.status with wdrop := true } := rfl
@[simp] theorem State.dropWrite_padlen : s.dropWrite.padlen = s.padlen := rfl
@[simp] theorem State.dropWrite_inLen : s.dropWrite.inLen = s.inLen := rfl
@[simp] theorem State.dropWrite_outLen : s.dropWrite.outLen = s.outLen := rfl
@[simp] theorem State.dropWrite_errInfo : s.dropWrite.errInfo = s.errInfo := rfl
@[simp] theorem State.dropWrite_nsym : s.dropWrite.nsym = s.nsym := rfl
@[simp] theorem State.dropWrite_maxlen : s.dropWrite.maxlen = s.maxlen := rfl
@[simp] theorem State.dropWrite_mem : s.dropWrite.mem = s.mem := rfl
@[simp] theorem State.dropWrite_seq : s.dropWrite.seq = s.seq := rfl
@[simp] theorem State.dropWrite_master : s.dropWrite.master = s.master := rfl
@[simp] theorem State.dropWrite_fit : s.dropWrite.fit = s.fit := rfl
@[simp] theorem State.dropWrite_draws : s.dropWrite.draws = s.draws := rfl

/-! ## settle -/

@[simp] theorem State.settle_ie : s.settle.ie = s.ie := rfl
@[simp] theorem State.settle_status : s.settle.status = { s.status with done := true } := rfl
@[simp] theorem State.settle_padlen : s.settle.padlen = s.padlen := rfl
@[simp] theorem State.settle_inLen : s.settle.inLen = s.inLen := rfl
@[simp] theorem State.settle_outLen : s.settle.outLen = s.outLen := rfl
@[simp] theorem State.settle_errInfo : s.settle.errInfo = s.errInfo := rfl
@[simp] theorem State.settle_nsym : s.settle.nsym = s.nsym := rfl
@[simp] theorem State.settle_maxlen : s.settle.maxlen = s.maxlen := rfl
@[simp] theorem State.settle_mem : s.settle.mem = s.mem := rfl
@[simp] theorem State.settle_seq : s.settle.seq = .idle := rfl
@[simp] theorem State.settle_master : s.settle.master = s.master := rfl
@[simp] theorem State.settle_fit : s.settle.fit = s.fit := rfl
@[simp] theorem State.settle_draws : s.settle.draws = s.draws := rfl

/-! ## resetRegs -/

@[simp] theorem State.resetRegs_ie : s.resetRegs.ie = false := rfl
@[simp] theorem State.resetRegs_status : s.resetRegs.status = Status.zero := rfl
@[simp] theorem State.resetRegs_padlen : s.resetRegs.padlen = 5 := rfl
@[simp] theorem State.resetRegs_inLen : s.resetRegs.inLen = 0 := rfl
@[simp] theorem State.resetRegs_outLen : s.resetRegs.outLen = 0 := rfl
@[simp] theorem State.resetRegs_errInfo : s.resetRegs.errInfo = 0 := rfl
@[simp] theorem State.resetRegs_nsym : s.resetRegs.nsym = 0 := rfl
@[simp] theorem State.resetRegs_maxlen : s.resetRegs.maxlen = 0 := rfl
@[simp] theorem State.resetRegs_mem : s.resetRegs.mem = s.mem := rfl
@[simp] theorem State.resetRegs_seq : s.resetRegs.seq = .idle := rfl
@[simp] theorem State.resetRegs_master : s.resetRegs.master = s.master := rfl
@[simp] theorem State.resetRegs_fit : s.resetRegs.fit = s.fit := rfl
@[simp] theorem State.resetRegs_draws : s.resetRegs.draws = s.draws := rfl

/-! ## clearFlags -/

@[simp] theorem State.clearFlags_ie (v : Word) : (s.clearFlags v).ie = s.ie := rfl
@[simp] theorem State.clearFlags_status (v : Word) : (s.clearFlags v).status = { s.status with
      done := s.status.done && !v.getLsbD 1, err := s.status.err && !v.getLsbD 2, wdrop := s.status.wdrop && !v.getLsbD 3 } := rfl
@[simp] theorem State.clearFlags_padlen (v : Word) : (s.clearFlags v).padlen = s.padlen := rfl
@[simp] theorem State.clearFlags_inLen (v : Word) : (s.clearFlags v).inLen = s.inLen := rfl
@[simp] theorem State.clearFlags_outLen (v : Word) : (s.clearFlags v).outLen = s.outLen := rfl
@[simp] theorem State.clearFlags_errInfo (v : Word) : (s.clearFlags v).errInfo = s.errInfo := rfl
@[simp] theorem State.clearFlags_nsym (v : Word) : (s.clearFlags v).nsym = s.nsym := rfl
@[simp] theorem State.clearFlags_maxlen (v : Word) : (s.clearFlags v).maxlen = s.maxlen := rfl
@[simp] theorem State.clearFlags_mem (v : Word) : (s.clearFlags v).mem = s.mem := rfl
@[simp] theorem State.clearFlags_seq (v : Word) : (s.clearFlags v).seq = s.seq := rfl
@[simp] theorem State.clearFlags_master (v : Word) : (s.clearFlags v).master = s.master := rfl
@[simp] theorem State.clearFlags_fit (v : Word) : (s.clearFlags v).fit = s.fit := rfl
@[simp] theorem State.clearFlags_draws (v : Word) : (s.clearFlags v).draws = s.draws := rfl

/-! ## accept -/

@[simp] theorem State.accept_ie (n : Nat) (w : Word) : (s.accept n w).ie = s.ie := rfl
@[simp] theorem State.accept_status (n : Nat) (w : Word) : (s.accept n w).status = { s.status with
      done := false, err := false, errCode := .noError, tvalid := !isBuild (s.command w) && s.status.tvalid } := rfl
@[simp] theorem State.accept_padlen (n : Nat) (w : Word) : (s.accept n w).padlen = s.padlen := rfl
@[simp] theorem State.accept_inLen (n : Nat) (w : Word) : (s.accept n w).inLen = s.inLen := rfl
@[simp] theorem State.accept_outLen (n : Nat) (w : Word) : (s.accept n w).outLen = s.outLen := rfl
@[simp] theorem State.accept_errInfo (n : Nat) (w : Word) : (s.accept n w).errInfo = 0 := rfl
@[simp] theorem State.accept_nsym (n : Nat) (w : Word) : (s.accept n w).nsym = if isBuild (s.command w) then 0 else s.nsym := rfl
@[simp] theorem State.accept_maxlen (n : Nat) (w : Word) : (s.accept n w).maxlen = if isBuild (s.command w) then 0 else s.maxlen := rfl
@[simp] theorem State.accept_mem (n : Nat) (w : Word) : (s.accept n w).mem = s.mem := rfl
@[simp] theorem State.accept_seq (n : Nat) (w : Word) : (s.accept n w).seq = .busy ⟨w, s.padlen, s.inLen, s.mem.freq, s.mem.ibuf⟩ n := rfl
@[simp] theorem State.accept_master (n : Nat) (w : Word) : (s.accept n w).master = s.master := rfl
@[simp] theorem State.accept_fit (n : Nat) (w : Word) : (s.accept n w).fit = s.fit := rfl
@[simp] theorem State.accept_draws (n : Nat) (w : Word) : (s.accept n w).draws = s.draws := rfl

/-! ## setFreq -/

@[simp] theorem State.setFreq_ie (ws : List Word) : (s.setFreq ws).ie = s.ie := rfl
@[simp] theorem State.setFreq_status (ws : List Word) : (s.setFreq ws).status = s.status := rfl
@[simp] theorem State.setFreq_padlen (ws : List Word) : (s.setFreq ws).padlen = s.padlen := rfl
@[simp] theorem State.setFreq_inLen (ws : List Word) : (s.setFreq ws).inLen = s.inLen := rfl
@[simp] theorem State.setFreq_outLen (ws : List Word) : (s.setFreq ws).outLen = s.outLen := rfl
@[simp] theorem State.setFreq_errInfo (ws : List Word) : (s.setFreq ws).errInfo = s.errInfo := rfl
@[simp] theorem State.setFreq_nsym (ws : List Word) : (s.setFreq ws).nsym = s.nsym := rfl
@[simp] theorem State.setFreq_maxlen (ws : List Word) : (s.setFreq ws).maxlen = s.maxlen := rfl
@[simp] theorem State.setFreq_mem (ws : List Word) : (s.setFreq ws).mem = { s.mem with freq := s.mem.freq.setFreq ws } := rfl
@[simp] theorem State.setFreq_seq (ws : List Word) : (s.setFreq ws).seq = s.seq := rfl
@[simp] theorem State.setFreq_master (ws : List Word) : (s.setFreq ws).master = s.master := rfl
@[simp] theorem State.setFreq_fit (ws : List Word) : (s.setFreq ws).fit = s.fit := rfl
@[simp] theorem State.setFreq_draws (ws : List Word) : (s.setFreq ws).draws = s.draws := rfl

/-! ## setTable -/

@[simp] theorem State.setTable_ie (codes : List CodeEntry) (m : Nat) : (s.setTable codes m).ie = s.ie := rfl
@[simp] theorem State.setTable_status (codes : List CodeEntry) (m : Nat) : (s.setTable codes m).status = { s.status with tvalid := true } := rfl
@[simp] theorem State.setTable_padlen (codes : List CodeEntry) (m : Nat) : (s.setTable codes m).padlen = s.padlen := rfl
@[simp] theorem State.setTable_inLen (codes : List CodeEntry) (m : Nat) : (s.setTable codes m).inLen = s.inLen := rfl
@[simp] theorem State.setTable_outLen (codes : List CodeEntry) (m : Nat) : (s.setTable codes m).outLen = s.outLen := rfl
@[simp] theorem State.setTable_errInfo (codes : List CodeEntry) (m : Nat) : (s.setTable codes m).errInfo = s.errInfo := rfl
@[simp] theorem State.setTable_nsym (codes : List CodeEntry) (m : Nat) : (s.setTable codes m).nsym = BitVec.ofNat 9 codes.length := rfl
@[simp] theorem State.setTable_maxlen (codes : List CodeEntry) (m : Nat) : (s.setTable codes m).maxlen = BitVec.ofNat 6 m := rfl
@[simp] theorem State.setTable_mem (codes : List CodeEntry) (m : Nat) : (s.setTable codes m).mem = { s.mem with ctab := s.mem.ctab.setCtab (ctabWords codes) } := rfl
@[simp] theorem State.setTable_seq (codes : List CodeEntry) (m : Nat) : (s.setTable codes m).seq = s.seq := rfl
@[simp] theorem State.setTable_master (codes : List CodeEntry) (m : Nat) : (s.setTable codes m).master = s.master := rfl
@[simp] theorem State.setTable_fit (codes : List CodeEntry) (m : Nat) : (s.setTable codes m).fit = s.fit := rfl
@[simp] theorem State.setTable_draws (codes : List CodeEntry) (m : Nat) : (s.setTable codes m).draws = s.draws := rfl

/-! ## nextLine -/

@[simp] theorem State.nextLine_ie : s.nextLine.ie = s.ie := rfl
@[simp] theorem State.nextLine_status : s.nextLine.status = s.status := rfl
@[simp] theorem State.nextLine_padlen : s.nextLine.padlen = s.padlen := rfl
@[simp] theorem State.nextLine_inLen : s.nextLine.inLen = s.inLen := rfl
@[simp] theorem State.nextLine_outLen : s.nextLine.outLen = s.outLen := rfl
@[simp] theorem State.nextLine_errInfo : s.nextLine.errInfo = s.errInfo := rfl
@[simp] theorem State.nextLine_nsym : s.nextLine.nsym = s.nsym := rfl
@[simp] theorem State.nextLine_maxlen : s.nextLine.maxlen = s.maxlen := rfl
@[simp] theorem State.nextLine_mem : s.nextLine.mem = s.mem := rfl
@[simp] theorem State.nextLine_seq : s.nextLine.seq = s.seq := rfl
@[simp] theorem State.nextLine_master : s.nextLine.master = { s.master with pc := s.master.pc + 1 } := rfl
@[simp] theorem State.nextLine_fit : s.nextLine.fit = s.fit := rfl
@[simp] theorem State.nextLine_draws : s.nextLine.draws = s.draws := rfl

/-! ## record -/

@[simp] theorem State.record_ie (name : Nat) (v : Word) : (s.record name v).ie = s.ie := rfl
@[simp] theorem State.record_status (name : Nat) (v : Word) : (s.record name v).status = s.status := rfl
@[simp] theorem State.record_padlen (name : Nat) (v : Word) : (s.record name v).padlen = s.padlen := rfl
@[simp] theorem State.record_inLen (name : Nat) (v : Word) : (s.record name v).inLen = s.inLen := rfl
@[simp] theorem State.record_outLen (name : Nat) (v : Word) : (s.record name v).outLen = s.outLen := rfl
@[simp] theorem State.record_errInfo (name : Nat) (v : Word) : (s.record name v).errInfo = s.errInfo := rfl
@[simp] theorem State.record_nsym (name : Nat) (v : Word) : (s.record name v).nsym = s.nsym := rfl
@[simp] theorem State.record_maxlen (name : Nat) (v : Word) : (s.record name v).maxlen = s.maxlen := rfl
@[simp] theorem State.record_mem (name : Nat) (v : Word) : (s.record name v).mem = s.mem := rfl
@[simp] theorem State.record_seq (name : Nat) (v : Word) : (s.record name v).seq = s.seq := rfl
@[simp] theorem State.record_master (name : Nat) (v : Word) : (s.record name v).master = { s.master with pc := s.master.pc + 1, reads := (name, v) :: s.master.reads } := rfl
@[simp] theorem State.record_fit (name : Nat) (v : Word) : (s.record name v).fit = s.fit := rfl
@[simp] theorem State.record_draws (name : Nat) (v : Word) : (s.record name v).draws = s.draws := rfl

/-! ## goTo -/

@[simp] theorem State.goTo_ie (target : Nat) : (s.goTo target).ie = s.ie := rfl
@[simp] theorem State.goTo_status (target : Nat) : (s.goTo target).status = s.status := rfl
@[simp] theorem State.goTo_padlen (target : Nat) : (s.goTo target).padlen = s.padlen := rfl
@[simp] theorem State.goTo_inLen (target : Nat) : (s.goTo target).inLen = s.inLen := rfl
@[simp] theorem State.goTo_outLen (target : Nat) : (s.goTo target).outLen = s.outLen := rfl
@[simp] theorem State.goTo_errInfo (target : Nat) : (s.goTo target).errInfo = s.errInfo := rfl
@[simp] theorem State.goTo_nsym (target : Nat) : (s.goTo target).nsym = s.nsym := rfl
@[simp] theorem State.goTo_maxlen (target : Nat) : (s.goTo target).maxlen = s.maxlen := rfl
@[simp] theorem State.goTo_mem (target : Nat) : (s.goTo target).mem = s.mem := rfl
@[simp] theorem State.goTo_seq (target : Nat) : (s.goTo target).seq = s.seq := rfl
@[simp] theorem State.goTo_master (target : Nat) : (s.goTo target).master = { s.master with pc := target } := rfl
@[simp] theorem State.goTo_fit (target : Nat) : (s.goTo target).fit = s.fit := rfl
@[simp] theorem State.goTo_draws (target : Nat) : (s.goTo target).draws = s.draws := rfl

end Sys2Proof.Machine
end

