-- ==== Sys2Proof/Laws/Bus.lean ====
section
/-! SUPPORT. The bus said once: which place an offset selects, and what one read or write does there, IDLE or BUSY. -/

namespace Sys2Proof.Machine

/-! ## Offsets -/

/-- The word offset is the offset without its two low bits (20_memory.md R62). -/
theorem wordOffset_eq (off : BitVec 16) : wordOffset off = off.toNat - off.toNat % 4 := by
  have low : off.toNat &&& 65532 = off.toNat / 4 * 4 := by
    have h := off.isLt
    have e : (65532 : Nat) = 16383 <<< 2 := rfl
    rw [e, ← Nat.shiftRight_eq_div_pow (m := off.toNat) (n := 2), ← Nat.shiftLeft_eq _ 2]
    refine Nat.eq_of_testBit_eq fun i => ?_
    rw [Nat.testBit_and, Nat.testBit_shiftLeft, Nat.testBit_shiftLeft, Nat.testBit_shiftRight]
    have m : (16383 : Nat) = 2 ^ 14 - 1 := rfl
    rw [m, Nat.testBit_two_pow_sub_one]
    by_cases h2 : 2 ≤ i
    · have : 2 + (i - 2) = i := by omega
      by_cases h16 : i < 16
      · have h3 : i - 2 < 14 := by omega
        simp [h2, h3, this]
      · have hf : off.toNat.testBit i = false :=
          Nat.testBit_lt_two_pow (h.trans_le (Nat.pow_le_pow_right (by omega) (by omega)))
        simp [hf, this]
    · simp [h2]
  rw [wordOffset, BitVec.toNat_and]
  show off.toNat &&& 65532 = _
  omega

/-- An aligned offset of the window is its own word offset. -/
theorem wordOffset_ofNat {a : Nat} (h : a < 65536) (h4 : a % 4 = 0) : wordOffset (BitVec.ofNat 16 a) = a := by
  rw [wordOffset_eq, BitVec.toNat_ofNat, Nat.mod_eq_of_lt (by simpa using h)]
  omega

theorem wordOffset_mod_four (off : BitVec 16) : wordOffset off % 4 = 0 := by rw [wordOffset_eq]; omega

/-! ## Places -/

/-- The thirteen registers' offsets end at 0x0030. -/
theorem locateReg_reserved {a : Nat} (h : 0x0034 ≤ a) : locateReg a = .reserved := by
  unfold locateReg
  split <;> first | rfl | omega

theorem locateWord_reserved {a : Nat} (h : (0x0034 ≤ a ∧ a < 0x0400) ∨ 0x3000 ≤ a) : locateWord a = .reserved := by
  rw [locateWord]
  rcases h with ⟨h1, h2⟩ | h
  · rw [if_pos h2, locateReg_reserved h1]
  · rw [if_neg (by omega), if_neg (by omega), if_neg (by omega), if_neg (by omega), if_neg (by omega)]

theorem locateWord_freq {a : Nat} (h : 0x0400 ≤ a) (h' : a < 0x0800) : locateWord a = .freq a := by
  rw [locateWord, if_neg (by omega), if_pos h']

theorem locateWord_ctab {a : Nat} (h : 0x0800 ≤ a) (h' : a < 0x1000) : locateWord a = .ctab a := by
  rw [locateWord, if_neg (by omega), if_neg (by omega), if_pos h']

theorem locateWord_ibuf {a : Nat} (h : 0x1000 ≤ a) (h' : a < 0x2000) : locateWord a = .ibuf a := by
  rw [locateWord, if_neg (by omega), if_neg (by omega), if_neg (by omega), if_pos h']

theorem locateWord_obuf {a : Nat} (h : 0x2000 ≤ a) (h' : a < 0x3000) : locateWord a = .obuf a := by
  rw [locateWord, if_neg (by omega), if_neg (by omega), if_neg (by omega), if_neg (by omega), if_pos h']

/-- The place an offset selects, by its word offset. -/
theorem locate_of {off : BitVec 16} {a : Nat} {l : Loc} (h : wordOffset off = a) (hl : locateWord a = l) : locate off = l := by
  rw [locate, h, hl]

/-! ## Reads -/

theorem busy_false {s : State} (h : s.seq = .idle) : s.busy = false := by rw [State.busy, h]; rfl

/-- While IDLE every read is the value as it stands. -/
theorem State.hostRead_idle {s : State} (h : s.seq = .idle) (off : BitVec 16) :
    s.hostRead off = (s.look (locate off), s) := by
  rw [State.hostRead, busy_false h]; rfl

/-- A place outside R293's list reads as it stands at any time. -/
theorem State.hostRead_stable (s : State) {off : BitVec 16} (h : (locate off).unstable = false) :
    s.hostRead off = (s.look (locate off), s) := by
  rw [State.hostRead, h, Bool.and_false]; rfl

/-- A place of R293's list reads as a fresh draw while BUSY. -/
theorem State.hostRead_busy {s : State} (hb : s.busy = true) {off : BitVec 16} (h : (locate off).unstable = true) :
    s.hostRead off = (Config.freeWord s.draws (wordOffset off), { s with draws := s.draws + 1 }) := by
  rw [State.hostRead, h, hb]; rfl

/-! ## Writes -/

/-- A write goes to the place its offset selects. -/
theorem State.hostWrite_of (s : State) (v : Word) {off : BitVec 16} {l : Loc} (h : locate off = l) :
    s.hostWrite off v = s.store v l := by rw [State.hostWrite, h]

theorem State.unlessBusy_idle {s : State} (h : s.seq = .idle) (t : State) : s.unlessBusy t = t := by
  rw [State.unlessBusy, busy_false h]; rfl

theorem State.unlessBusy_busy {s : State} (h : s.busy = true) (t : State) : s.unlessBusy t = s.dropWrite := by
  rw [State.unlessBusy, h]; rfl

theorem State.abortDraws_master (c : Option Instr) (s : State) : (s.abortDraws c).master = s.master := by
  cases c with
  | none => rfl
  | some i => cases i <;> rfl

/-- A soft reset keeps the HOST. -/
@[simp] theorem State.softReset_master (s : State) : s.softReset.master = s.master := by
  show s.abort.master = s.master
  rw [State.abort]
  split
  · rfl
  · exact State.abortDraws_master ..

/-- No write changes the HOST. -/
@[simp] theorem State.hostWrite_master (s : State) (off : BitVec 16) (v : Word) : (s.hostWrite off v).master = s.master := by
  rw [State.hostWrite]
  cases locate off <;> simp only [State.store, State.writeCtrl, State.clearFlags, State.present, State.unlessBusy] <;>
    first | rfl | (split_ifs <;> first | rfl | exact State.softReset_master s)

/-- No read changes the HOST. -/
@[simp] theorem State.hostRead_master (s : State) (off : BitVec 16) : (s.hostRead off).2.master = s.master := by
  rw [State.hostRead]
  split_ifs <;> rfl

/-- CTAB_LEN and CTAB_CODE of a symbol stand at their offsets (10_state.md R34). -/
theorem Table.ctabAll_getElem? (st : Table) {k : Nat} (h : k < 512) : st.ctabAll[k]? = some (st.ctabAt (0x0800 + 4 * k)) := by
  simp [Table.ctabAll, Table.ctabAt, Store.window_eq_map _ 4 (by omega), h]

/-- A FREQ entry stands at its offset (10_state.md R33). -/
theorem Table.freqWords_getElem? (st : Table) {n : Nat} (h : n < 256) :
    st.freqWords[n]? = some (st.freqAt (0x0400 + 4 * n)) := by
  simp [Table.freqWords, Table.freqAt, Store.window_eq_map _ 4 (by omega), h]

end Sys2Proof.Machine
end

