-- ==== Sys2Proof/Laws/Ends.lean ====
section
/-! SUPPORT. How commands end, said once: the result of a body settles or raises; what a raise writes; and the frames over memory
byte by byte. -/

namespace Sys2Proof.Machine

/-! ## finish, raise, discard -/

@[simp] theorem State.finish_ok (c : Option Instr) (s t : State) : s.finish c (.ok t) = t.settle := rfl

@[simp] theorem State.finish_error (c : Option Instr) (s : State) (f : Failure) : s.finish c (.error f) = s.raise c f := rfl

/-- What `raise` writes beside R117's row for the command. -/
theorem State.raise_eq (c : Option Instr) (f : Failure) (s : State) :
    s.raise c f = { s.discard c with
      status := { (s.discard c).status with done := true, err := true, errCode := f.code }
      errInfo := f.info
      seq := .idle } := rfl

/-- What R117's row for a command can change: OBUF, OUT_LEN and OUTU, or CTAB, or CTAB and FREQ; never anything else. -/
theorem State.discard_cases (c : Option Instr) (s : State) :
    (∃ u, s.discard c = s.drawObuf.setOut 0 u) ∨ s.discard c = s.drawCtab ∨
      s.discard c = { s with mem := { s.mem with freq := s.mem.freq.setFreq s.fit.defaultFreq.entries } }.drawCtab ∨
      s.discard c = s := by
  cases c with
  | none => simp [State.discard]
  | some i => cases i <;> simp [State.discard]

/-! ## Frames over memory -/

theorem byteAt_eq_of_mem {s t : State} (h : t.mem = s.mem) : KeptAll s t := fun a => by rw [h]

/-- A write into OBUF keeps every byte outside the bytes written. -/
theorem keptOutside_obufWrite {s t : State} (bs : List Byte)
    (h : t.mem = { s.mem with obuf := s.mem.obuf.write 1 0x2000 bs }) :
    KeptOutside 0x2000 (0x2000 + bs.length) s t := by
  intro a ha
  rw [h]
  simp only [Memory.byteAt]
  split_ifs <;> try rfl
  refine Store.get_write_after _ _ _ _ (by omega) _ _ ?_
  omega

/-- Any change of OBUF alone keeps every byte outside it. -/
theorem keptOutside_obuf {s t : State} (st : Bytes) (h : t.mem = { s.mem with obuf := st }) :
    KeptOutside 0x2000 0x3000 s t := by
  intro a ha
  rw [h]
  simp only [Memory.byteAt]
  split_ifs <;> first | rfl | omega

/-- A write into IBUF keeps every byte outside the bytes written. -/
theorem keptOutside_ibufWrite {s t : State} (base : Nat) (bs : List Byte)
    (h : t.mem = { s.mem with ibuf := s.mem.ibuf.write 1 base bs }) :
    KeptOutside base (base + bs.length) s t := by
  intro a ha
  rw [h]
  simp only [Memory.byteAt]
  split_ifs <;> try rfl
  rcases ha with ha | ha
  · exact Store.get_write_before _ _ _ _ _ _ ha
  · exact Store.get_write_after _ _ _ _ (by omega) _ _ (by omega)

/-- Any change of FREQ alone keeps every byte outside it. -/
theorem keptOutside_freq {s t : State} (st : Table) (h : t.mem = { s.mem with freq := st }) :
    KeptOutside 0x0400 0x0800 s t := by
  intro a ha
  rw [h]
  simp only [Memory.byteAt]
  split_ifs <;> first | rfl | omega

/-- Any change of CTAB alone keeps every byte outside it. -/
theorem keptOutside_ctab {s t : State} (st : Table) (h : t.mem = { s.mem with ctab := st }) :
    KeptOutside 0x0800 0x1000 s t := by
  intro a ha
  rw [h]
  simp only [Memory.byteAt]
  split_ifs <;> first | rfl | omega

/-- Any change of FREQ and CTAB keeps every byte outside them. -/
theorem keptOutside_tables {s t : State} (st su : Table) (h : t.mem = { s.mem with freq := st, ctab := su }) :
    KeptOutside 0x0400 0x1000 s t := by
  intro a ha
  rw [h]
  simp only [Memory.byteAt]
  split_ifs <;> first | rfl | omega

/-- A write of one FREQ entry keeps every byte outside it. -/
theorem keptOutside_freqEntry {s t : State} (n : Nat) (v : Word)
    (h : t.mem = { s.mem with freq := s.mem.freq.write 4 (0x0400 + 4 * n) [v] }) :
    KeptOutside (0x0400 + 4 * n) (0x0400 + 4 * n + 4) s t := by
  intro a ha
  rw [h]
  simp only [Memory.byteAt]
  split_ifs <;> try rfl
  congr 1
  simp only [Table.freqAt]
  congr 1
  rcases ha with ha | ha
  · exact Store.get_write_before _ _ _ _ _ _ (by omega)
  · exact Store.get_write_after _ _ _ _ (by omega) _ _ (by simp only [List.length_cons, List.length_nil]; omega)

/-! ## The two ends of a command with output -/

/-- A body that writes bytes and sets OUT_LEN and OUTU makes the command an `Outputs`. -/
theorem outputs_of_body {i : Instr} {c : Option Instr} {s : State} {body : Except Failure State} {u : Bool} {n : Nat}
    {bs : List Byte} (he : exec i s = .next (s.finish c body)) (hb : body = .ok ((s.writeBytes bs).setOut n u)) :
    Outputs i s u n bs := by
  refine ⟨_, he, ?_⟩
  subst hb
  refine ⟨⟨rfl, rfl, rfl, rfl, rfl⟩, rfl, rfl, ?_, ⟨rfl, rfl, rfl, rfl, rfl⟩, ⟨rfl, rfl, rfl⟩, rfl,
    keptOutside_obufWrite bs rfl⟩
  exact Store.window_write _ 1 (by omega) _ _ _

/-- A body of a command with output that ends in an error makes the command a `Raises`. -/
theorem raises_of_body {i : Instr} {c : Option Instr} {s : State} {body : Except Failure State} {u : Bool} {f : Failure}
    (he : exec i s = .next (s.finish c body)) (hd : s.discard c = s.drawObuf.setOut 0 u) (hb : body = .error f) :
    Raises i s u f.code f.info := by
  refine ⟨_, he, ?_⟩
  subst hb
  simp only [State.finish_error, State.raise_eq, hd]
  exact ⟨⟨rfl, rfl, rfl, rfl, rfl⟩, rfl, rfl, ⟨rfl, rfl, rfl, rfl, rfl⟩, ⟨rfl, rfl, rfl⟩, rfl, keptOutside_obuf _ rfl⟩

/-- A build's body that ends in an error without having written FREQ makes the command a `BuildRaises`. -/
theorem buildRaises_of_body {i : Instr} {c : Option Instr} {s : State} {body : Except Failure State} {f : Failure}
    (he : exec i s = .next (s.finish c body)) (hd : s.discard c = s.drawCtab) (hb : body = .error f) :
    BuildRaises i s f.code f.info := by
  refine ⟨_, he, ?_⟩
  subst hb
  simp only [State.finish_error, State.raise_eq, hd]
  exact ⟨⟨rfl, rfl, rfl, rfl, rfl⟩, ⟨rfl, rfl, rfl, rfl, rfl⟩, ⟨rfl, rfl, rfl⟩, ⟨rfl, rfl⟩, rfl, keptOutside_ctab _ rfl⟩

/-- CTAB just written reads back. -/
theorem Table.ctabAll_setCtab (ws : List Word) (h : ws.length = 512) (st : Table) : (st.setCtab ws).ctabAll = ws := by
  rw [Table.ctabAll, Table.setCtab, ← h]
  exact Store.window_write _ 4 (by omega) _ _ _

/-- FREQ just written reads back, with its reserved bits 0. -/
theorem Table.freqWords_setFreq (ws : List Word) (h : ws.length = 256) (st : Table) :
    (st.setFreq ws).freqWords = ws.map freqKeep := by
  have hw := Store.window_write Config.freeWord 4 (by omega) Config.freqBase (ws.map freqKeep) st
  rw [List.length_map, h] at hw
  rw [Table.freqWords, Table.setFreq, hw, List.map_map]
  refine List.map_congr_left fun w _ => ?_
  simp only [Function.comp, freqKeep, BitVec.and_assoc, BitVec.and_self]

@[simp] theorem ctabPair_length (e : Option CodeEntry) : (ctabPair e).length = 2 := by cases e <;> rfl

@[simp] theorem ctabWords_length (codes : List CodeEntry) : (ctabWords codes).length = 512 := by
  have h : (ctabWords codes).length = Config.symbols * 2 := by simp [ctabWords, List.length_flatMap]
  exact h

@[simp] theorem sampleFreq_length (t : List Byte) : (sampleFreq t).length = 256 := by simp [sampleFreq]

end Sys2Proof.Machine
end

