-- ==== Sys2Proof/Laws/Listing.lean ====
section
/-! SUPPORT. The text listing of a ROM reads back as its pairs (44_abbreviation_lookup.md R235), and a list in order stays as it is
when it is sorted again. -/

namespace Sys2Proof.Machine

/-- A line's bytes up to its newline are read as one line. -/
theorem linesFrom_line (cur line rest : List Byte) (h : ∀ b ∈ line, b ≠ newline) :
    linesFrom cur (line ++ newline :: rest) = (linesFrom [] rest).map ((cur ++ line) :: ·) := by
  induction line generalizing cur with
  | nil => simp [linesFrom]
  | cons b line ih =>
    rw [List.cons_append, linesFrom, if_neg (h b (by simp)), ih _ fun c hc => h c (by simp [hc]), List.append_assoc]
    rfl

/-- A line gives its pair back. -/
theorem linePair_line (p : Pair) (h : ∀ b ∈ p.abbr, b ≠ space) : linePair (p.abbr ++ space :: p.wrd) = some p := by
  have keep : ∀ b ∈ p.abbr, (!decide (b = space)) = true := fun b hb => by simpa using h b hb
  have stop : (!decide (space = space)) = false := by decide
  rw [linePair, List.dropWhile_append_of_pos keep, List.dropWhile_cons, List.takeWhile_append_of_pos keep, List.takeWhile_cons]
  simp

theorem isLetter_ne {b : Byte} (h : isLetter b = true) : b ≠ newline ∧ b ≠ space := by
  constructor <;> rintro rfl <;> revert h <;> decide

/-- The listing of pairs of letters reads back as these pairs. -/
theorem readListing_listing (ps : List Pair)
    (h : ∀ p ∈ ps, p.abbr.all isLetter = true ∧ p.wrd.all isLetter = true) : readListing (listing ps) = some ps := by
  have lines : linesFrom [] (listing ps) = some (ps.map fun p => p.abbr ++ space :: p.wrd) := by
    induction ps with
    | nil => rfl
    | cons p ps ih =>
      have one : listing (p :: ps) = (p.abbr ++ space :: p.wrd) ++ newline :: listing ps := by
        simp [listing, listingLine]
      rw [one, linesFrom_line, ih fun q hq => h q (by simp [hq])]
      · rfl
      · intro b hb
        obtain ⟨ha, hw⟩ := h p (by simp)
        rcases List.mem_append.mp hb with hb | hb
        · exact (isLetter_ne (List.all_eq_true.mp ha b hb)).1
        · rcases List.mem_cons.mp hb with rfl | hb
          · decide
          · exact (isLetter_ne (List.all_eq_true.mp hw b hb)).1
  rw [readListing, lines, Option.bind_some]
  clear lines
  induction ps with
  | nil => rfl
  | cons p ps ih =>
    rw [List.map_cons, List.mapM_cons, linePair_line p fun b hb =>
      (isLetter_ne (List.all_eq_true.mp (h p (by simp)).1 b hb)).2, ih fun q hq => h q (by simp [hq])]
    rfl

/-- Sorting a list that is in order changes nothing. -/
theorem sortBy_of_sorted {α : Type} (lt : α → α → Bool) (xs : List α) (h : xs.Pairwise fun x y => lt x y = true) :
    sortBy lt xs = xs := by
  induction xs with
  | nil => rfl
  | cons x xs ih =>
    obtain ⟨hx, hxs⟩ := List.pairwise_cons.mp h
    rw [sortBy, List.foldr_cons]
    change insertBy lt x (sortBy lt xs) = x :: xs
    rw [ih hxs]
    cases xs with
    | nil => rfl
    | cons y ys => rw [insertBy, if_pos (hx y (by simp))]

end Sys2Proof.Machine
end

