-- ==== Sys2Proof/Laws/Merge.lean ====
section
/-! SUPPORT. The merge of 42_code_construction.md R154: mergeLoop does what the relation Merges says, and whatever Merges ends in
has the least sum of COUNT * LEN over all lengths that meet the Kraft inequality (R156). -/

namespace Sys2Proof.Machine

/-! ## popLeast takes the least node -/

/-- In a pool of nodes with different sequence numbers, `popLeast` takes the node that is least against all others. -/
theorem popLeast_spec {pool : List Node} (hn : (pool.map Node.seq).Nodup) (h : pool ≠ []) :
    ∃ m rest, popLeast pool = some (m, rest) ∧ pool.Perm (m :: rest) ∧ LeastAgainst m rest := by
  induction pool with
  | nil => exact absurd rfl h
  | cons x xs ih =>
    obtain ⟨hx, hxs⟩ := List.nodup_cons.mp hn
    by_cases he : xs = []
    · subst he
      exact ⟨x, [], rfl, .refl _, fun z hz => by simp at hz⟩
    obtain ⟨m, rest, hp, hperm, hleast⟩ := ih hxs he
    have hne : x.seq ≠ m.seq := fun e => hx (e ▸ List.mem_map.mpr ⟨m, hperm.mem_iff.mpr (by simp), rfl⟩)
    have hb : x.before m = true ↔ x.weight < m.weight ∨ (x.weight = m.weight ∧ x.seq < m.seq) := by
      simp [Node.before]
    by_cases hxm : x.before m = true
    · refine ⟨x, xs, by simp [popLeast, hp, hxm], .refl _, fun z hz => ?_⟩
      have := hb.mp hxm
      rcases List.mem_cons.mp (hperm.mem_iff.mp hz) with rfl | hz
      · exact this
      · have := hleast z hz
        omega
    · refine ⟨m, x :: rest, by simp [popLeast, hp, hxm], (hperm.cons x).trans (.swap ..), fun z hz => ?_⟩
      rcases List.mem_cons.mp hz with rfl | hz
      · have := mt hb.mpr hxm
        omega
      · exact hleast z hz

/-- R154's loop, run with enough fuel on nodes with different sequence numbers below `next`, ends as Merges says. -/
theorem mergeLoop_merges (fuel next : Nat) (pool : List Node) (hn : (pool.map Node.seq).Nodup)
    (hlt : ∀ x ∈ pool, x.seq < next) (hne : pool ≠ []) (hf : pool.length ≤ fuel + 1) :
    ∃ root, mergeLoop fuel next pool = [root] ∧ Merges next pool root := by
  induction fuel generalizing next pool with
  | zero =>
    match pool, hne, hf with
    | [x], _, _ => exact ⟨x, rfl, .done next x⟩
  | succ fuel ih =>
    obtain ⟨x, pool1, hp, hperm, hx⟩ := popLeast_spec hn hne
    by_cases he : pool1 = []
    · subst he
      obtain rfl := List.perm_singleton.mp hperm
      exact ⟨x, by simp [mergeLoop, mergeTwo, popLeast], .done next x⟩
    have hn1 : (x.seq :: pool1.map Node.seq).Nodup := (hperm.map Node.seq).nodup_iff.mp hn
    obtain ⟨y, pool2, hp1, hperm1, hy⟩ := popLeast_spec (List.nodup_cons.mp hn1).2 he
    have hall : pool.Perm (x :: y :: pool2) := hperm.trans (hperm1.cons x)
    have hn2 : ((x :: y :: pool2).map Node.seq).Nodup := (hall.map Node.seq).nodup_iff.mp hn
    have hlt2 : ∀ z ∈ x :: y :: pool2, z.seq < next := fun z hz => hlt z (hall.mem_iff.mpr hz)
    have hlen := hall.length_eq
    obtain ⟨root, hr, hm⟩ := ih (next + 1)
      (⟨x.weight + y.weight, next, deeper (x.leaves ++ y.leaves)⟩ :: pool2)
      (by
        simp only [List.map_cons, List.nodup_cons] at hn2 ⊢
        refine ⟨fun h => ?_, hn2.2.2⟩
        obtain ⟨z, hz, e⟩ := List.mem_map.mp h
        have := hlt2 z (by simp [hz])
        omega)
      (by
        intro z hz
        rcases List.mem_cons.mp hz with rfl | hz
        · exact Nat.lt_succ_self _
        · exact Nat.lt_succ_of_lt (hlt2 z (by simp [hz])))
      (by simp) (by simp only [List.length_cons] at hlen ⊢; omega)
    refine ⟨root, by simp [mergeLoop, mergeTwo, hp, hp1, hr], .merge next pool x y pool2 root hall ?_ hy hm⟩
    intro z hz
    exact hx z (hperm1.mem_iff.mpr hz)

/-! ## The pool R154 starts from -/

theorem presentFrom_eq (s : Nat) (freq : List Word) :
    presentFrom s freq = ((List.range' s freq.length).filter fun n => (freq.getD (n - s) 0).getLsbD 31).map
      fun n => (n, countOf freq (n - s)) := by
  induction freq generalizing s with
  | nil => rfl
  | cons w ws ih =>
    have count : freqCount w = w.toNat % 2 ^ 24 := by simp [freqCount, BitVec.extractLsb'_toNat]
    have tail : presentFrom (s + 1) ws =
        ((List.range' (s + 1) ws.length).filter fun n => ((w :: ws).getD (n - s) 0).getLsbD 31).map
          fun n => (n, countOf (w :: ws) (n - s)) := by
      have shift : ∀ n ∈ List.range' (s + 1) ws.length, n - s = (n - (s + 1)) + 1 := fun n hn => by
        have := (List.mem_range'_1.mp hn).1
        omega
      rw [ih, List.filter_congr (q := fun n => ((w :: ws).getD (n - s) 0).getLsbD 31)]
      · refine List.map_congr_left fun n hn => ?_
        have := shift n (List.mem_filter.mp hn).1
        simp only [countOf, this, List.getD_cons_succ]
      · intro n hn
        simp only [shift n hn, List.getD_cons_succ]
    rw [presentFrom, List.length_cons, List.range'_succ, List.filter_cons, tail]
    simp only [Nat.sub_self, List.getD_cons_zero]
    by_cases hp : w.getLsbD 31 = true
    · rw [if_pos (by simpa [freqPresent] using hp), if_pos hp, List.map_cons]
      simp [countOf, count]
    · rw [if_neg (by simpa [freqPresent] using hp), if_neg hp]

theorem presentFrom_eq_present (freq : List Word) (h : freq.length = 256) :
    presentFrom 0 freq = (presentSymbols freq).map fun n => (n, countOf freq n) := by
  rw [presentFrom_eq, h, presentSymbols, List.range_eq_range']
  simp only [Nat.sub_zero]

theorem leafNodes_eq (k : Nat) (ps : List (Nat × Nat)) :
    leafNodes k ps = (ps.zipIdx k).map fun p => ⟨p.1.2, p.2, [(p.1.1, 0)]⟩ := by
  induction ps generalizing k with
  | nil => rfl
  | cons p ps ih => rw [leafNodes, ih, List.zipIdx_cons, List.map_cons]

theorem leafNodes_eq_mergePool (freq : List Word) (h : freq.length = 256) :
    leafNodes 0 (presentFrom 0 freq) = mergePool freq := by
  rw [presentFrom_eq_present freq h, leafNodes_eq, List.zipIdx_map, List.map_map, mergePool]
  rfl

/-- LEN of R154 and R155: for two or more present symbols, the depths of the leaves under the root the merge ends in. -/
theorem codeLengths_merges (freq : List Word) (h : freq.length = 256) (h2 : 2 ≤ (presentSymbols freq).length) :
    ∃ root, Merges (presentSymbols freq).length (mergePool freq) root ∧ codeLengths freq = root.leaves := by
  have seqs : (mergePool freq).map Node.seq = List.range' 0 (presentSymbols freq).length := by
    rw [mergePool, List.map_map, ← List.zipIdx_map_snd 0 (presentSymbols freq)]
    rfl
  have len : (mergePool freq).length = (presentSymbols freq).length := by simp [mergePool]
  obtain ⟨root, hr, hm⟩ := mergeLoop_merges (presentSymbols freq).length (presentSymbols freq).length (mergePool freq)
    (seqs ▸ List.nodup_range')
    (fun x hx => by
      have : x.seq ∈ (mergePool freq).map Node.seq := List.mem_map.mpr ⟨x, hx, rfl⟩
      rw [seqs] at this
      simpa using (List.mem_range'_1.mp this).2)
    (fun e => by simp [e] at len; omega) (by omega)
  refine ⟨root, hm, ?_⟩
  rw [← leafNodes_eq_mergePool freq h] at hr
  have plen : (presentFrom 0 freq).length = (presentSymbols freq).length := by simp [presentFrom_eq_present freq h]
  rw [codeLengths]
  split
  · next e => rw [e] at plen; simp at plen; omega
  · next e => rw [e] at plen; simp at plen; omega
  · rw [plen, hr, List.flatMap_singleton]

/-! ## Optimality (R156) -/

/-- The Kraft sum of lengths. -/
def kraft (L : List (Nat × Nat)) : ℚ := (L.map fun p => (1 / 2 : ℚ) ^ p.2).sum

/-- The sum of weight * length. -/
def cost (L : List (Nat × Nat)) : Nat := (L.map fun p => p.1 * p.2).sum

theorem kraft_perm {L M : List (Nat × Nat)} (h : L.Perm M) : kraft L = kraft M := (h.map _).sum_eq

theorem cost_perm {L M : List (Nat × Nat)} (h : L.Perm M) : cost L = cost M := (h.map _).sum_eq

@[simp] theorem kraft_cons (p : Nat × Nat) (L : List (Nat × Nat)) : kraft (p :: L) = (1 / 2 : ℚ) ^ p.2 + kraft L := by
  simp [kraft]

@[simp] theorem cost_cons (p : Nat × Nat) (L : List (Nat × Nat)) : cost (p :: L) = p.1 * p.2 + cost L := by simp [cost]

theorem kraft_nonneg (L : List (Nat × Nat)) : 0 ≤ kraft L :=
  List.sum_nonneg fun x hx => by
    obtain ⟨p, -, rfl⟩ := List.mem_map.mp hx
    positivity

theorem kraft_lengths {L M : List (Nat × Nat)} (h : (L.map Prod.snd).Perm (M.map Prod.snd)) : kraft L = kraft M := by
  have := (h.map fun l => (1 / 2 : ℚ) ^ l).sum_eq
  rw [List.map_map, List.map_map] at this
  exact this

/-- The lightest weight can take the greatest length without a higher cost, every weight and every length kept. -/
theorem exists_greatest_first (w a : Nat) (M : List (Nat × Nat)) (hw : ∀ p ∈ M, w ≤ p.1) :
    ∃ b N, (N.map Prod.fst).Perm (M.map Prod.fst) ∧ (b :: N.map Prod.snd).Perm (a :: M.map Prod.snd) ∧
      cost ((w, b) :: N) ≤ cost ((w, a) :: M) ∧ a ≤ b ∧ (∀ p ∈ N, p.2 ≤ b) := by
  induction M generalizing a with
  | nil => exact ⟨a, [], by simp, .refl _, le_rfl, le_rfl, by simp⟩
  | cons p M ih =>
    obtain ⟨z, c⟩ := p
    have hz : w ≤ z := hw (z, c) (by simp)
    by_cases h : a ≤ c
    · obtain ⟨b, N, hp, hl, hc, hcb, hb⟩ := ih c fun q hq => hw q (by simp [hq])
      refine ⟨b, (z, a) :: N, by simpa using hp.cons z, (List.Perm.swap ..).trans (hl.cons a), ?_, h.trans hcb, ?_⟩
      · simp only [cost_cons] at hc ⊢
        obtain ⟨d, rfl⟩ := Nat.exists_eq_add_of_le h
        obtain ⟨e, rfl⟩ := Nat.exists_eq_add_of_le hz
        nlinarith [Nat.zero_le (e * d)]
      · intro q hq
        rcases List.mem_cons.mp hq with rfl | hq
        · exact h.trans hcb
        · exact hb q hq
    · obtain ⟨b, N, hp, hl, hc, hab, hb⟩ := ih a fun q hq => hw q (by simp [hq])
      refine ⟨b, (z, c) :: N, by simpa using hp.cons z, ?_, ?_, hab, ?_⟩
      · exact (List.Perm.swap ..).trans ((hl.cons c).trans (.swap ..))
      · simp only [cost_cons] at hc ⊢; omega
      · intro q hq
        rcases List.mem_cons.mp hq with rfl | hq
        · show c ≤ b; omega
        · exact hb q hq

/-- Scaled by the greatest length, a Kraft sum is a whole number. -/
theorem kraft_scaled (b : Nat) (N : List (Nat × Nat)) (hb : ∀ p ∈ N, p.2 ≤ b) : ∃ k : ℕ, kraft N * 2 ^ b = k := by
  induction N with
  | nil => exact ⟨0, by simp [kraft]⟩
  | cons p N ih =>
    obtain ⟨k, hk⟩ := ih fun q hq => hb q (by simp [hq])
    refine ⟨2 ^ (b - p.2) + k, ?_⟩
    rw [kraft_cons, add_mul, hk]
    obtain ⟨d, hd⟩ := Nat.exists_eq_add_of_le (hb p (by simp))
    have : (1 / 2 : ℚ) ^ p.2 * 2 ^ b = 2 ^ d := by
      rw [hd, pow_add, ← mul_assoc, ← mul_pow]; norm_num
    rw [this, hd]
    push_cast
    simp

/-- The greatest length can shrink to the next one: a Kraft sum of at most 1 has room for it. -/
theorem kraft_shrink {x y a b : Nat} {N : List (Nat × Nat)} (hb : ∀ p ∈ N, p.2 ≤ b)
    (hk : kraft ((x, a) :: (y, b) :: N) ≤ 1) : kraft ((x, b) :: (y, b) :: N) ≤ 1 := by
  obtain ⟨k, hk'⟩ := kraft_scaled b ((y, b) :: N) (by
    intro p hp
    rcases List.mem_cons.mp hp with rfl | hp
    · exact le_rfl
    · exact hb p hp)
  have two : (0 : ℚ) < 2 ^ b := by positivity
  have one : (1 / 2 : ℚ) ^ b * 2 ^ b = 1 := by rw [← mul_pow]; norm_num
  have pos : (0 : ℚ) < (1 / 2) ^ a * 2 ^ b := by positivity
  rw [kraft_cons] at hk ⊢
  have h1 := mul_le_mul_of_nonneg_right hk two.le
  rw [add_mul, hk', one_mul] at h1
  have h2 : (k : ℚ) < 2 ^ b := by linarith
  have h3 : (k : ℚ) + 1 ≤ 2 ^ b := by exact_mod_cast h2
  refine le_of_mul_le_mul_right ?_ two
  rw [add_mul, hk', one, one_mul]
  linarith

/-- The step of Huffman's argument: lengths on x, y and the rest give lengths on the parent of the two least weights and the rest,
cheaper by the parent's weight. -/
theorem merge_lengths {x y : Nat} {W : List Nat} (hxy : x ≤ y) (hy : ∀ w ∈ W, y ≤ w) {L : List (Nat × Nat)}
    (hL : (L.map Prod.fst).Perm (x :: y :: W)) (hk : kraft L ≤ 1) :
    ∃ M, (M.map Prod.fst).Perm ((x + y) :: W) ∧ kraft M ≤ 1 ∧ cost M + (x + y) ≤ cost L := by
  -- the two least weights first
  have front : ∀ (v : Nat) (V : List Nat) (K : List (Nat × Nat)), (K.map Prod.fst).Perm (v :: V) →
      ∃ a K', K.Perm ((v, a) :: K') ∧ (K'.map Prod.fst).Perm V := by
    intro v V K h
    obtain ⟨⟨u, a⟩, hp, rfl⟩ := List.mem_map.mp (h.mem_iff.mpr (by simp : v ∈ v :: V))
    have hK := List.perm_cons_erase hp
    refine ⟨a, K.erase (u, a), hK, ?_⟩
    exact ((hK.map Prod.fst).symm.trans h).cons_inv
  obtain ⟨a, K, hLK, hK⟩ := front x (y :: W) L hL
  rw [kraft_perm hLK] at hk
  obtain ⟨a', N, hN, hl1, hc1, -, ha'⟩ := exists_greatest_first x a K fun p hp => by
    have hm : p.1 ∈ y :: W := hK.mem_iff.mp (List.mem_map.mpr ⟨p, hp, rfl⟩)
    rcases List.mem_cons.mp hm with h | h
    · omega
    · exact hxy.trans (hy _ h)
  obtain ⟨b, N1, hN1, hW⟩ := front y W N (hN.trans hK)
  obtain ⟨b', M, hM, hl2, hc2, -, hb'⟩ := exists_greatest_first y b N1 fun p hp =>
    hy _ (hW.mem_iff.mp (List.mem_map.mpr ⟨p, hp, rfl⟩))
  have hl3 : (b' :: M.map Prod.snd).Perm (N.map Prod.snd) := hl2.trans (hN1.map Prod.snd).symm
  have hba : b' ≤ a' := by
    obtain ⟨p, hp, e⟩ := List.mem_map.mp (hl3.mem_iff.mp (by simp : b' ∈ b' :: M.map Prod.snd))
    exact e ▸ ha' p hp
  have hk1 : kraft ((x, a') :: (y, b') :: M) ≤ 1 := by
    rw [kraft_lengths (M := (x, a) :: K)]
    · exact hk
    · exact (hl3.cons a').trans hl1
  have hk2 : kraft ((x, b') :: (y, b') :: M) ≤ 1 := kraft_shrink hb' hk1
  have hpos : 1 ≤ b' := by
    by_contra h
    obtain rfl : b' = 0 := by omega
    have := kraft_nonneg M
    simp only [kraft_cons, pow_zero] at hk2
    linarith
  obtain ⟨d, rfl⟩ := Nat.exists_eq_add_of_le' hpos
  refine ⟨(x + y, d) :: M, by simpa using (hM.trans hW).cons (x + y), ?_, ?_⟩
  · have half : (1 / 2 : ℚ) ^ d = (1 / 2) ^ (d + 1) + (1 / 2) ^ (d + 1) := by rw [pow_succ]; ring
    simp only [kraft_cons] at hk2 ⊢
    linarith
  · have e1 := cost_perm hLK
    have e2 := cost_perm hN1
    simp only [cost_cons] at *
    have hx := Nat.mul_le_mul_left x hba
    nlinarith

/-! ## The relation reaches the least cost -/

/-- The sum of weight * depth over a node's leaves, by a weight for each symbol. -/
def Node.cost (f : Nat → Nat) (x : Node) : Nat := (x.leaves.map fun p => f p.1 * p.2).sum

/-- A node's weight is the sum of its leaves' (R154). -/
def Node.weighs (f : Nat → Nat) (x : Node) : Prop := x.weight = (x.leaves.map fun p => f p.1).sum

/-- One deeper costs the node's weight more. -/
theorem deeper_cost (f : Nat → Nat) (ls : List (Nat × Nat)) :
    ((ls.map fun p => (p.1, p.2 + 1)).map fun p => f p.1 * p.2).sum =
      (ls.map fun p => f p.1 * p.2).sum + (ls.map fun p => f p.1).sum := by
  induction ls with
  | nil => rfl
  | cons p ls ih => simp only [List.map_cons, List.sum_cons, ih]; ring

/-- Whatever lengths that meet the Kraft inequality the pool's nodes are given, the root's leaves cost no more. -/
theorem Merges.least_cost {f : Nat → Nat} {next : Nat} {pool : List Node} {root : Node} (h : Merges next pool root)
    (hw : ∀ x ∈ pool, x.weighs f) {L : List (Nat × Nat)} (hL : (L.map Prod.fst).Perm (pool.map Node.weight))
    (hk : kraft L ≤ 1) : root.cost f ≤ (pool.map (Node.cost f)).sum + Machine.cost L := by
  induction h generalizing L with
  | done next root => simp
  | merge next pool x y rest root hperm hx hy _ ih =>
    have hw' : ∀ z ∈ x :: y :: rest, z.weighs f := fun z hz => hw z (hperm.mem_iff.mpr hz)
    have hxy : x.weight ≤ y.weight := by have := hx y (by simp); omega
    obtain ⟨M, hM, hMk, hMc⟩ := merge_lengths hxy
      (fun w hm => by obtain ⟨z, hz, rfl⟩ := List.mem_map.mp hm; have := hy z hz; omega)
      (hL.trans (hperm.map Node.weight)) hk
    have hsum := (hperm.map (Node.cost f)).sum_eq
    have hcx : x.weight = _ := hw' x (by simp)
    have hcy : y.weight = _ := hw' y (by simp)
    have key := ih (L := M) (by
      intro z hz
      rcases List.mem_cons.mp hz with rfl | hz
      · show x.weight + y.weight = _
        simp only [List.map_map, Function.comp_def, List.map_append, List.sum_append]
        rw [hcx, hcy]
      · exact hw' z (by simp [hz])) (by simpa using hM) hMk
    have parent : Node.cost f ⟨x.weight + y.weight, next, (x.leaves ++ y.leaves).map fun p => (p.1, p.2 + 1)⟩ =
        x.cost f + y.cost f + (x.weight + y.weight) := by
      simp only [Node.cost, deeper_cost, List.map_append, List.sum_append]
      rw [hcx, hcy]
      ring
    simp only [List.map_cons, List.sum_cons, parent] at key hsum
    omega

/-- R156: of all lengths for the present symbols that meet the Kraft inequality, the merge's have the least sum of
COUNT * LEN. -/
theorem Merges.optimal {freq : List Word} {next : Nat} {root : Node} (h : Merges next (mergePool freq) root)
    (len' : Nat → Nat) (hk : ((presentSymbols freq).map fun n => (1 / 2 : ℚ) ^ len' n).sum ≤ 1) :
    (root.leaves.map fun p => countOf freq p.1 * p.2).sum ≤
      ((presentSymbols freq).map fun n => countOf freq n * len' n).sum := by
  have pool : ∀ (ps : List Nat) (k : Nat) (g : Nat → Nat → Node) (w : Node → Nat), (∀ n i, w (g n i) = countOf freq n) →
      ((ps.zipIdx k).map fun p => g p.1 p.2).map w = ps.map (countOf freq) := by
    intro ps
    induction ps with
    | nil => intros; rfl
    | cons n ps ih => intro k g w hg; rw [List.zipIdx_cons, List.map_cons, List.map_cons, hg, ih _ _ _ hg]; rfl
  have zero : ((mergePool freq).map (Node.cost (countOf freq))).sum = 0 := by
    refine List.sum_eq_zero fun c hc => ?_
    simp only [mergePool, List.map_map, List.mem_map, Function.comp] at hc
    obtain ⟨p, -, rfl⟩ := hc
    simp [Node.cost]
  have key := h.least_cost (f := countOf freq) (L := (presentSymbols freq).map fun n => (countOf freq n, len' n))
    (by
      intro x hx
      obtain ⟨p, -, rfl⟩ := List.mem_map.mp hx
      simp [Node.weighs])
    (by
      rw [mergePool, pool _ _ (fun n i => ⟨countOf freq n, i, [(n, 0)]⟩) Node.weight fun _ _ => rfl, List.map_map]
      exact .refl _)
    (by simpa only [kraft, List.map_map, Function.comp_def] using hk)
  rw [zero] at key
  simpa only [Node.cost, Machine.cost, List.map_map, Function.comp_def, Nat.zero_add] using key

end Sys2Proof.Machine
end

