-- ==== Sys2Proof/Laws/PerInstr.lean ====
section
/-! SUPPORT. The family Encoding: what R91-R95 of 30_encoding.md say of each command as syntax. -/

namespace Sys2Proof.Laws.Encoding

/-- The word of a command has RSV = 0 (R91), its OPC is the command's (R93), and it decodes to the command exactly where the
command exists (R94, R95). -/
def Statement (i : Instr) : Prop :=
  rsvField (encode i) = 0 ∧ opcodeMap (opcField (encode i)) = some i ∧
    ∀ h, (WellFormed h i = true → decodeWord h (encode i) = .ok i) ∧
      (WellFormed h i = false → decodeWord h (encode i) = .error .unitAbsent)

theorem nop : Statement .nop := by unfold Statement; decide
theorem pad : Statement .pad := by unfold Statement; decide
theorem strip : Statement .strip := by unfold Statement; decide
theorem xfer : Statement .xfer := by unfold Statement; decide
theorem clearFreq : Statement .clearFreq := by unfold Statement; decide
theorem buildFreq : Statement .buildFreq := by unfold Statement; decide
theorem buildSample : Statement .buildSample := by unfold Statement; decide
theorem buildDefault : Statement .buildDefault := by unfold Statement; decide
theorem encode : Statement .encode := by unfold Statement; decide
theorem decode : Statement .decode := by unfold Statement; decide
theorem abbrW2A : Statement .abbrW2A := by unfold Statement; decide
theorem abbrA2W : Statement .abbrA2W := by unfold Statement; decide

end Sys2Proof.Laws.Encoding
end

