-- ==== Sys2Proof/Tests/Slice0.lean ====
section
/-! SUPPORT. Tests: expected results are the words of 30_encoding.md R93 and the vectors of 95_test_vectors.md (V-...), never
the model's own answers; and, for each statement with hypotheses, a witness that meets them. -/

namespace Sys2Proof.Tests

open Sys2Proof.Machine

-- One theorem at a time: many kernel evaluations at once need a thread each.
set_option Elab.async false

/-! ## Well-formedness: the one check, with terms it refuses (R94(c)) -/

theorem test_wf_refuses_w2a_without_unit : WellFormed false .abbrW2A = false := by decide
theorem test_wf_refuses_a2w_without_unit : WellFormed false .abbrA2W = false := by decide
theorem test_wf_accepts_lookup_with_unit : WellFormed true .abbrW2A = true := by decide
theorem test_wf_accepts_encode_without_unit : WellFormed false .encode = true := by decide

/-! ## Decoding: the words of R93, written out bit by bit -/

theorem test_decode_nop : decodeWord true 0b00000000000000000000000000000000 = .ok .nop := by decide
theorem test_decode_pad : decodeWord true 0b00000000000000000000000000010000 = .ok .pad := by decide
theorem test_decode_strip : decodeWord true 0b00000000000000000000000000010001 = .ok .strip := by decide
theorem test_decode_xfer : decodeWord true 0b00000000000000000000000000010010 = .ok .xfer := by decide
theorem test_decode_clearFreq : decodeWord true 0b00000000000000000000000000100000 = .ok .clearFreq := by decide
theorem test_decode_buildFreq : decodeWord true 0b00000000000000000000000000100001 = .ok .buildFreq := by decide
theorem test_decode_buildSample : decodeWord true 0b00000000000000000000000000100010 = .ok .buildSample := by decide
theorem test_decode_buildDefault : decodeWord true 0b00000000000000000000000000100011 = .ok .buildDefault := by decide
theorem test_decode_encode : decodeWord true 0b00000000000000000000000000110000 = .ok .encode := by decide
theorem test_decode_decode : decodeWord true 0b00000000000000000000000000110001 = .ok .decode := by decide
theorem test_decode_abbrW2A : decodeWord true 0b00000000000000000000000001000000 = .ok .abbrW2A := by decide
theorem test_decode_abbrA2W : decodeWord true 0b00000000000000000000000001000001 = .ok .abbrA2W := by decide

/-- V-S2: RSV = 1 with OPC 0x30. -/
theorem test_decode_rsv : decodeWord true 0x00000130 = .error .reservedBits := by decide
/-- V-S3. -/
theorem test_decode_unassigned : decodeWord true 0x00000013 = .error .unassignedOpcode := by decide
/-- V-S4. -/
theorem test_decode_ones : decodeWord true 0xFFFFFFFF = .error .reservedBits := by decide
/-- V-S5. -/
theorem test_decode_unit_absent : decodeWord false 0x00000040 = .error .unitAbsent := by decide

/-! ## Small states -/

/-- A string of letters as bytes. -/
def str (s : String) : List Byte := s.toList.map fun c => BitVec.ofNat 8 c.toNat

/-- The pairs of the ROM of V-E1. -/
def pairsE1 : List Pair := [⟨str "crt", str "cart"⟩, ⟨str "ct", str "cat"⟩, ⟨str "to", str "to"⟩]

/-- The ROM of V-E1. -/
def romE1 : AbbrRom where
  image := imageOf 2 pairsE1 [0, 1, 2]
  ok := by decide +kernel

/-- The 256 FREQ words of (symbol, count) pairs, the rest absent. -/
def freqOf (l : List (Nat × Nat)) : List Word :=
  (List.range 256).map fun n => match l.lookup n with
    | some c => word (2 ^ 31 + c)
    | none => 0

/-- A default table: V-B4's one symbol. -/
def defaultX : DefaultFreq where
  entries := freqOf [(0x78, 7)]
  ok := by decide +kernel

/-- A block with the ROM of V-E1, IBUF holding `t`, and IN_LEN and PADLEN. -/
def holding (t : List Byte) (inLen padlen : Word) : State :=
  { State.reset with
    fit := ⟨some romE1, defaultX⟩
    inLen := inLen
    padlen := padlen
    mem := { Memory.drawn 0 with ibuf := ⟨0, block 1 0x1000 t⟩ } }

/-- The same with a FREQ table. -/
def withFreq (l : List (Nat × Nat)) (s : State) : State := s.setFreq (freqOf l)

/-- V-L1's frequencies. -/
def freqT1 : List (Nat × Nat) := [(0x61, 5), (0x62, 2), (0x63, 1)]

/-- V-L1's codes: a = "0", b = "10", c = "11". -/
def codesT1 : List CodeEntry := [⟨0x61, 1, 0⟩, ⟨0x62, 2, 2⟩, ⟨0x63, 2, 3⟩]

/-- The same with table T1 (V-B1). -/
def withT1 (s : State) : State := s.setTable codesT1 2

/-- The same with table TS (V-B4): x = "0". -/
def withTS (s : State) : State := s.setTable [⟨0x78, 1, 0⟩] 1

/-- What one completion step of a word, accepted on a state, gives; the state itself where it stops. -/
def after (s : State) (w : Nat) : State :=
  match step (s.withFetchWord 32 w) with
  | .next t => t
  | .fault _ => s
  | .refused _ => s

/-- Whether a step gives a next state. -/
def goesOn (s : State) : Bool :=
  match step s with
  | .next _ => true
  | .fault _ => false
  | .refused _ => false

/-! ## Every command runs as the first one after reset -/

theorem test_all_run_from_reset :
    [0x00, 0x10, 0x11, 0x12, 0x20, 0x21, 0x22, 0x23, 0x30, 0x31, 0x40, 0x41].all
      (fun w => goesOn (State.reset.withFetchWord 32 w)) = true := by decide +kernel

/-! ## Sequencer -/

/-- V-S1. -/
theorem test_nop : (after { State.reset with status := { Status.zero with tvalid := true } } 0x00).statusWord = 0x12 := by
  decide +kernel
/-- V-S2. -/
theorem test_illegal :
    let t := after { State.reset with status := { Status.zero with tvalid := true, outu := true, done := true } } 0x130
    t.statusWord = 0x136 ∧ t.errInfo = 0x130 := by decide +kernel

/-! ## Bit buffer -/

/-- V-P1. -/
theorem test_pad : let t := after (holding [0xA5] 8 3) 0x10
    t.outLen = 11 ∧ Bytes.take 2 0x2000 t.mem.obuf = [0x14, 0xA0] ∧ t.statusWord = 0x22 := by decide +kernel
/-- V-P13: the IN_LEN check comes first. -/
theorem test_pad_error : let t := after (holding [] 32769 0xFFFFFFFF) 0x10
    t.errInfo = 0x00008001 ∧ t.statusWord = 0x226 ∧ t.outLen = 0 := by decide +kernel
/-- V-P2. -/
theorem test_strip : let t := after (holding [0xA5] 8 3) 0x11
    t.outLen = 5 ∧ Bytes.take 1 0x2000 t.mem.obuf = [0x28] := by decide +kernel
/-- V-P8. -/
theorem test_strip_error : let t := after (holding [0xA5] 8 9) 0x11
    t.errInfo = 9 ∧ t.statusWord = 0x226 := by decide +kernel

/-- A state whose last output is 4 bits, 0x20 (V-X1). -/
def outX1 : State := ((holding [1, 2] 0 5).writeBytes [0x20, 0x33]).setOut 4 true

/-- V-X1. -/
theorem test_xfer : let t := after outX1 0x12
    t.inLen = 4 ∧ Bytes.take 2 0x1000 t.mem.ibuf = [0x20, 2] ∧ t.outLen = 4 := by decide +kernel
/-- V-X5. -/
theorem test_xfer_after_reset : (after { State.reset with inLen := 7 } 0x12).inLen = 0 := by decide +kernel

/-! ## Construction -/

/-- V-B17: the table stays. -/
theorem test_clear_freq : let t := after (withT1 (withFreq freqT1 (holding [] 0 0))) 0x20
    t.look (.freq 0x0584) = 0 ∧ t.statusWord = 0x12 ∧ t.nsym = 3 := by decide +kernel
/-- V-B1, V-L1. -/
theorem test_build_freq : let t := after (withFreq freqT1 (holding [] 0 0)) 0x21
    [0x0B08, 0x0B0C, 0x0B10, 0x0B14, 0x0B18, 0x0B1C].map (fun a => t.look (.ctab a)) =
      [0x80000001, 0, 0x80000002, 2, 0x80000002, 3] ∧ t.nsym = 3 ∧ t.maxlen = 2 ∧ t.statusWord = 0x12 := by decide +kernel
/-- V-B12. -/
theorem test_build_freq_empty : let t := after (withFreq [] (holding [] 0 0)) 0x21
    t.statusWord = 0x306 ∧ t.errInfo = 0 := by decide +kernel
/-- V-B3, V-L4. -/
theorem test_build_sample : let t := after (holding (str "systems") 7 5) 0x22
    t.look (.freq 0x05CC) = 0x80000003 ∧ t.look (.freq 0x0594) = 0x80000001 ∧ t.nsym = 5 ∧ t.maxlen = 3 ∧
      t.look (.ctab 0x0BA4) = 6 := by decide +kernel
/-- V-B14. -/
theorem test_build_sample_error : let t := after (holding [] 4097 5) 0x22
    t.statusWord = 0x206 ∧ t.errInfo = 0x00001001 := by decide +kernel
/-- R169 with V-B4's frequencies in the ROM. -/
theorem test_build_default : let t := after (holding [] 0 5) 0x23
    t.look (.freq 0x05E0) = 0x80000007 ∧ t.look (.ctab 0x0BC0) = 0x80000001 ∧ t.nsym = 1 := by decide +kernel

/-- V-B6: the tie order of R154. -/
theorem test_merge_ties : buildTable (freqOf [(0x61, 1), (0x62, 1), (0x63, 1), (0x64, 1), (0x65, 1)]) =
    .table [⟨0x63, 2, 0⟩, ⟨0x64, 2, 1⟩, ⟨0x65, 2, 2⟩, ⟨0x61, 3, 6⟩, ⟨0x62, 3, 7⟩] 3 := by decide +kernel
/-- V-B7. -/
theorem test_merge_parent_after_leaves : buildTable (freqOf [(0x61, 3), (0x62, 3), (0x63, 3)]) =
    .table [⟨0x63, 1, 0⟩, ⟨0x61, 2, 2⟩, ⟨0x62, 2, 3⟩] 2 := by decide +kernel

/-! ## Codec -/

/-- V-C2. -/
theorem test_encode : let t := after (withT1 (holding (str "aab") 3 5)) 0x30
    t.outLen = 9 ∧ Bytes.take 2 0x2000 t.mem.obuf = [0x01, 0x00] ∧ t.statusWord = 0x32 := by decide +kernel
/-- V-C9: the symbol check comes before the padding check. -/
theorem test_encode_error : let t := after (withT1 (holding (str "zb") 2 0xFFFFFFFF)) 0x30
    t.statusWord = 0x436 ∧ t.errInfo = 0x0000007A := by decide +kernel
/-- V-C18. -/
theorem test_decode_text : let t := after (withT1 (holding [0xFC] 6 2)) 0x31
    t.outLen = 2 ∧ Bytes.take 2 0x2000 t.mem.obuf = str "cc" ∧ t.statusWord = 0x12 := by decide +kernel
/-- V-C19. -/
theorem test_decode_dead_end : let t := after (withTS (holding [0x40] 2 0)) 0x31
    t.statusWord = 0x516 ∧ t.errInfo = 1 := by decide +kernel

/-! ## Lookups -/

/-- V-E8. -/
theorem test_w2a : let t := after (holding (str "cart") 4 5) 0x40
    t.outLen = 3 ∧ Bytes.take 3 0x2000 t.mem.obuf = str "crt" ∧ t.statusWord = 0x02 := by decide +kernel
/-- V-E18. -/
theorem test_w2a_prefix : (after (holding (str "car") 3 5) 0x40).statusWord = 0x906 := by decide +kernel
/-- V-E11. -/
theorem test_a2w : let t := after (holding (str "ct") 2 5) 0x41
    t.outLen = 3 ∧ Bytes.take 3 0x2000 t.mem.obuf = str "cat" := by decide +kernel
/-- V-E19. -/
theorem test_a2w_empty_key : let t := after (holding [] 0 5) 0x41
    t.statusWord = 0x206 ∧ t.errInfo = 0 := by decide +kernel

/-! ## Bus, resets, HOST, generator -/

/-- R250's table, as STATUS shows the codes (R24). -/
theorem test_error_codes : [ErrCode.noError, .illegalCmd, .invalidArgument, .emptyInput, .unknownSymbol, .corruptStream, .noTable,
      .codeTooLong, .outOverflow, .notFound].map
        (fun c => { State.reset with status := { Status.zero with errCode := c } }.statusWord) =
    [0x000, 0x100, 0x200, 0x300, 0x400, 0x500, 0x600, 0x700, 0x800, 0x900] := by decide +kernel
/-- V-R5: a soft reset while a DECODE is BUSY. -/
theorem test_soft_reset_aborts :
    let t := ((withT1 (holding [0x20] 4 0)).accept 3 0x31).hostWrite 0x000C 2
    t.seq = .idle ∧ t.statusWord = 0 ∧ t.irq = false ∧ t.mem.obuf = ⟨1, []⟩ ∧ t.padlen = 5 ∧
      Bytes.take 1 0x1000 t.mem.ibuf = [0x20] := by decide +kernel
/-- V-S6. -/
theorem test_busy_write_dropped :
    (((holding [] 0 5).accept 3 0x00).hostWrite 0x0014 0x31) =
      { (holding [] 0 5).accept 3 0x00 with status := { Status.zero with wdrop := true } } := rfl
/-- P2 line 1: the words of WRTEXT. -/
theorem test_wrtext : assemble [.wrText (str "group 3magic codehi!")] =
    [.write 0x1000 0x756f7267, .write 0x1004 0x6d332070, .write 0x1008 0x63696761, .write 0x100C 0x646f6320,
      .write 0x1010 0x21696865] := by decide +kernel
/-- P1 lines 1 and 2, with WAIT's loop (R97). -/
theorem test_assemble : assemble [.run .clearFreq 0, .setFreq 0x61 5] =
    [.write 0x0014 0x20, .read 0x0010 0, .branch 0 1 false 1, .write 0x0584 0x80000005] := by decide +kernel
/-- V-E1, V-L3 first row. -/
theorem test_generate : generate [str "to", str "cat", str "cart"] 2 (str "a") (fun _ _ => 0) = .ok romE1.image := by
  decide +kernel
/-- V-E4. -/
theorem test_generate_exhausted : generate [str "bd", str "bad", str "bead"] 2 (str "ae") (fun _ _ => 0) =
    .error (.assignmentExhausted [str "bad"]) := by decide +kernel

/-- R235: the lines of V-E1's table, and the image made from them. -/
theorem test_listing : listing [⟨str "crt", str "cart"⟩, ⟨str "to", str "to"⟩] = str "crt cart\nto to\n" := by decide +kernel
theorem test_image_of_listing : imageOfListing 2 (str "to to\nct cat\ncrt cart\n") = .ok romE1.image ∧
    imageOfListing 2 (str "to to") = .error .malformed ∧ imageOfListing 2 (str "to to\nt to\n") = .error .refused := by
  decide +kernel

/-! ## Witnesses: for each statement with hypotheses, states and operands that meet them, at the boundaries of its clauses -/

/-- Whether an outcome is a next state. -/
def isNext : Host.Outcome State Fault Refusal → Bool
  | .next _ => true
  | .fault _ => false
  | .refused _ => false

/-- The next state of an outcome, or a given one. -/
def nextOr (s : State) : Host.Outcome State Fault Refusal → State
  | .next t => t
  | .fault _ => s
  | .refused _ => s

theorem next_of_isNext {o : Host.Outcome State Fault Refusal} (s : State) (h : isNext o = true) : o = .next (nextOr s o) := by
  cases o with
  | next t => rfl
  | fault r => cases h
  | refused r => cases h

/-- What `RUN <i>` leaves. -/
def ran (i : Instr) (s : State) : State := nextOr s (runCommand i s)

/-- A block BUSY with a word, `n` turns before its completion. -/
def busyWith (w : Word) (n : Nat) : State := (withT1 (holding (str "aab") 3 5)).accept n w

/-- A block without the abbreviation unit, BUSY with ABBR_W2A. -/
def noUnit : State := { holding [] 4 5 with fit := ⟨none, defaultX⟩ }.accept 0 0x40

/-- The table of `withT1` is a built one. -/
theorem withT1_holds (s : State) : HoldsBuiltTable (withT1 s) :=
  ⟨freqOf freqT1, codesT1, 2, by decide +kernel, by decide +kernel, Table.ctabAll_setCtab _ (ctabWords_length _) _, rfl, rfl⟩

theorem witness_StepCompletesAcceptedCommand :
    (State.reset.withFetchWord 32 0x10).seq = .busy ⟨0x10, 5, 0, ⟨0, []⟩, ⟨0, []⟩⟩ 0 ∧
      decodeWord State.reset.fit.hasAbbr 0x10 = .ok .pad := ⟨rfl, rfl⟩

theorem witness_StepCompletesIllegalWord :
    (State.reset.withFetchWord 32 0x130).seq = .busy ⟨0x130, 5, 0, ⟨0, []⟩, ⟨0, []⟩⟩ 0 ∧
      decodeWord State.reset.fit.hasAbbr 0x130 = .error .reservedBits := ⟨rfl, rfl⟩

/-- A HOST with one line of each kind, at line `pc`, that has read 5 under name 1. -/
def hostAt (pc : Nat) : State :=
  { State.reset with
    master := ⟨[.write 0x0018 7, .read 0x0018 2, .branch 1 2 true 0, .branch 9 0 true 0, .readIrq 3, .hardReset], pc, [(1, 5)]⟩ }

theorem witness_StepGivesHostItsTurn :
    State.reset.seq = .idle ∧ (State.reset.accept 1 0).seq = .busy ⟨0, 5, 0, ⟨0, []⟩, ⟨0, []⟩⟩ (0 + 1) ∧
    (List.range 7).map (fun pc => (hostAt pc).master.prog[(hostAt pc).master.pc]?) =
      [some (.write 0x0018 7), some (.read 0x0018 2), some (.branch 1 2 true 0), some (.branch 9 0 true 0),
        some (.readIrq 3), some .hardReset, none] ∧
    (5 : Word) = (((hostAt 2).master.reads.find? fun r => decide (r.1 = 1)).map Prod.snd).getD (Config.unreadName 1) ∧
    Config.unreadName 9 =
      (((hostAt 3).master.reads.find? fun r => decide (r.1 = 9)).map Prod.snd).getD (Config.unreadName 9) :=
  ⟨rfl, rfl, rfl, rfl, rfl⟩

theorem witness_FetchedWordRunsNext :
    WellFormed State.reset.fit.hasAbbr .abbrA2W = true ∧ WellFormed noUnit.fit.hasAbbr .encode = true := ⟨rfl, rfl⟩

theorem witness_AcceptanceTakesSnapshot :
    State.reset.seq = .idle ∧ ¬((0x12 : Word) = 0x00000021 ∨ (0x12 : Word) = 0x00000022 ∨ (0x12 : Word) = 0x00000023) :=
  ⟨rfl, by decide⟩

theorem witness_BusyWritesAreDropped : (busyWith 0x30 3).busy = true ∧
    [(0x0014 : BitVec 16), 0x0019, 0x001E, 0x0400, 0x07FF, 0x1000, 0x1FFF].map wordOffset =
      [0x0014, 0x0018, 0x001C, 0x0400, 0x07FC, 0x1000, 0x1FFC] := by decide +kernel

theorem witness_FailedBuildHasNoTable : isBuild (some .buildFreq) = true ∧
    runCommand .buildFreq (withT1 (withFreq [] State.reset)) = .next (ran .buildFreq (withT1 (withFreq [] State.reset))) ∧
    (ran .buildFreq (withT1 (withFreq [] State.reset))).status.err = true :=
  ⟨rfl, next_of_isNext _ (by decide +kernel), by decide +kernel⟩

theorem witness_ReadsFollowTheRegisterMap : State.reset.seq = .idle ∧ (busyWith 0x30 3).busy = true ∧
    [(0x0003 : BitVec 16), 0x0004, 0x0008, 0x000C, 0x0010, 0x0014, 0x0018, 0x001C, 0x0020, 0x0024, 0x0028, 0x002C, 0x0030,
        0x0034, 0x03FF, 0x0400, 0x07FC, 0x0800, 0x0804, 0x0FF8, 0x0FFC, 0x2FFF, 0x3000].map wordOffset =
      [0x0000, 0x0004, 0x0008, 0x000C, 0x0010, 0x0014, 0x0018, 0x001C, 0x0020, 0x0024, 0x0028, 0x002C, 0x0030, 0x0034,
        0x03FC, 0x0400 + 4 * 0, 0x0400 + 4 * 255, 0x0800 + 8 * 0, 0x0804 + 8 * 0, 0x0800 + 8 * 255, 0x0804 + 8 * 255, 0x2FFC,
        0x3000] := by decide +kernel

theorem witness_ReservedAndReadOnlySpace :
    [(0x0034 : BitVec 16), 0x03FF, 0x3000, 0xFFFF, 0x0000, 0x0004, 0x0008, 0x0020, 0x0030, 0x0800, 0x0FFF, 0x2000, 0x2FFF,
        0x0400, 0x07FF].map wordOffset =
      [0x0034, 0x03FC, 0x3000, 0xFFFC, 0x0000, 0x0004, 0x0008, 0x0020, 0x0030, 0x0800, 0x0FFC, 0x2000, 0x2FFC, 0x0400,
        0x07FC] := by decide +kernel

theorem witness_BufferLanesAreLittleEndian : (holding [1, 2, 3, 4] 4 5).seq = .idle ∧ 0 < 1024 ∧ 1023 < 1024 :=
  ⟨rfl, by omega, by omega⟩

theorem witness_OperandRegistersStoreAllBits : State.reset.seq = .idle ∧ 0 < 256 ∧ 255 < 256 := ⟨rfl, by omega, by omega⟩

theorem witness_CtrlWriteRule : (0x3 : Word).getLsbD 1 = true ∧ (0x1 : Word).getLsbD 1 = false := by decide

theorem witness_IrqIsEnabledDone : exec .nop State.reset = .next State.reset.settle ∧ (0xE : Word).getLsbD 1 = true ∧
    (State.reset.withFetchWord 32 0x130).seq = .busy ⟨0x130, 5, 0, ⟨0, []⟩, ⟨0, []⟩⟩ 0 ∧
    isNext (step (State.reset.withFetchWord 32 0x130)) = true := ⟨rfl, by decide, rfl, by decide +kernel⟩

theorem witness_SoftResetRule : (2 : Word).getLsbD 1 = true ∧ State.reset.seq = .idle ∧
    (busyWith 0x12 3).seq.isBusy = true ∧ (busyWith 0x12 3).command 0x12 = some .xfer ∧
    (busyWith 0x22 3).command 0x22 = some .buildSample ∧ (busyWith 0x31 3).command 0x31 = some .decode := by
  decide +kernel

theorem witness_HardResetRule : (Loc.id = .id ∨ Loc.id = .version ∨ Loc.id = .caps ∨ Loc.id = .abbrN) := Or.inl rfl

theorem witness_IbitsReadsMsbFirst : 32768 ≤ 32768 ∧ 32767 < 32768 ∧ 0 < 1 ∧ 1 ≤ 32768 := by omega

theorem witness_WriteBitsPacksMsbFirst : (List.replicate 32768 true).length ≤ 32768 ∧
    4095 < ((List.replicate 32768 true).length + 7) / 8 ∧ 0 < ([true].length + 7) / 8 := by
  simp only [List.length_replicate, List.length_cons, List.length_nil]; omega

theorem witness_TextPrimitives : 4096 ≤ 4096 ∧ 4095 < 4096 ∧ (List.replicate 4096 (0 : Byte)).length ≤ 4096 := by
  simp only [List.length_replicate]; omega

theorem witness_PadFollowsItsRule :
    32768 < (holding [] 32769 0).count ∧
    ((holding [] 32768 0xFFFFFFFF).count ≤ 32768 ∧ (holding [] 32768 0xFFFFFFFF).pad < 0) ∧
    ((holding [] 32768 1).count ≤ 32768 ∧ 0 ≤ (holding [] 32768 1).pad ∧
      32768 < (holding [] 32768 1).pad + (holding [] 32768 1).count) ∧
    ((holding [] 32768 0).count ≤ 32768 ∧ 0 ≤ (holding [] 32768 0).pad ∧
      (holding [] 32768 0).pad + (holding [] 32768 0).count ≤ 32768) := by decide +kernel

theorem witness_StripFollowsItsRule :
    32768 < (holding [] 32769 0).count ∧
    ((holding [] 0 0xFFFFFFFF).count ≤ 32768 ∧ (holding [] 0 0xFFFFFFFF).pad < 0) ∧
    ((holding [] 7 8).count ≤ 32768 ∧ ((holding [] 7 8).count : Int) < (holding [] 7 8).pad) ∧
    ((holding [] 32768 32768).count ≤ 32768 ∧ 0 ≤ (holding [] 32768 32768).pad ∧
      (holding [] 32768 32768).pad ≤ ((holding [] 32768 32768).count : Int)) := by decide +kernel

theorem witness_XferFollowsItsRule :
    (State.reset.setOut 4096 false).outBytes = 4096 ∧ (State.reset.setOut 32768 true).outBytes = 4096 ∧
      (State.reset.setOut 32761 true).outBytes = 4096 ∧ State.reset.outBytes = 0 := by decide +kernel

theorem witness_XferStopsBeyondObuf :
    4096 < (State.reset.setOut 4097 false).outBytes ∧ 4096 < (State.reset.setOut 32769 true).outBytes := by decide +kernel

theorem witness_PadThenStripRestoresInput : (holding [0xA5] 8 3).seq = .idle ∧
    8 = (holding [0xA5] 8 3).inLen.toNat ∧ 8 ≤ 32768 ∧ 0 ≤ (holding [0xA5] 8 3).padlen.toInt ∧
    (holding [0xA5] 8 3).padlen.toInt + (8 : Nat) ≤ 32768 ∧
    (0 ≤ (11 : Word).toInt ∧ (11 : Word).toInt ≤ (holding [0xA5] 8 3).padlen.toInt + (8 : Nat) ∧
      11 ≠ (holding [0xA5] 8 3).padlen) := by decide +kernel

/-- 34 symbols with Fibonacci counts: the longest code has 33 bits (42_code_construction.md R158). -/
def fibFreq : List (Nat × Nat) :=
  ((List.range 33).foldl (fun (p : Nat × Nat × List (Nat × Nat)) k => (p.2.1, p.1 + p.2.1, (k + 1, p.2.1) :: p.2.2))
    (1, 1, [(0, 1)])).2.2

theorem witness_BuildFreqFollowsItsRule :
    buildTable (withFreq [] State.reset).snap.freq.freqWords = .empty ∧
    buildTable (withFreq fibFreq State.reset).snap.freq.freqWords = .tooLong 33 ∧
    buildTable (withFreq freqT1 State.reset).snap.freq.freqWords = .table codesT1 2 := by decide +kernel

theorem witness_BuildSampleFollowsItsRule :
    4096 < (holding [] 4097 5).count ∧ (holding [] 0 5).count = 0 ∧
    ((holding [0x78] 1 5).count ≤ 4096 ∧ 0 < (holding [0x78] 1 5).count ∧
      buildTable (((List.range 256).map fun n =>
        if (holding [0x78] 1 5).text.count (BitVec.ofNat 8 n) = 0 then (0 : Word)
        else 0x80000000 ||| word ((holding [0x78] 1 5).text.count (BitVec.ofNat 8 n)))) = .table [⟨0x78, 1, 0⟩] 1) := by
  decide +kernel

theorem witness_OneSymbolGetsOneBit : ∃ h : 255 < (freqOf [(255, 7)]).length, (freqOf [(255, 7)])[255].getLsbD 31 = true ∧
    ∀ (k : Nat) (hk : k < (freqOf [(255, 7)]).length), (freqOf [(255, 7)])[k].getLsbD 31 = true → k = 255 := by
  decide +kernel

/-- For TableHoldsThePresentAtMergeDepths, BuiltCodesArePrefixFree, BuiltCodesAreCanonical and BuiltCodesAreComplete. -/
theorem witness_built_tables : (freqOf freqT1).length = 256 ∧ buildTable (freqOf freqT1) = .table codesT1 2 ∧
    2 ≤ codesT1.length ∧ (⟨0x61, 1, 0⟩ : CodeEntry) ∈ codesT1 ∧ (⟨0x63, 2, 3⟩ : CodeEntry) ∈ codesT1 ∧
    ∀ e ∈ codesT1, e.sym ≠ 255 := by decide +kernel

/-- The boundary of R158 as R159 gives it: 33 Fibonacci counts build with MAXL = 32, 34 do not; and lengths that meet the Kraft
inequality. -/
theorem witness_TableHoldsThePresentAtMergeDepths :
    (freqOf fibFreq).length = 256 ∧ 2 ≤ (presentSymbols (freqOf fibFreq)).length ∧
    buildTable (freqOf fibFreq) = .tooLong 33 ∧ (presentSymbols (freqOf (fibFreq.drop 1))).length = 33 ∧
    (∃ codes, buildTable (freqOf (fibFreq.drop 1)) = .table codes 32) ∧
    (∀ e ∈ codesT1, 1 ≤ (fun _ : Nat => 2) e.sym) ∧ (codesT1.map fun e => (1 / 2 : ℚ) ^ (fun _ : Nat => 2) e.sym).sum ≤ 1 := by
  refine ⟨by decide +kernel, by decide +kernel, by decide +kernel, by decide +kernel, ?_, by simp, by norm_num [codesT1]⟩
  have h : builds (freqOf (fibFreq.drop 1)) = true ∧
      (match buildTable (freqOf (fibFreq.drop 1)) with
        | .table _ m => m
        | _ => 0) = 32 := by decide +kernel
  revert h
  cases buildTable (freqOf (fibFreq.drop 1)) with
  | table codes m => rintro ⟨-, h⟩; exact ⟨codes, congrArg _ h⟩
  | empty => rintro ⟨-, h⟩; cases h
  | tooLong m => rintro ⟨-, h⟩; cases h

theorem witness_EntriesReadCtabFields : 0 < 256 ∧ 255 < 256 ∧ (withT1 State.reset).mem.ctab.ctabAt 0x0B08 = 0x80000001 ∧
    (withT1 State.reset).mem.ctab.ctabAt 0x0FF8 = 0 := by decide +kernel

theorem witness_SampleBuildNeverTooLong : 0 < [(0x78 : Byte)].length ∧ [(0x78 : Byte)].length ≤ 4096 ∧
    (List.replicate 4096 (0 : Byte)).length ≤ 4096 := by
  simp only [List.length_replicate, List.length_cons, List.length_nil]; omega

theorem witness_EncodeFollowsItsRule :
    4096 < (withT1 (holding [] 4097 0)).count ∧
    ((holding [] 4096 0).count ≤ 4096 ∧ (holding [] 4096 0).status.tvalid = false) ∧
    ((withT1 (holding (str "az") 2 0)).text = str "az" ∧ (findSym (withT1 (holding (str "az") 2 0)).codes 0x61).isSome = true ∧
      ¬(findSym (withT1 (holding (str "az") 2 0)).codes 0x7A).isSome = true) ∧
    ((∀ b ∈ (withT1 (holding (str "a") 1 0xFFFFFFFF)).text,
        (findSym (withT1 (holding (str "a") 1 0xFFFFFFFF)).codes b.toNat).isSome = true) ∧
      (withT1 (holding (str "a") 1 0xFFFFFFFF)).pad < 0) ∧
    ((withT1 (holding (str "a") 1 32768)).pad +
      textLength (withT1 (holding (str "a") 1 32768)).codes (withT1 (holding (str "a") 1 32768)).text = 32769) ∧
    ((withT1 (holding (str "a") 1 32767)).pad +
      textLength (withT1 (holding (str "a") 1 32767)).codes (withT1 (holding (str "a") 1 32767)).text = 32768) := by
  decide +kernel

/-- n bits 0 parse to n times `a` in T1. -/
theorem parse_zeros (n i start : Nat) (out : List Byte) : parseFrom codesT1 i 0 0 start out (List.replicate n false) =
    .ok (out ++ List.replicate n 0x61) := by
  induction n generalizing i start out with
  | zero => simp [parseFrom]
  | succ n ih =>
    have leaf : leafAt codesT1 (0 + 1) (2 * 0 + false.toNat) = some ⟨0x61, 1, 0⟩ := by decide
    rw [List.replicate_succ, parseFrom, leaf]
    simp only [ih, List.append_assoc]
    rfl

/-- 4097 bits 0 in IBUF, with T1. -/
def zeros4097 : State := withT1 (holding (List.replicate 513 0) 4097 0)

theorem witness_DecodeFollowsItsRule :
    32768 < (holding [] 32769 0).count ∧
    ((holding [] 32768 0).count ≤ 32768 ∧ (holding [] 32768 0).status.tvalid = false) ∧
    ((withT1 (holding [] 7 0xFFFFFFFF)).count ≤ 32768 ∧ (withT1 (holding [] 7 0xFFFFFFFF)).pad < 0) ∧
    ((withT1 (holding [] 7 8)).count ≤ 32768 ∧ ((withT1 (holding [] 7 8)).count : Int) < (withT1 (holding [] 7 8)).pad) ∧
    ((withTS (holding [0x40] 2 0)).pad = 0 ∧
      parse (withTS (holding [0x40] 2 0)).codes ((withTS (holding [0x40] 2 0)).bits.drop 0) = .corrupt 1) ∧
    ((withT1 (holding [0xFC] 6 6)).pad = 6 ∧
      parse (withT1 (holding [0xFC] 6 6)).codes ((withT1 (holding [0xFC] 6 6)).bits.drop 6) = .ok []) := by
  decide +kernel

theorem bitsOf_zeros (n m : Nat) (h : n ≤ 8 * m) : bitsOf n (List.replicate m 0) = List.replicate n false := by
  have all : ∀ m, (List.replicate m (0 : Byte)).flatMap byteBits = List.replicate (8 * m) false := by
    intro m
    induction m with
    | zero => rfl
    | succ m ih =>
      have one : byteBits 0 = List.replicate 8 false := by decide
      rw [List.replicate_succ, List.flatMap_cons, ih, one, List.replicate_append_replicate, Nat.mul_succ, Nat.add_comm]
  rw [bitsOf, all, List.take_replicate, Nat.min_eq_left h]

theorem witness_DecodeFollowsItsRule_overflow : zeros4097.count = 4097 ∧ zeros4097.pad = 0 ∧
    parse zeros4097.codes (zeros4097.bits.drop zeros4097.pad.toNat) = .ok (List.replicate 4097 0x61) ∧
    4096 < (List.replicate 4097 (0x61 : Byte)).length := by
  have codes : zeros4097.codes = codesT1 := by decide +kernel
  have text : zeros4097.snap.ibuf.itext 513 = List.replicate 513 0 := by decide +kernel
  have bits : zeros4097.bits = List.replicate 4097 false := by
    show bitsOf 4097 (zeros4097.snap.ibuf.itext 513) = _
    rw [text, bitsOf_zeros 4097 513 (by omega)]
  refine ⟨rfl, rfl, ?_, by rw [List.length_replicate]; omega⟩
  show parse _ (zeros4097.bits.drop 0) = _
  rw [codes, bits, parse, List.drop_zero, parse_zeros, List.nil_append]

theorem witness_ParseIsUnambiguous : HoldsBuiltTable (withT1 State.reset) ∧
    (∀ b ∈ str "cab", (withT1 State.reset).hasCode b) ∧
    parse (withT1 State.reset).codes [true, true, false, true, false] = .ok (str "cab") ∧
    textBits (withT1 State.reset).codes (str "cab") = [true, true, false, true, false] ∧
    (parse (withT1 State.reset).codes [true, true, true] = .corrupt 2 ∧
      textBits (withT1 State.reset).codes (str "c") = [true, true, true].take 2 ∧
      ∀ e ∈ (withT1 State.reset).codes, ¬(e.bits <+: [true, true, true].drop 2)) := by
  refine ⟨withT1_holds _, ?_, by decide +kernel, by decide +kernel, by decide +kernel⟩
  show ∀ b ∈ str "cab", (findSym (withT1 State.reset).codes b.toNat).isSome = true
  decide +kernel

/-- For the round trip of R185, and the first hypotheses of R186. -/
theorem witness_EncodeDecodeRoundTrip :
    let s := withT1 (holding (str "aab") 3 5)
    s.seq = .idle ∧ s.status.tvalid = true ∧ HoldsBuiltTable s ∧ 3 = s.inLen.toNat ∧ 3 ≤ 4096 ∧
      str "aab" = Bytes.itext 3 s.mem.ibuf ∧ (∀ b ∈ str "aab", s.hasCode b) ∧ 0 ≤ s.padlen.toInt ∧
      s.padlen.toInt + textLength s.codes (str "aab") ≤ 32768 := by
  refine ⟨rfl, rfl, withT1_holds _, rfl, by omega, by decide +kernel, ?_, by decide +kernel, by decide +kernel⟩
  show ∀ b ∈ str "aab", (findSym (withT1 (holding (str "aab") 3 5)).codes b.toNat).isSome = true
  decide +kernel

theorem witness_WrongPaddingNeverReproduces :
    let s := withT1 (holding (str "aab") 3 5)
    let s1 := ran .encode s
    let s2 := ran .xfer s1
    (6 : Word) ≠ s.padlen ∧ runCommand .encode s = .next s1 ∧ s1.status.err = false ∧ runCommand .xfer s1 = .next s2 ∧
      runCommand .decode { s2 with padlen := 6 } = .next (ran .decode { s2 with padlen := 6 }) := by
  exact ⟨by decide +kernel, next_of_isNext _ (by decide +kernel), by decide +kernel, next_of_isNext _ (by decide +kernel),
    next_of_isNext _ (by decide +kernel)⟩

theorem witness_WordToAbbrFollowsItsRule : (holding [] 0 5).fit.abbr = some romE1 ∧
    ((holding [] 0 5).count = 0 ∧ 4096 < (holding [] 4097 5).count ∧ (holding [] 4096 5).count ≤ 4096) ∧
    (∃ p ∈ romPairs romE1.image, p.wrd = (holding (str "cart") 4 5).text) ∧
    (∀ p ∈ romPairs romE1.image, p.wrd ≠ (holding (str "c") 1 5).text) := ⟨rfl, by decide +kernel⟩

theorem witness_AbbrToWordFollowsItsRule : (holding [] 0 5).fit.abbr = some romE1 ∧
    ((holding [] 0 5).count = 0 ∧ 4096 < (holding [] 4097 5).count ∧ (holding [] 4096 5).count ≤ 4096) ∧
    (∃ p ∈ romPairs romE1.image, p.abbr = (holding (str "crt") 3 5).text) ∧
    (∀ p ∈ romPairs romE1.image, p.abbr ≠ (holding (str "c") 1 5).text) := ⟨rfl, by decide +kernel⟩

theorem witness_LookupsWithoutRomAreIllegal : noUnit.fit.abbr = none ∧
    noUnit.seq = .busy ⟨0x40, 5, 4, ⟨0, []⟩, ⟨0, []⟩⟩ 0 ∧ State.reset.fit.abbr = some Config.abbrRom := ⟨rfl, rfl, rfl⟩

theorem witness_LookupsAreInverse : (holding (str "cart") 4 5).seq = .idle ∧
    (holding (str "cart") 4 5).fit.abbr = some romE1 ∧ (⟨str "crt", str "cart"⟩ : Pair) ∈ romPairs romE1.image ∧
    Bytes.itext (holding (str "cart") 4 5).inLen.toNat (holding (str "cart") 4 5).mem.ibuf = str "cart" ∧
    Bytes.itext (holding (str "crt") 3 5).inLen.toNat (holding (str "crt") 3 5).mem.ibuf = str "crt" :=
  ⟨rfl, rfl, by decide +kernel⟩

/-- For GeneratedImagesAreWellFormed and GeneratedPairsKeepTheirEnds, whose other hypothesis is `test_generate`: one pair of
each kind. -/
theorem witness_generated_pairs : (⟨str "to", str "to"⟩ : Pair) ∈ romPairs romE1.image ∧ (str "to").length ≤ 2 ∧
    (⟨str "ct", str "cat"⟩ : Pair) ∈ romPairs romE1.image ∧ 2 < (str "cat").length := by decide +kernel

theorem witness_CommandsWriteOnlyTheirTargets : exec .encode (busyWith 0x30 0) = .next (nextOr State.reset (exec .encode (busyWith 0x30 0))) ∧
    exec .xfer (busyWith 0x12 0) = .next (nextOr State.reset (exec .xfer (busyWith 0x12 0))) ∧
    (exec .decode State.reset = .next (nextOr State.reset (exec .decode State.reset)) ∧ State.reset.status.err = false ∧
      (nextOr State.reset (exec .decode State.reset)).status.err = true) ∧
    (exec .abbrA2W State.reset = .next (nextOr State.reset (exec .abbrA2W State.reset)) ∧ State.reset.fit.abbr ≠ none ∧
      (nextOr State.reset (exec .abbrA2W State.reset)).status.err = true) ∧
    (exec .buildSample State.reset = .next (nextOr State.reset (exec .buildSample State.reset)) ∧
      (nextOr State.reset (exec .buildSample State.reset)).status.err = true) :=
  ⟨rfl, next_of_isNext _ (by decide +kernel), ⟨rfl, rfl, by decide +kernel⟩,
    ⟨rfl, fun h => Option.noConfusion rfl (heq_of_eq h), by decide +kernel⟩, rfl, by decide +kernel⟩

theorem witness_ResultsAreStable : State.reset.seq = .idle ∧ wordOffset 0x000C ≠ 0x0014 ∧
    ¬(wordOffset 0x000C = 0x000C ∧ (1 : Word).getLsbD 1 = true) ∧ wordOffset 0x2000 ≠ 0x0014 := by decide +kernel

/-- For StepNeverStops and StepKeepsInvariant: an IDLE block that has a table, with nothing assumed of its ROMs. -/
theorem witness_inv_idle : Inv (withT1 State.reset) where
  memory := by decide +kernel
  output := by decide +kernel
  snapshot := trivial
  pending := trivial
  table := ⟨fun _ => withT1_holds _, fun h => Bool.noConfusion h⟩
  errors := ⟨fun h => Bool.noConfusion h, fun _ => rfl⟩
  draws := ⟨by decide, by decide, by decide, by decide⟩

/-- For BusyEventuallyEnds: a block that is BUSY with a build. -/
theorem witness_inv_busy : Inv ((withT1 State.reset).accept 3 0x21) ∧ ((withT1 State.reset).accept 3 0x21).busy = true :=
  ⟨{ memory := by decide +kernel
     output := by decide +kernel
     snapshot := ⟨rfl, rfl, rfl, rfl⟩
     pending := ⟨rfl, rfl, rfl, rfl, fun _ => rfl⟩
     table := ⟨fun h => Bool.noConfusion h, fun _ => ⟨rfl, rfl⟩⟩
     errors := ⟨fun h => Bool.noConfusion h, fun _ => rfl⟩
     draws := ⟨by decide, by decide, by decide, by decide⟩ }, rfl⟩

theorem witness_StepKeepsInvariant : Inv (withT1 State.reset) ∧ step (withT1 State.reset) = .next (withT1 State.reset).hostTurn :=
  ⟨witness_inv_idle, rfl⟩

end Sys2Proof.Tests
end

section
/-! PROOFS. The HOST's turn, said once by the line it runs, and the statement about the steps that are turns. -/

namespace Sys2Proof.Machine

/-! ## Steps that are turns -/

theorem step_idle {s : State} (h : s.seq = .idle) : step s = .next s.hostTurn := by rw [step, h]

theorem step_busy_succ {s : State} {k : Snapshot} {n : Nat} (h : s.seq = .busy k (n + 1)) :
    step s = .next { s with seq := .busy k n }.hostTurn := by rw [step, h]

/-! ## The turn -/

theorem State.hostTurn_line {s : State} {l : Line} (h : s.master.prog[s.master.pc]? = some l) :
    s.hostTurn = s.runLine l := by rw [State.hostTurn, h]

theorem State.hostTurn_end {s : State} (h : s.master.prog[s.master.pc]? = none) : s.hostTurn = s := by
  rw [State.hostTurn, h]

/-! ## The lines -/

/-- A hardware reset keeps the HOST (log entry 16). -/
@[simp] theorem State.hardReset_master (s : State) : s.hardReset.master = s.master := rfl

/-- The model's search by `Nat.beq` finds the newest value recorded under the name. -/
theorem Master.value_eq (m : Master) (name : Nat) :
    m.value name = ((m.reads.find? fun r => decide (r.1 = name)).map Prod.snd).getD (Config.unreadName name) := by
  have same : (fun r : Nat × Word => Nat.beq r.1 name) = fun r => decide (r.1 = name) :=
    funext fun r => by rw [Bool.eq_iff_iff, Nat.beq_eq, decide_eq_true_iff]
  rw [Master.value, same]
  cases m.reads.find? fun r => decide (r.1 = name) <;> rfl

theorem State.runLine_write (s : State) (off : BitVec 16) (v : Word) : s.runLine (.write off v) =
    { s.hostWrite off v with master := { s.master with pc := s.master.pc + 1 } } := by
  rw [State.runLine, State.nextLine, State.hostWrite_master]

theorem State.runLine_read (s : State) (off : BitVec 16) (name : Nat) : s.runLine (.read off name) =
    { (s.hostRead off).2 with
      master := ⟨s.master.prog, s.master.pc + 1, (name, (s.hostRead off).1) :: s.master.reads⟩ } := by
  rw [State.runLine, State.record, State.hostRead_master]

theorem State.runLine_branch (s : State) (name bit : Nat) (val : Bool) (target : Nat) :
    s.runLine (.branch name bit val target) = { s with
      master := { s.master with
        pc := if (s.master.value name).getLsbD bit = val then target else s.master.pc + 1 } } := by
  rw [State.runLine]
  split_ifs <;> rfl

theorem State.runLine_readIrq (s : State) (name : Nat) : s.runLine (.readIrq name) =
    { s with master := ⟨s.master.prog, s.master.pc + 1, (name, if s.irq then 1 else 0) :: s.master.reads⟩ } := by
  have level : flagBit s.irq 0 = if s.irq then 1 else 0 := by cases s.irq <;> rfl
  rw [State.runLine, State.record, level]

theorem State.runLine_hardReset (s : State) : s.runLine .hardReset =
    { s.hardReset with master := { s.master with pc := s.master.pc + 1 } } := by
  rw [State.runLine, State.nextLine, State.hardReset_master]

/-- Settles O7: the two kinds of step that are a turn, and the turn by the line at the HOST's place. -/
theorem stepGivesHostItsTurn : Obligations.StepGivesHostItsTurn := by
  intro s
  refine ⟨step_idle, fun _ _ => step_busy_succ, fun off v hline => ?write, fun off name hline => ?read,
    fun name bit val target v hline newest => ?branch, fun name hline => ?readIrq, fun hline => ?hardReset, State.hostTurn_end⟩
  case write => rw [State.hostTurn_line hline, State.runLine_write]
  case read => rw [State.hostTurn_line hline, State.runLine_read]
  case branch => rw [State.hostTurn_line hline, State.runLine_branch, Master.value_eq, newest]
  case readIrq => rw [State.hostTurn_line hline, State.runLine_readIrq]
  case hardReset => rw [State.hostTurn_line hline, State.runLine_hardReset]

end Sys2Proof.Machine
end

section
/-! PROOFS. The invariant: what each shared operation keeps of it, then every completion, every HOST line, and the two statements
that it holds at reset and that every step keeps it. -/

namespace Sys2Proof.Machine

/-! ## The invariant in two parts -/

/-- The clauses of Inv that hold whether or not a command is running. -/
structure Sound (s : State) : Prop where
  memory : s.mem.wf = true
  output : s.outBytes ≤ 4096
  table : TableSound s
  errors : ErrorSound s
  draws : DrawsFresh s

theorem Inv.sound {s : State} (h : Inv s) : Sound s := ⟨h.memory, h.output, h.table, h.errors, h.draws⟩

theorem snapshotLive_busy {s : State} {k : Snapshot} {n : Nat} (h : s.seq = .busy k n) :
    SnapshotLive s ↔ k.padlen = s.padlen ∧ k.inLen = s.inLen ∧ k.freq = s.mem.freq ∧ k.ibuf = s.mem.ibuf := by
  rw [SnapshotLive, h]

theorem pendingClear_busy {s : State} {k : Snapshot} {n : Nat} (h : s.seq = .busy k n) :
    PendingClear s ↔ s.status.done = false ∧ s.status.err = false ∧ s.status.errCode = .noError ∧ s.errInfo = 0 ∧
      (isBuild (s.command k.cmd) = true → s.status.tvalid = false) := by
  rw [PendingClear, h]

/-- On an IDLE block there is no snapshot and nothing pending. -/
theorem Sound.inv_of_idle {s : State} (h : Sound s) (hs : s.seq = .idle) : Inv s := by
  refine ⟨h.memory, h.output, ?snapshot, ?pending, h.table, h.errors, h.draws⟩
  case snapshot => rw [SnapshotLive, hs]; trivial
  case pending => rw [PendingClear, hs]; trivial

/-- The turns left are no part of the invariant. -/
theorem Inv.setTurns {s : State} {k : Snapshot} {n : Nat} (h : Inv s) (hs : s.seq = .busy k n) (m : Nat) :
    Inv { s with seq := .busy k m } :=
  ⟨h.memory, h.output, (snapshotLive_busy hs).mp h.snapshot, (pendingClear_busy hs).mp h.pending, h.table, h.errors, h.draws⟩

/-- Nor is the HOST. -/
theorem Inv.setMaster {s : State} (h : Inv s) (m : Master) : Inv { s with master := m } :=
  ⟨h.memory, h.output, h.snapshot, h.pending, h.table, h.errors, h.draws⟩

/-! ## Draws and memory writes -/

/-- The next draw number but one is new too. -/
theorem DrawsFresh.succ {s : State} (h : DrawsFresh s) : DrawsFresh { s with draws := s.draws + 1 } := by
  obtain ⟨hf, hc, hi, ho⟩ := h
  exact ⟨Nat.lt_succ_of_lt hf, Nat.lt_succ_of_lt hc, Nat.lt_succ_of_lt hi, Nat.lt_succ_of_lt ho⟩

theorem Sound.drawObuf {s : State} (h : Sound s) : Sound s.drawObuf := by
  obtain ⟨hf, hc, hi, -⟩ := h.draws.succ
  exact ⟨Memory.wf_drawObuf h.memory _, h.output, h.table, h.errors, hf, hc, hi, Nat.lt_succ_self _⟩

theorem Sound.drawIbuf {s : State} (h : Sound s) : Sound s.drawIbuf := by
  obtain ⟨hf, hc, -, ho⟩ := h.draws.succ
  exact ⟨Memory.wf_drawIbuf h.memory _, h.output, h.table, h.errors, hf, hc, Nat.lt_succ_self _, ho⟩

theorem Sound.drawFreq {s : State} (h : Sound s) : Sound s.drawFreq := by
  obtain ⟨-, hc, hi, ho⟩ := h.draws.succ
  exact ⟨Memory.wf_drawFreq h.memory _, h.output, h.table, h.errors, Nat.lt_succ_self _, hc, hi, ho⟩

/-- CTAB may become a draw only where there is no table. -/
theorem Sound.drawCtab {s : State} (h : Sound s) (ht : s.status.tvalid = false) : Sound s.drawCtab := by
  obtain ⟨hf, -, hi, ho⟩ := h.draws.succ
  have table : TableSound s.drawCtab := ⟨fun hv => Bool.noConfusion (ht.symm.trans hv), h.table.2⟩
  exact ⟨Memory.wf_drawCtab h.memory _, h.output, table, h.errors, hf, Nat.lt_succ_self _, hi, ho⟩

theorem Sound.setFreq {s : State} (h : Sound s) {ws : List Word} (hw : ws.length = 256) : Sound (s.setFreq ws) :=
  ⟨Memory.wf_freq_write h.memory _ _ (le_refl _) rfl (by rw [List.length_map, hw]), h.output, h.table, h.errors, h.draws⟩

/-- A table made from 256 FREQ words is a built table. -/
theorem Sound.setTable {s : State} (h : Sound s) {freq : List Word} {codes : List CodeEntry} {m : Nat}
    (hf : freq.length = 256) (hb : buildTable freq = .table codes m) : Sound (s.setTable codes m) where
  memory := Memory.wf_ctab_write h.memory _ _ (le_refl _) rfl (by rw [ctabWords_length])
  output := h.output
  table := ⟨fun _ => ⟨freq, codes, m, hf, hb, Table.ctabAll_setCtab _ (ctabWords_length _) _, rfl, rfl⟩,
    fun hv => Bool.noConfusion hv⟩
  errors := h.errors
  draws := h.draws

/-! ## Outputs -/

theorem byteCount_le_obuf {n : Nat} (h : n ≤ 32768) : byteCount n ≤ 4096 := by rw [byteCount]; omega

@[simp] theorem packBits_length (b : List Bool) : (packBits b).length = byteCount b.length := by simp [packBits]

theorem State.outBytes_setOut (s : State) {n : Nat} (h : n ≤ 32768) (u : Bool) :
    (s.setOut n u).outBytes = if u then byteCount n else n := by
  have fits : u32 (word n) = n := (BitVec.toNat_ofNat n 32).trans (Nat.mod_eq_of_lt (by omega))
  simp only [State.outBytes, State.setOut_status, State.setOut_outLen, fits]

/-- An output whose length fits OBUF in its unit (20_memory.md R77). -/
theorem Sound.setOut {s : State} (h : Sound s) {n : Nat} {u : Bool} (hn : n ≤ 32768) (hu : u = false → n ≤ 4096) :
    Sound (s.setOut n u) := by
  refine ⟨h.memory, ?_, h.table, h.errors, h.draws⟩
  rw [State.outBytes_setOut s hn]
  cases u with
  | false => exact hu rfl
  | true => exact byteCount_le_obuf hn

theorem Sound.writeBytes {s : State} (h : Sound s) {bs : List Byte} (hb : bs.length ≤ 4096) : Sound (s.writeBytes bs) :=
  ⟨Memory.wf_obuf_write h.memory bs hb, h.output, h.table, h.errors, h.draws⟩

/-- A byte output. -/
theorem Sound.outputBytes {s : State} (h : Sound s) {bs : List Byte} (hb : bs.length ≤ 4096) :
    Sound ((s.writeBytes bs).setOut bs.length false) :=
  (h.writeBytes hb).setOut (by omega) fun _ => hb

/-- A bit output. -/
theorem Sound.outputBits {s : State} (h : Sound s) {b : List Bool} {n : Nat} (hb : b.length ≤ n) (hn : n ≤ 32768) :
    Sound ((s.writeBits b).setOut n true) := by
  have fits : (packBits b).length ≤ 4096 := by rw [packBits_length]; exact byteCount_le_obuf (hb.trans hn)
  exact (h.writeBytes fits).setOut hn fun hu => Bool.noConfusion hu

/-! ## Completions -/

/-- R170's format, carried by the type (log entry 7). -/
theorem DefaultFreq.entries_length (d : DefaultFreq) : d.entries.length = 256 := by
  have h := d.ok
  simp only [defaultFreqOk, Bool.and_eq_true, Nat.beq_eq] at h
  exact h.1.1

/-- What R117 discards keeps the invariant, for a BUILD only because acceptance has cleared TVALID (R111). -/
theorem Sound.discard {s : State} (h : Sound s) {c : Option Instr} (hc : isBuild c = true → s.status.tvalid = false) :
    Sound (s.discard c) := by
  have noOutput : ∀ u, Sound (s.drawObuf.setOut 0 u) := fun u => h.drawObuf.setOut (by omega) fun _ => by omega
  cases c with
  | none => exact h
  | some i =>
    cases i with
    | nop | xfer | clearFreq => exact h
    | pad | strip | encode => exact noOutput true
    | decode | abbrW2A | abbrA2W => exact noOutput false
    | buildFreq | buildSample => exact h.drawCtab (hc rfl)
    | buildDefault => exact (h.setFreq (DefaultFreq.entries_length _)).drawCtab (hc rfl)

theorem Sound.settle {s : State} (h : Sound s) : Sound s.settle := ⟨h.memory, h.output, h.table, h.errors, h.draws⟩

theorem Sound.raise {s : State} (h : Sound s) {c : Option Instr} {f : Failure}
    (hc : isBuild c = true → s.status.tvalid = false) (hf : f.code ≠ .noError) : Sound (s.raise c f) := by
  have hd := h.discard hc
  exact ⟨hd.memory, hd.output, hd.table, ⟨fun _ => hf, fun h0 => absurd h0 hf⟩, hd.draws⟩

/-- A body's result that a completion can take: a state that keeps the invariant, or an error with a code. -/
def BodySound : Except Failure State → Prop
  | .ok t => Sound t
  | .error f => f.code ≠ .noError

theorem Sound.finish {s : State} (h : Sound s) {c : Option Instr} {body : Except Failure State}
    (hc : isBuild c = true → s.status.tvalid = false) (hb : BodySound body) : Sound (s.finish c body) := by
  cases body with
  | ok t => exact Sound.settle hb
  | error f => exact h.raise hc hb

@[simp] theorem State.finish_seq (s : State) (c : Option Instr) (body : Except Failure State) :
    (s.finish c body).seq = .idle := by
  cases body <;> rfl

/-! ## The bodies -/

theorem State.bits_length_le (s : State) : s.bits.length ≤ s.count := List.length_take_le _ _

theorem State.badInLen_code_ne (s : State) : s.badInLen.code ≠ .noError := ErrCode.noConfusion

theorem State.badPadlen_code_ne (s : State) : s.badPadlen.code ≠ .noError := ErrCode.noConfusion

theorem padBody_sound {s : State} (h : Sound s) : BodySound (padBody s) := by
  rw [padBody]
  split_ifs with hn hp ho
  · exact s.badInLen_code_ne
  · exact s.badPadlen_code_ne
  · exact ErrCode.noConfusion
  · have len := s.bits_length_le
    exact h.outputBits (by rw [List.length_append, List.length_replicate]; omega) (Nat.le_of_not_lt ho)

theorem stripBody_sound {s : State} (h : Sound s) : BodySound (stripBody s) := by
  rw [stripBody]
  split_ifs with hn hp hl
  · exact s.badInLen_code_ne
  · exact s.badPadlen_code_ne
  · exact s.badPadlen_code_ne
  · have len := s.bits_length_le
    exact h.outputBits (by rw [List.length_drop]; omega) ((Nat.sub_le ..).trans (Nat.le_of_not_lt hn))

/-- XFER writes no more than IBUF holds, and leaves the output as it is (41_bitbuffer.md R140). -/
theorem xferBody_sound {s : State} (h : Sound s) : Sound (xferBody s) :=
  ⟨Memory.wf_ibuf_write h.memory _ _ (le_refl _) (by rw [Bytes.take_length]; exact Nat.add_le_add_left h.output _),
    h.output, h.table, h.errors, h.draws⟩

/-- Whatever FREQ words of the right number are built from, in a state that may have written FREQ. -/
theorem buildInto_sound {s : State} (h : Sound s) {freq : List Word} (hf : freq.length = 256) :
    BodySound (buildInto freq s) := by
  rw [buildInto]
  split
  · exact ErrCode.noConfusion
  · exact ErrCode.noConfusion
  · next hb => exact h.setTable hf hb

theorem buildSampleBody_sound {s : State} (h : Sound s) : BodySound (buildSampleBody s) := by
  rw [buildSampleBody]
  split_ifs with hn h0
  · exact s.badInLen_code_ne
  · exact ErrCode.noConfusion
  · exact buildInto_sound (h.setFreq (sampleFreq_length _)) (sampleFreq_length _)

/-- R181's length is the length of the bits it concatenates. -/
theorem textBits_length (tbl : List CodeEntry) (t : List Byte) : (textBits tbl t).length = textLength tbl t := by
  have code : ∀ o : Option CodeEntry, ((o.map CodeEntry.bits).getD []).length = (o.map CodeEntry.len).getD 0 := by
    intro o
    cases o <;> simp [CodeEntry.bits]
  simp [textBits, textLength, List.length_flatMap, code]

theorem encodeBody_sound {s : State} (h : Sound s) : BodySound (encodeBody s) := by
  rw [encodeBody]
  split
  · exact s.badInLen_code_ne
  split
  · exact ErrCode.noConfusion
  split
  · exact ErrCode.noConfusion
  split_ifs with hp ho
  · exact s.badPadlen_code_ne
  · exact ErrCode.noConfusion
  · exact h.outputBits (by rw [List.length_append, List.length_replicate, textBits_length]) (Nat.le_of_not_lt ho)

theorem decodeBody_sound {s : State} (h : Sound s) : BodySound (decodeBody s) := by
  rw [decodeBody]
  split_ifs with hn ht hp
  · exact s.badInLen_code_ne
  · exact ErrCode.noConfusion
  · exact s.badPadlen_code_ne
  · split
    · exact ErrCode.noConfusion
    · split_ifs with ho
      · exact ErrCode.noConfusion
      · exact h.outputBytes (Nat.le_of_not_lt ho)

/-- A string of a record is no longer than its length byte can say (44_abbreviation_lookup.md R213). -/
theorem romPairs_length {img : List Byte} {p : Pair} (h : p ∈ romPairs img) : p.abbr.length < 256 ∧ p.wrd.length < 256 := by
  obtain ⟨r, -, rfl⟩ := List.mem_map.mp h
  exact ⟨(List.length_take_le _ _).trans_lt (BitVec.isLt _), (List.length_take_le _ _).trans_lt (BitVec.isLt _)⟩

theorem wordToAbbr_length {img k a : List Byte} (h : wordToAbbr (romPairs img) k = some a) : a.length < 256 := by
  obtain ⟨p, hp, rfl⟩ := Option.map_eq_some_iff.mp h
  exact (romPairs_length (List.mem_of_find?_eq_some hp)).1

theorem abbrToWord_length {img k a : List Byte} (h : abbrToWord (romPairs img) k = some a) : a.length < 256 := by
  obtain ⟨p, hp, rfl⟩ := Option.map_eq_some_iff.mp h
  exact (romPairs_length (List.mem_of_find?_eq_some hp)).2

theorem lookupBody_sound {s : State} (h : Sound s) (i : Instr) {search : List Pair → List Byte → Option (List Byte)}
    (hs : ∀ img k a, search (romPairs img) k = some a → a.length < 256) : BodySound (lookupBody i search s) := by
  rw [lookupBody]
  split
  · exact ErrCode.noConfusion
  · split_ifs with hn
    · exact s.badInLen_code_ne
    · split
      · next found =>
        have len := hs _ _ _ found
        exact h.outputBytes (by omega)
      · exact ErrCode.noConfusion

theorem lookupAs_notBuild (s : State) {i : Instr} (hi : isBuild (some i) = false) : ¬isBuild (lookupAs i s) = true := by
  rw [lookupAs]
  split_ifs
  · exact Bool.eq_false_iff.mp hi
  · exact Bool.false_ne_true

/-! ## Every completion -/

theorem finish_sound {s t : State} {c : Option Instr} {body : Except Failure State} (h : Sound s)
    (hc : isBuild c = true → s.status.tvalid = false) (hb : BodySound body)
    (he : (.next (s.finish c body) : Host.Outcome State Fault Refusal) = .next t) : Sound t ∧ t.seq = .idle := by
  obtain ⟨⟩ := he
  exact ⟨h.finish hc hb, State.finish_seq ..⟩

/-- What every command's completion step keeps, a BUILD's because it has cleared TVALID at acceptance. -/
theorem exec_sound {i : Instr} {s t : State} (h : Sound s) (hb : isBuild (some i) = true → s.status.tvalid = false)
    (he : exec i s = .next t) : Sound t ∧ t.seq = .idle := by
  cases i with
  | nop => exact finish_sound h hb (body := .ok s) h he
  | pad => exact finish_sound h hb (padBody_sound h) he
  | strip => exact finish_sound h hb (stripBody_sound h) he
  | xfer =>
    simp only [exec, execXfer, if_pos h.output] at he
    exact finish_sound h hb (body := .ok _) (xferBody_sound h) he
  | clearFreq => exact finish_sound h hb (body := .ok _) (h.setFreq (List.length_replicate ..)) he
  | buildFreq => exact finish_sound h hb (buildInto_sound h (Table.freqWords_length _)) he
  | buildSample => exact finish_sound h hb (buildSampleBody_sound h) he
  | buildDefault =>
    have len := DefaultFreq.entries_length s.fit.defaultFreq
    exact finish_sound h hb (buildInto_sound (h.setFreq len) len) he
  | encode => exact finish_sound h hb (encodeBody_sound h) he
  | decode => exact finish_sound h hb (decodeBody_sound h) he
  | abbrW2A =>
    exact finish_sound h (fun hl => absurd hl (lookupAs_notBuild s rfl))
      (lookupBody_sound h _ fun _ _ _ => wordToAbbr_length) he
  | abbrA2W =>
    exact finish_sound h (fun hl => absurd hl (lookupAs_notBuild s rfl))
      (lookupBody_sound h _ fun _ _ _ => abbrToWord_length) he

theorem completion_inv {w : Word} {s t : State} (h : Sound s)
    (hb : isBuild (s.command w) = true → s.status.tvalid = false) (hc : completion w s = .next t) : Inv t := by
  rw [completion] at hc
  split at hc
  · next i hi =>
    have accepted : s.command w = some i := by rw [State.command, commandOf, hi]
    obtain ⟨ht, idle⟩ := exec_sound h (accepted ▸ hb) hc
    exact ht.inv_of_idle idle
  · obtain ⟨⟩ := hc
    exact (h.raise (c := none) nofun (f := ⟨.illegalCmd, w⟩) ErrCode.noConfusion).inv_of_idle rfl

/-! ## Resets -/

/-- The registers' reset values go with any canonical memories. -/
theorem resetRegs_inv {s : State} (hm : s.mem.wf = true) (hd : DrawsFresh s) : Inv s.resetRegs := by
  have sound : Sound s.resetRegs :=
    ⟨hm, Nat.zero_le _, ⟨nofun, fun _ => ⟨rfl, rfl⟩⟩, ⟨nofun, fun _ => rfl⟩, hd⟩
  exact sound.inv_of_idle rfl

theorem hardReset_inv (s : State) : Inv s.hardReset :=
  resetRegs_inv (Memory.drawn_wf _)
    ⟨Nat.lt_succ_self _, Nat.lt_succ_self _, Nat.lt_succ_self _, Nat.lt_succ_self _⟩

/-- R283's draws keep the invariant, for a BUILD because there is no table while it runs. -/
theorem Sound.abortDraws {s : State} (h : Sound s) {c : Option Instr} (hc : isBuild c = true → s.status.tvalid = false) :
    Sound (s.abortDraws c) := by
  cases c with
  | none => exact h
  | some i =>
    cases i with
    | nop => exact h
    | pad | strip | encode | decode | abbrW2A | abbrA2W => exact h.drawObuf
    | xfer => exact h.drawIbuf
    | clearFreq => exact h.drawFreq
    | buildSample | buildDefault => exact h.drawFreq.drawCtab (hc rfl)
    | buildFreq => exact h.drawCtab (hc rfl)

theorem Inv.abort_sound {s : State} (h : Inv s) : Sound s.abort := by
  rw [State.abort]
  split
  · exact h.sound
  · next busy =>
    obtain ⟨-, -, -, -, noTable⟩ := (pendingClear_busy busy).mp h.pending
    exact h.sound.abortDraws noTable

theorem Inv.softReset {s : State} (h : Inv s) : Inv s.softReset :=
  resetRegs_inv h.abort_sound.memory h.abort_sound.draws

/-! ## Writes -/

theorem Inv.writeCtrl {s : State} (h : Inv s) (v : Word) : Inv (s.writeCtrl v) := by
  rw [State.writeCtrl]
  split_ifs
  · exact h.softReset
  · exact ⟨h.memory, h.output, h.snapshot, h.pending, h.table, h.errors, h.draws⟩

/-- Flags that are 0 while BUSY stay 0 when a write clears flags. -/
theorem Inv.clearFlags {s : State} (h : Inv s) (v : Word) : Inv (s.clearFlags v) := by
  have errors : ErrorSound (s.clearFlags v) := ⟨fun he => h.errors.1 (Bool.and_eq_true_iff.mp he).1, h.errors.2⟩
  cases hs : s.seq with
  | idle => exact Sound.inv_of_idle (s := s.clearFlags v) ⟨h.memory, h.output, h.table, errors, h.draws⟩ hs
  | busy k n =>
    obtain ⟨done, err, code, info, noTable⟩ := (pendingClear_busy hs).mp h.pending
    have pending : PendingClear (s.clearFlags v) := by
      refine (pendingClear_busy (s := s.clearFlags v) hs).mpr ⟨?_, ?_, code, info, noTable⟩
      · rw [State.clearFlags_status, done, Bool.false_and]
      · rw [State.clearFlags_status, err, Bool.false_and]
    exact ⟨h.memory, h.output, h.snapshot, pending, h.table, errors, h.draws⟩

theorem Inv.dropWrite {s : State} (h : Inv s) : Inv s.dropWrite :=
  ⟨h.memory, h.output, h.snapshot, h.pending, h.table, h.errors, h.draws⟩

theorem seq_idle_of_not_busy {s : State} (h : ¬s.busy = true) : s.seq = .idle := by
  cases hs : s.seq with
  | idle => rfl
  | busy k n => exact absurd (by rw [State.busy, hs]; rfl) h

/-- Acceptance takes a live snapshot and clears what R111 says; a BUILD's table goes with its summary. -/
theorem Inv.accept {s : State} (h : Inv s) (n : Nat) (w : Word) : Inv (s.accept n w) where
  memory := h.memory
  output := h.output
  snapshot := ⟨rfl, rfl, rfl, rfl⟩
  pending := ⟨rfl, rfl, rfl, rfl, fun hb => by
    show (!isBuild (s.command w) && s.status.tvalid) = false
    rw [show isBuild (s.command w) = true from hb]; rfl⟩
  table := by
    rw [TableSound, HoldsBuiltTable]
    simp only [State.accept_status, State.accept_mem, State.accept_nsym, State.accept_maxlen]
    cases isBuild (s.command w) with
    | true => exact ⟨nofun, fun _ => ⟨rfl, rfl⟩⟩
    | false => exact h.table
  errors := ⟨nofun, fun _ => rfl⟩
  draws := h.draws

/-- A draw number that no memory takes may be passed over. -/
theorem Inv.skipDraw {s : State} (h : Inv s) : Inv { s with draws := s.draws + 1 } :=
  ⟨h.memory, h.output, h.snapshot, h.pending, h.table, h.errors, h.draws.succ⟩

theorem Inv.present {s : State} (h : Inv s) (w : Word) : Inv (s.present w) := by
  rw [State.present]
  split_ifs
  · exact h.dropWrite
  · exact h.skipDraw.accept _ w

theorem Inv.unlessBusy {s t : State} (h : Inv s) (ht : s.seq = .idle → Inv t) : Inv (s.unlessBusy t) := by
  rw [State.unlessBusy]
  split_ifs with hb
  · exact h.dropWrite
  · exact ht (seq_idle_of_not_busy hb)

/-- A place of FREQ or IBUF that a word write fits in. -/
def Loc.fits : Loc → Prop
  | .freq a => 0x0400 ≤ a ∧ a % 4 = 0 ∧ a + 4 ≤ 0x0800
  | .ibuf a => 0x1000 ≤ a ∧ a + 4 ≤ 0x2000
  | _ => True

theorem locateReg_fits (a : Nat) : (locateReg a).fits := by
  unfold locateReg
  split <;> trivial

/-- Every offset selects a place that a word write fits in (20_memory.md R62). -/
theorem locate_fits (off : BitVec 16) : (locate off).fits := by
  have aligned := wordOffset_mod_four off
  rw [locate, locateWord]
  split_ifs with hreg hfreq hctab hibuf hobuf
  · exact locateReg_fits _
  · exact ⟨by omega, aligned, by omega⟩
  · trivial
  · exact ⟨by omega, by omega⟩
  · trivial
  · trivial

theorem Inv.store {s : State} (h : Inv s) (v : Word) {l : Loc} (hl : l.fits) : Inv (s.store v l) := by
  obtain ⟨hm, ho, ht, he, hd⟩ := h.sound
  cases l with
  | ctrl => exact h.writeCtrl v
  | status => exact h.clearFlags v
  | cmd => exact h.present v
  | padlen => exact h.unlessBusy (Sound.inv_of_idle (s := { s with padlen := v }) ⟨hm, ho, ht, he, hd⟩)
  | inLen => exact h.unlessBusy (Sound.inv_of_idle (s := { s with inLen := v }) ⟨hm, ho, ht, he, hd⟩)
  | freq a =>
    obtain ⟨lo, aligned, hi⟩ := hl
    have sound : Sound { s with mem := { s.mem with freq := s.mem.freq.write 4 a [freqKeep v] } } :=
      ⟨Memory.wf_freq_write hm a _ lo aligned hi, ho, ht, he, hd⟩
    exact h.unlessBusy sound.inv_of_idle
  | ibuf a =>
    obtain ⟨lo, hi⟩ := hl
    have sound : Sound { s with mem := { s.mem with ibuf := s.mem.ibuf.write 1 a (lanes v) } } :=
      ⟨Memory.wf_ibuf_write hm a _ lo hi, ho, ht, he, hd⟩
    exact h.unlessBusy sound.inv_of_idle
  | id | version | caps | outLen | errInfo | nsym | maxlen | abbrN | ctab a | obuf a | reserved => exact h

theorem Inv.hostWrite {s : State} (h : Inv s) (off : BitVec 16) (v : Word) : Inv (s.hostWrite off v) :=
  h.store v (locate_fits off)

theorem Inv.hostRead {s : State} (h : Inv s) (off : BitVec 16) : Inv (s.hostRead off).2 := by
  rw [State.hostRead]
  split_ifs
  · exact h.skipDraw
  · exact h

/-! ## Every step -/

theorem Inv.runLine {s : State} (h : Inv s) (l : Line) : Inv (s.runLine l) := by
  cases l with
  | write off v => exact (h.hostWrite off v).setMaster _
  | read off name => exact (h.hostRead off).setMaster _
  | branch name bit val target => rw [State.runLine_branch]; exact h.setMaster _
  | readIrq name => exact h.setMaster _
  | hardReset => exact (hardReset_inv s).setMaster _

theorem Inv.hostTurn {s : State} (h : Inv s) : Inv s.hostTurn := by
  rw [State.hostTurn]
  split
  · exact h.runLine _
  · exact h

/-- Settles O58, by the kind of step: a turn of the HOST, or the completion of the accepted word, whose BUILD has no table. -/
theorem stepKeepsInvariant : Obligations.StepKeepsInvariant := by
  intro s t h hstep
  cases hs : s.seq with
  | idle =>
    obtain ⟨⟩ := (step_idle hs).symm.trans hstep
    exact h.hostTurn
  | busy k n =>
    cases n with
    | zero =>
      obtain ⟨-, -, -, -, noTable⟩ := (pendingClear_busy hs).mp h.pending
      rw [step, hs] at hstep
      exact completion_inv h.sound noTable hstep
    | succ n =>
      obtain ⟨⟩ := (step_busy_succ hs).symm.trans hstep
      exact (h.setTurns hs n).hostTurn

/-- Settles O57: the state after reset is one that the reset of the registers leaves, over memories that are draws. -/
theorem invariantHoldsAtReset : Obligations.InvariantHoldsAtReset := fun p =>
  resetRegs_inv (s := State.reset.withProgram p) (Memory.drawn_wf 0) ⟨Nat.one_pos, Nat.one_pos, Nat.one_pos, Nat.one_pos⟩

end Sys2Proof.Machine
end

section
/-! PROOFS. The register map: reads by word offset, the words of the flags, the writes of the operand registers, and CTAB's fields. -/

namespace Sys2Proof.Machine

/-! ## Reads and writes by word offset -/

/-- A read at a place outside R293's list gives what stands there, at any time. -/
theorem State.hostRead_stable_at (s : State) {off : BitVec 16} {l : Loc} (h : locateWord (wordOffset off) = l)
    (hl : l.unstable = false) : s.hostRead off = (s.look l, s) := by
  subst h
  exact s.hostRead_stable hl

/-- A read while IDLE gives what stands at the place. -/
theorem State.hostRead_idle_at {s : State} (hs : s.seq = .idle) {off : BitVec 16} {l : Loc}
    (h : locateWord (wordOffset off) = l) : s.hostRead off = (s.look l, s) := by
  subst h
  exact State.hostRead_idle hs off

/-- The places of R293's list, by word offset. -/
theorem locateWord_unstable {a : Nat}
    (h : a = 0x0020 ∨ a = 0x0024 ∨ a = 0x0028 ∨ a = 0x002C ∨ (0x0400 ≤ a ∧ a < 0x3000)) :
    (locateWord a).unstable = true := by
  obtain rfl | rfl | rfl | rfl | ⟨lo, hi⟩ := h
  iterate 4 rfl
  rw [locateWord, if_neg (Nat.not_lt.mpr lo)]
  split_ifs <;> rfl

/-- The place of an aligned offset of the FREQ range is its entry. -/
theorem locate_freqEntry {n : Nat} (h : n < 256) : locate (BitVec.ofNat 16 (0x0400 + 4 * n)) = .freq (0x0400 + 4 * n) :=
  locate_of (wordOffset_ofNat (by omega) (by omega)) (locateWord_freq (by omega) (by omega))

/-! ## The words of the flags -/

theorem Fitting.capsWord_eq (f : Fitting) : f.capsWord = if f.abbr = none then 0x00CC0020 else 0x00CC0120 := by
  rw [Fitting.capsWord, Fitting.hasAbbr]
  cases f.abbr <;> rfl

theorem State.ctrlWord_eq (s : State) : s.ctrlWord = if s.ie then 1 else 0 := by
  rw [State.ctrlWord]
  cases s.ie <;> rfl

/-- STATUS bits 5:0 lie apart, so that their union is their sum. -/
theorem flagBits_eq_ofNat (busy done err wdrop tvalid outu : Bool) :
    flagBit busy 0 ||| flagBit done 1 ||| flagBit err 2 ||| flagBit wdrop 3 ||| flagBit tvalid 4 ||| flagBit outu 5 =
      BitVec.ofNat 32 (busy.toNat + 2 * done.toNat + 4 * err.toNat + 8 * wdrop.toNat + 16 * tvalid.toNat +
        32 * outu.toNat) := by
  revert busy done err wdrop tvalid outu
  decide

/-- A byte and a word shifted past it lie apart. -/
theorem or_shiftLeft_eight {n : Nat} (w : Word) (hn : n < 256) :
    BitVec.ofNat 32 n ||| w <<< 8 = BitVec.ofNat 32 (n + 256 * w.toNat) := by
  have apart : BitVec.ofNat 32 n &&& w <<< 8 = 0 := by
    refine BitVec.eq_of_getLsbD_eq fun i _ => ?_
    rcases Nat.lt_or_ge i 8 with h8 | h8
    · simp [h8]
    · have high : n.testBit i = false := Nat.testBit_lt_two_pow (hn.trans_le (Nat.pow_le_pow_right Nat.two_pos h8))
      simp [BitVec.getLsbD_ofNat, high]
  rw [← BitVec.add_eq_or_of_and_eq_zero _ _ apart]
  apply BitVec.eq_of_toNat_eq
  rw [BitVec.toNat_add, BitVec.toNat_shiftLeft, BitVec.toNat_ofNat, BitVec.toNat_ofNat, Nat.shiftLeft_eq]
  omega

theorem State.statusWord_eq (s : State) : s.statusWord =
    BitVec.ofNat 32 (s.busy.toNat + 2 * s.status.done.toNat + 4 * s.status.err.toNat + 8 * s.status.wdrop.toNat +
      16 * s.status.tvalid.toNat + 32 * s.status.outu.toNat + 256 * s.status.errCode.number.toNat) := by
  have bit : ∀ b : Bool, b.toNat ≤ 1 := Bool.toNat_le
  have := bit s.busy; have := bit s.status.done; have := bit s.status.err
  have := bit s.status.wdrop; have := bit s.status.tvalid; have := bit s.status.outu
  rw [State.statusWord, flagBits_eq_ofNat, or_shiftLeft_eight _ (by omega)]

/-! ## The statements about registers -/

/-- Settles O12, offset by offset: the place it selects, and what a read gives there. -/
theorem readsFollowTheRegisterMap : Obligations.ReadsFollowTheRegisterMap := by
  rintro s off w rfl
  refine ⟨fun idle => ?noEffect, fun h => ?id, fun h => ?version, fun h => ?caps, fun h => ?ctrl, fun h => ?status,
    fun h => ?cmd, fun h => ?padlen, fun h => ?inLen, fun h => ?abbrN, fun h => ?reserved,
    fun idle => ⟨fun h => ?outLen, fun h => ?errInfo, fun h => ?nsym, fun h => ?maxlen,
      fun n hn => ⟨fun h => ?freq, fun h => ?ctabLen, fun h => ?ctabCode⟩⟩, fun busy h => ?unstable⟩
  case noEffect => rw [State.hostRead_idle idle]
  case id | version | status | cmd | padlen | inLen | abbrN => exact s.hostRead_stable_at (congrArg locateWord h) rfl
  case caps => rw [s.hostRead_stable_at (congrArg locateWord h) rfl]; exact congrArg (·, s) s.fit.capsWord_eq
  case ctrl => rw [s.hostRead_stable_at (congrArg locateWord h) rfl]; exact congrArg (·, s) s.ctrlWord_eq
  case reserved => exact s.hostRead_stable_at (locateWord_reserved h) rfl
  case outLen | errInfo => exact State.hostRead_idle_at idle (congrArg locateWord h)
  case nsym | maxlen =>
    rw [State.hostRead_idle_at idle (congrArg locateWord h)]
    exact congrArg (·, s) (BitVec.ofNat_toNat ..).symm
  case freq =>
    rw [State.hostRead_idle_at idle (locateWord_freq (by omega) (by omega)), h]
    exact Table.freqWords_getElem? _ hn
  case ctabLen =>
    rw [State.hostRead_idle_at idle (locateWord_ctab (by omega) (by omega)), h]
    have place : 0x0800 + 8 * n = 0x0800 + 4 * (2 * n) := by omega
    exact ⟨place ▸ Table.ctabAll_getElem? _ (by omega), rfl⟩
  case ctabCode =>
    rw [State.hostRead_idle_at idle (locateWord_ctab (by omega) (by omega)), h]
    have place : 0x0804 + 8 * n = 0x0800 + 4 * (2 * n + 1) := by omega
    exact ⟨place ▸ Table.ctabAll_getElem? _ (by omega), rfl⟩
  case unstable => exact State.hostRead_busy busy (locateWord_unstable h)

theorem freqKeep_freqKeep (v : Word) : freqKeep (freqKeep v) = freqKeep v := by
  simp only [freqKeep, BitVec.and_assoc, BitVec.and_self]

/-- A FREQ entry just written reads back without its reserved bits (10_state.md R33). -/
theorem Table.freqAt_write (st : Table) (a : Nat) (v : Word) : Table.freqAt (st.write 4 a [freqKeep v]) a = freqKeep v := by
  have back : (st.write 4 a [freqKeep v]).get Config.freeWord a = freqKeep v :=
    Store.get_write_same Config.freeWord 4 (by omega) a [freqKeep v] st 0 Nat.one_pos
  rw [Table.freqAt, back, freqKeep_freqKeep]

/-- What a write of a FREQ entry does while IDLE. -/
theorem State.hostWrite_freqEntry {s : State} (hs : s.seq = .idle) {n : Nat} (hn : n < 256) (v : Word) :
    s.hostWrite (BitVec.ofNat 16 (0x0400 + 4 * n)) v =
      { s with mem := { s.mem with freq := s.mem.freq.write 4 (0x0400 + 4 * n) [freqKeep v] } } := by
  rw [s.hostWrite_of v (locate_freqEntry hn)]
  exact State.unlessBusy_idle hs _

/-- Settles O16: each write is the update of its place, which a read then finds. -/
theorem operandRegistersStoreAllBits : Obligations.OperandRegistersStoreAllBits := by
  intro s v n hs hn
  have padlen : s.hostWrite 0x0018 v = { s with padlen := v } := State.unlessBusy_idle hs _
  have inLen : s.hostWrite 0x001C v = { s with inLen := v } := State.unlessBusy_idle hs _
  rw [padlen, inLen, State.hostWrite_freqEntry hs hn]
  refine ⟨rfl, rfl, ?padlenBack, ?inLenBack, ?freqBack, keptOutside_freqEntry n _ rfl, _, rfl⟩
  case padlenBack => rw [State.hostRead_idle (by exact hs)]; rfl
  case inLenBack => rw [State.hostRead_idle (by exact hs)]; rfl
  case freqBack =>
    rw [State.hostRead_idle (by exact hs), locate_freqEntry hn]
    exact Table.freqAt_write ..

/-- Settles O17: the word as the sum of its fields, and the write at STATUS's offset. -/
theorem statusReadsAndClears : Obligations.StatusReadsAndClears := fun s _ => ⟨s.statusWord_eq, rfl, rfl⟩

/-- Settles O18: the write at CTRL's offset, by SRST. -/
theorem ctrlWriteRule : Obligations.CtrlWriteRule := by
  intro s v
  have write : s.hostWrite 0x000C v = if v.getLsbD 1 then s.softReset else { s with ie := v.getLsbD 0 } := rfl
  refine ⟨fun srst => ?_, fun srst => ?_, s.ctrlWord_eq⟩
  · rw [write, if_pos srst]
    exact ⟨rfl, rfl⟩
  · rw [write, if_neg (Bool.eq_false_iff.mp srst)]

/-- Settles O22: an IDLE block's reads, each by its place. -/
theorem resetReadsAsSpecified : Obligations.ResetReadsAsSpecified := by
  unfold Obligations.ResetReadsAsSpecified
  simp only [State.hostRead_idle (s := State.reset) rfl]
  rfl

/-! ## The table the codec reads from CTAB -/

theorem ctabLen_eq (l : Word) : ctabLen l = l.toNat % 64 := by simp [ctabLen, BitVec.extractLsb'_toNat]

/-- The entries of the words from symbol `s` on have no symbol below `s`. -/
theorem entriesFrom_sym_le {s : Nat} {ws : List Word} {e : CodeEntry} (h : e ∈ entriesFrom s ws) : s ≤ e.sym := by
  induction s, ws using entriesFrom.induct with
  | case1 s l c ws valid ih =>
    rw [entriesFrom, if_pos valid] at h
    obtain rfl | h := List.mem_cons.mp h
    · exact le_refl _
    · exact Nat.le_of_succ_le (ih h)
  | case2 s l c ws invalid ih =>
    rw [entriesFrom, if_neg invalid] at h
    exact Nat.le_of_succ_le (ih h)
  | case3 s ws short => simp [entriesFrom] at h

theorem findSym_entriesFrom_below {s n : Nat} (h : n < s) (ws : List Word) : findSym (entriesFrom s ws) n = none := by
  refine List.find?_eq_none.mpr fun e he => ?_
  have := entriesFrom_sym_le he
  rw [Nat.beq_eq]
  omega

theorem findSym_cons_of_ne {e : CodeEntry} {n : Nat} (h : e.sym ≠ n) (es : List CodeEntry) :
    findSym (e :: es) n = findSym es n :=
  List.find?_cons_of_neg fun he => h (Nat.eq_of_beq_eq_true he)

/-- Symbol `s + k` is found by the `k`-th pair of words. -/
theorem findSym_entriesFrom (s k : Nat) (ws : List Word) (l c : Word) (hl : ws[2 * k]? = some l)
    (hc : ws[2 * k + 1]? = some c) :
    findSym (entriesFrom s ws) (s + k) = if l.getLsbD 31 then some ⟨s + k, l.toNat % 64, c.toNat⟩ else none := by
  induction k generalizing s ws with
  | zero =>
    obtain ⟨ws, rfl⟩ : ∃ rest, ws = l :: c :: rest := by
      match ws, hl, hc with
      | _ :: _ :: rest, rfl, rfl => exact ⟨rest, rfl⟩
    rw [entriesFrom, ctabValid, ctabLen_eq]
    split_ifs
    · simp [findSym]
    · exact findSym_entriesFrom_below (Nat.lt_succ_self _) ws
  | succ k ih =>
    obtain ⟨l', c', ws, rfl⟩ : ∃ l' c' rest, ws = l' :: c' :: rest := by
      match ws, hl with
      | l' :: c' :: rest, _ => exact ⟨l', c', rest, rfl⟩
    have found := ih (s + 1) ws hl hc
    rw [Nat.succ_add_eq_add_succ] at found
    by_cases valid : ctabValid l' = true
    · rw [entriesFrom, if_pos valid, findSym_cons_of_ne (Nat.ne_of_lt (Nat.lt_add_of_pos_right k.succ_pos))]
      exact found
    · rw [entriesFrom, if_neg valid]
      exact found

/-- Settles O42: symbol n by the pair of words at its offsets. -/
theorem entriesReadCtabFields : Obligations.EntriesReadCtabFields := by
  intro st n hn
  have len : st.ctabAll[2 * n]? = some (st.ctabAt (0x0800 + 8 * n)) := by
    rw [st.ctabAll_getElem? (by omega)]
    congr 2; omega
  have code : st.ctabAll[2 * n + 1]? = some (st.ctabAt (0x0804 + 8 * n)) := by
    rw [st.ctabAll_getElem? (by omega)]
    congr 2; omega
  have found := findSym_entriesFrom 0 n st.ctabAll _ _ len code
  rwa [Nat.zero_add] at found

end Sys2Proof.Machine
end

section
/-! PROOFS. The bus and the buffers: offsets that select one place, places that no write changes, reserved bits, the lanes of a
word, and the four primitives IBITS, WriteBits, ITEXT and WriteBytes (spec 20_memory.md). -/

namespace Sys2Proof.Machine

/-! ## Offsets of one word (R62) -/

theorem wordOffset_masked (off : BitVec 16) : wordOffset (off &&& 0xFFFC) = wordOffset off := by
  rw [wordOffset, wordOffset, BitVec.and_assoc, BitVec.and_self]

theorem locate_masked (off : BitVec 16) : locate (off &&& 0xFFFC) = locate off := by
  rw [locate, locate, wordOffset_masked]

/-- Settles O13: a transaction depends on its offset through the word offset alone, which the mask keeps. -/
theorem lowOffsetBitsAreIgnored : Obligations.LowOffsetBitsAreIgnored := by
  intro s off v
  constructor
  · simp only [State.hostRead, locate_masked, wordOffset_masked]
  · rw [State.hostWrite, State.hostWrite, locate_masked]

/-! ## Places that no write changes (R66) -/

/-- The registers from OUT_LEN to ABBR_N are read-only. -/
theorem State.store_resultRegister (s : State) (v : Word) {a : Nat} (lo : 0x0020 ≤ a) (hi : a ≤ 0x0030)
    (aligned : a % 4 = 0) : s.store v (locateWord a) = s := by
  obtain rfl | rfl | rfl | rfl | rfl : a = 0x0020 ∨ a = 0x0024 ∨ a = 0x0028 ∨ a = 0x002C ∨ a = 0x0030 := by omega
  all_goals rfl

theorem State.hostWrite_readOnly (s : State) (v : Word) {off : BitVec 16}
    (h : wordOffset off = 0x0000 ∨ wordOffset off = 0x0004 ∨ wordOffset off = 0x0008 ∨
      (0x0020 ≤ wordOffset off ∧ wordOffset off ≤ 0x0030) ∨
      (0x0800 ≤ wordOffset off ∧ wordOffset off < 0x1000) ∨ (0x2000 ≤ wordOffset off ∧ wordOffset off < 0x3000)) :
    s.hostWrite off v = s := by
  obtain h | h | h | ⟨lo, hi⟩ | ⟨lo, hi⟩ | ⟨lo, hi⟩ := h
  · exact s.hostWrite_of v (locate_of h rfl)
  · exact s.hostWrite_of v (locate_of h rfl)
  · exact s.hostWrite_of v (locate_of h rfl)
  · exact s.store_resultRegister v lo hi (wordOffset_mod_four off)
  · exact s.hostWrite_of v (locate_of rfl (locateWord_ctab lo hi))
  · exact s.hostWrite_of v (locate_of rfl (locateWord_obuf lo hi))

/-! ## Reserved bits (R66) -/

/-- A flag has no bit in a mask that its own bit is not in. -/
theorem flagBit_and_eq_zero {k : Nat} {m : Word} (h : 1#32 <<< k &&& m = 0) (b : Bool) : flagBit b k &&& m = 0 := by
  cases b
  · exact BitVec.zero_and
  · exact h

theorem or_and_eq_zero {x y m : Word} (hx : x &&& m = 0) (hy : y &&& m = 0) : (x ||| y) &&& m = 0 := by
  rw [BitVec.and_or_distrib_right, hx, hy]
  rfl

theorem State.statusWord_reserved (s : State) : s.statusWord &&& 0xFFFF00C0 = 0 := by
  refine or_and_eq_zero (or_and_eq_zero (or_and_eq_zero (or_and_eq_zero (or_and_eq_zero (or_and_eq_zero
    ?busy ?done) ?err) ?wdrop) ?tvalid) ?outu) ?code
  case code => cases s.status.errCode <;> rfl
  case busy | done | err | wdrop | tvalid | outu => exact flagBit_and_eq_zero rfl _

/-- A register of `w` bits reads 0 above them. -/
theorem setWidth_and_high {w : Nat} (x : BitVec w) : x.setWidth 32 &&& BitVec.allOnes 32 <<< w = 0 := by
  refine BitVec.eq_of_getLsbD_eq fun i _ => ?_
  rcases Nat.lt_or_ge i w with low | high
  · simp [low]
  · simp [BitVec.getLsbD_of_ge x i high]

theorem freqKeep_reserved (v : Word) : freqKeep v &&& 0x7F000000 = 0 := by
  rw [freqKeep, BitVec.and_assoc]
  exact BitVec.and_zero

/-- A write to CTRL sees bits 1:0 of the value alone. -/
theorem State.writeCtrl_masked (s : State) (v : Word) : s.writeCtrl (v &&& 0x00000003) = s.writeCtrl v := by
  simp [State.writeCtrl]

/-- A write to STATUS sees bits 3:1 of the value alone. -/
theorem State.clearFlags_masked (s : State) (v : Word) : s.clearFlags (v &&& 0x0000000E) = s.clearFlags v := by
  simp [State.clearFlags]

theorem State.hostWrite_freq_masked (s : State) (v : Word) {off : BitVec 16} (lo : 0x0400 ≤ wordOffset off)
    (hi : wordOffset off < 0x0800) : s.hostWrite off (v &&& 0x80FFFFFF) = s.hostWrite off v := by
  have place : locate off = .freq (wordOffset off) := locate_of rfl (locateWord_freq lo hi)
  have kept : freqKeep (v &&& 0x80FFFFFF) = freqKeep v := freqKeep_freqKeep v
  rw [s.hostWrite_of _ place, s.hostWrite_of _ place, State.store, State.store, kept]

/-- Settles O14: places by word offset, then the reserved bits, read and written. -/
theorem reservedAndReadOnlySpace : Obligations.ReservedAndReadOnlySpace := by
  intro s off v
  refine ⟨fun h => ⟨?reservedRead, ?reservedWrite⟩, s.hostWrite_readOnly v, ?ctrl, s.statusWord_reserved,
    setWidth_and_high s.nsym, setWidth_and_high s.maxlen, fun a => freqKeep_reserved _, (s.writeCtrl_masked v).symm,
    (s.clearFlags_masked v).symm, fun ⟨lo, hi⟩ => (s.hostWrite_freq_masked v lo hi).symm⟩
  case reservedRead => rw [s.hostRead_stable_at (locateWord_reserved h) rfl]; rfl
  case reservedWrite => exact s.hostWrite_of v (locate_of rfl (locateWord_reserved h))
  case ctrl => exact flagBit_and_eq_zero rfl s.ie

/-! ## Lanes (R63) -/

theorem lanes_getElem (v : Word) {j : Nat} (h : j < (lanes v).length) : (lanes v)[j] = v.extractLsb' (8 * j) 8 := by
  match j, h with
  | 0, _ | 1, _ | 2, _ | 3, _ => rfl

theorem locate_ibufWord {k : Nat} (h : k < 1024) : locate (BitVec.ofNat 16 (0x1000 + 4 * k)) = .ibuf (0x1000 + 4 * k) :=
  locate_of (wordOffset_ofNat (by omega) (by omega)) (locateWord_ibuf (by omega) (by omega))

theorem locate_obufWord {k : Nat} (h : k < 1024) : locate (BitVec.ofNat 16 (0x2000 + 4 * k)) = .obuf (0x2000 + 4 * k) :=
  locate_of (wordOffset_ofNat (by omega) (by omega)) (locateWord_obuf (by omega) (by omega))

/-- What a write of an IBUF word does while IDLE. -/
theorem State.hostWrite_ibufWord {s : State} (hs : s.seq = .idle) {k : Nat} (hk : k < 1024) (v : Word) :
    s.hostWrite (BitVec.ofNat 16 (0x1000 + 4 * k)) v =
      { s with mem := { s.mem with ibuf := s.mem.ibuf.write 1 (0x1000 + 4 * k) (lanes v) } } := by
  rw [s.hostWrite_of v (locate_ibufWord hk)]
  exact State.unlessBusy_idle hs _

/-- A byte just written into a buffer reads back. -/
theorem Bytes.at_write (st : Bytes) (a : Nat) (bs : List Byte) {j : Nat} (h : j < bs.length) :
    Bytes.at (st.write 1 a bs) (a + j) = bs[j] := by
  have back := Store.get_write_same Config.freeByte 1 Nat.one_pos a bs st j h
  rwa [one_mul] at back

/-- Settles O15: the word of a buffer is read by its lanes, and written as the bytes of its lanes. -/
theorem bufferLanesAreLittleEndian : Obligations.BufferLanesAreLittleEndian := by
  intro s k v hs hk
  rw [State.hostRead_idle hs, locate_ibufWord hk, State.hostRead_idle hs, locate_obufWord hk, State.hostWrite_ibufWord hs hk]
  refine ⟨rfl, rfl, fun j hj => ?_, keptOutside_ibufWrite _ (lanes v) rfl, _, rfl⟩
  exact (Bytes.at_write _ _ (lanes v) hj).trans (lanes_getElem v hj)

/-! ## Bits of a byte string (R64, R70) -/

theorem byteBits_getElem? (b : Byte) {j : Nat} (h : j < 8) : (byteBits b)[j]? = some (b.getLsbD (7 - j)) := by
  simp [byteBits, h]

@[simp] theorem byteBits_length (b : Byte) : (byteBits b).length = 8 := by simp [byteBits]

theorem flatMap_byteBits_length (bs : List Byte) : (bs.flatMap byteBits).length = 8 * bs.length := by
  simp [List.length_flatMap, mul_comm]

/-- Bit `i` of a byte string is bit `7 - i % 8` of byte `i / 8`. -/
theorem flatMap_byteBits_getElem? (bs : List Byte) (i : Nat) :
    (bs.flatMap byteBits)[i]? = bs[i / 8]?.map fun b => b.getLsbD (7 - i % 8) := by
  induction bs generalizing i with
  | nil => rfl
  | cons b bs ih =>
    rw [List.flatMap_cons]
    rcases Nat.lt_or_ge i 8 with inHead | inTail
    · rw [List.getElem?_append_left (by simpa using inHead), byteBits_getElem? b inHead, Nat.div_eq_of_lt inHead,
        Nat.mod_eq_of_lt inHead]
      rfl
    · obtain ⟨i, rfl⟩ := Nat.exists_eq_add_of_le' inTail
      rw [List.getElem?_append_right (by simp), byteBits_length, Nat.add_sub_cancel, ih, Nat.add_div_right i (by omega),
        Nat.add_mod_right]
      rfl

/-- Byte `k` of ITEXT(n) (R72). -/
theorem Bytes.itext_getElem? (st : Bytes) {n k : Nat} (h : k < n) : (Bytes.itext n st)[k]? = some (st.at (0x1000 + k)) := by
  have inText : k < (Bytes.itext n st).length := by rwa [Bytes.itext_length]
  rw [List.getElem?_eq_getElem inText]
  exact congrArg some (Bytes.take_getElem n 0x1000 k st inText)

theorem Bytes.ibits_length (st : Bytes) (n : Nat) : (Bytes.ibits n st).length = n := by
  rw [Bytes.ibits, bitsOf, List.length_take, flatMap_byteBits_length, Bytes.itext_length, byteCount]
  omega

theorem Bytes.ibits_getElem? (st : Bytes) {n i : Nat} (h : i < n) :
    (Bytes.ibits n st)[i]? = some ((st.at (0x1000 + i / 8)).getLsbD (7 - i % 8)) := by
  have byte : i / 8 < byteCount n := by rw [byteCount]; omega
  rw [Bytes.ibits, bitsOf, List.getElem?_take_of_lt h, flatMap_byteBits_getElem?, Bytes.itext_getElem? st byte]
  rfl

/-- Settles O23: bit `i` of the bytes that ITEXT reads. -/
theorem ibitsReadsMsbFirst : Obligations.IbitsReadsMsbFirst := fun st n _ =>
  ⟨st.ibits_length n, fun _ hi => st.ibits_getElem? hi⟩

/-! ## Packing bits (R71) -/

/-- R71's sum is the byte whose bits, from the top down, are the sequence. -/
theorem packByte_eq_ofBits (c : List Bool) :
    packByte c = BitVec.ofNat 8 (Nat.ofBits fun i : Fin 8 => c.getD (7 - i) false) := by
  refine congrArg (BitVec.ofNat 8) ?_
  simp only [List.range_succ, List.range_zero, List.nil_append, List.cons_append, List.map_cons, List.map_nil, List.sum_cons,
    List.sum_nil, Nat.shiftLeft_eq, Nat.ofBits, Fin.foldr_succ, Fin.foldr_zero, Fin.val_succ, Fin.val_zero, Nat.reduceAdd,
    Nat.reduceSub, Nat.reducePow]
  omega

theorem packByte_getLsbD (c : List Bool) {j : Nat} (h : j < 8) : (packByte c).getLsbD (7 - j) = c.getD j false := by
  have inByte : 7 - j < 8 := by omega
  have place : 7 - (7 - j) = j := by omega
  rw [packByte_eq_ofBits, BitVec.getLsbD_ofNat, Nat.testBit_ofBits_lt _ _ inByte, place, decide_eq_true inByte, Bool.true_and]

/-- Bit `7 - j` of packed byte `k` is bit `8 * k + j` of the sequence, 0 past its end. -/
theorem packBits_getElem_getLsbD (b : List Bool) {k j : Nat} (hk : k < (packBits b).length) (hj : j < 8) :
    (packBits b)[k].getLsbD (7 - j) = b.getD (8 * k + j) false := by
  simp only [packBits, List.getElem_map, List.getElem_range, packByte_getLsbD _ hj, List.getD_eq_getElem?_getD,
    List.getElem?_take_of_lt hj, List.getElem?_drop]

/-! ## The primitives that write OBUF (R71, R72) -/

theorem State.writeBytes_obuf_at (s : State) (bs : List Byte) {k : Nat} (h : k < bs.length) :
    (s.writeBytes bs).mem.obuf.at (0x2000 + k) = bs[k] := Bytes.at_write _ _ bs h

/-- Settles O24: WriteBits is WriteBytes of the packed bytes, whose bits are the sequence's. -/
theorem writeBitsPacksMsbFirst : Obligations.WriteBitsPacksMsbFirst := by
  intro s b _
  have size : (packBits b).length = (b.length + 7) / 8 := packBits_length b
  constructor
  · intro k j hk hj
    rw [← size] at hk
    rw [State.writeBits, State.writeBytes_obuf_at s (packBits b) hk, packBits_getElem_getLsbD b hk hj]
  · rw [← size]
    exact keptOutside_obufWrite (packBits b) rfl

/-- Settles O25: the bytes that ITEXT reads, and those that WriteBytes leaves. -/
theorem textPrimitives : Obligations.TextPrimitives := by
  refine ⟨fun st n k _ => ⟨Bytes.itext_length n st, Bytes.itext_getElem? st⟩,
    fun s bs _ => ⟨fun k hk => ?_, keptOutside_obufWrite bs rfl⟩⟩
  rw [s.writeBytes_obuf_at bs hk, List.getElem?_eq_getElem hk]

end Sys2Proof.Machine
end

section
/-! PROOFS. The decoder and the encoder: the three outcomes of decodeWord said once, and the statements about words
(spec 30_encoding.md). -/

namespace Sys2Proof

/-! ## The fields of a word (R91) -/

theorem opcField_eq (w : Word) : opcField w = w.toNat % 256 := by simp [opcField, BitVec.extractLsb'_toNat]

theorem rsvField_eq (w : Word) : rsvField w = w.toNat / 256 := by
  have h := w.isLt
  rw [rsvField, BitVec.extractLsb'_toNat, Nat.shiftRight_eq_div_pow]
  omega

/-! ## The opcode map (R93) -/

/-- Every command has its row of R93. -/
theorem encodingStatement (i : Instr) : Laws.Encoding.Statement i := by
  cases i with
  | nop => exact Laws.Encoding.nop
  | pad => exact Laws.Encoding.pad
  | strip => exact Laws.Encoding.strip
  | xfer => exact Laws.Encoding.xfer
  | clearFreq => exact Laws.Encoding.clearFreq
  | buildFreq => exact Laws.Encoding.buildFreq
  | buildSample => exact Laws.Encoding.buildSample
  | buildDefault => exact Laws.Encoding.buildDefault
  | encode => exact Laws.Encoding.encode
  | decode => exact Laws.Encoding.decode
  | abbrW2A => exact Laws.Encoding.abbrW2A
  | abbrA2W => exact Laws.Encoding.abbrA2W

/-- No two opcodes stand for one command. -/
theorem toNat_encode_of_opcodeMap {n : Nat} {i : Instr} (h : opcodeMap n = some i) : (encode i).toNat = n := by
  unfold opcodeMap at h
  split at h <;> cases h <;> rfl

theorem opcodeMap_eq_none_iff (n : Nat) : opcodeMap n = none ↔
    n ∉ [0x00, 0x10, 0x11, 0x12, 0x20, 0x21, 0x22, 0x23, 0x30, 0x31, 0x40, 0x41] := by
  unfold opcodeMap
  split <;> simp_all

/-- R94(c): the opcodes that need the unit. -/
theorem wellFormed_eq_false_iff (h : Bool) (i : Instr) :
    WellFormed h i = false ↔ h = false ∧ (encode i = 0x00000040 ∨ encode i = 0x00000041) := by
  cases i <;> simp [WellFormed, Instr.needsAbbr, encode]

/-! ## decodeWord (R94, R95) -/

theorem decodeWord_encode (h : Bool) (i : Instr) :
    decodeWord h (encode i) = if WellFormed h i then .ok i else .error .unitAbsent := by
  obtain ⟨-, -, decodes⟩ := encodingStatement i
  obtain ⟨fitted, absent⟩ := decodes h
  split_ifs with hw
  · exact fitted hw
  · exact absent (Bool.eq_false_iff.mpr hw)

theorem decodeWord_reservedBits {w : Word} (h : Bool) (hr : 256 ≤ w.toNat) : decodeWord h w = .error .reservedBits := by
  have reserved : rsvField w ≠ 0 := by rw [rsvField_eq]; omega
  rw [decodeWord, if_pos (bne_iff_ne.mpr reserved)]

theorem decodeWord_unassigned {w : Word} (h : Bool) (hr : w.toNat < 256) (ho : opcodeMap w.toNat = none) :
    decodeWord h w = .error .unassignedOpcode := by
  have reserved : rsvField w = 0 := by rw [rsvField_eq]; omega
  have opcode : opcField w = w.toNat := by rw [opcField_eq]; omega
  simp [decodeWord, reserved, opcode, ho]

/-- A word has reserved bits, or an opcode of no command, or it is the word of a command. -/
theorem decodeWord_cases (h : Bool) (w : Word) :
    (256 ≤ w.toNat ∧ decodeWord h w = .error .reservedBits) ∨
    (w.toNat < 256 ∧ opcodeMap w.toNat = none ∧ decodeWord h w = .error .unassignedOpcode) ∨
    ∃ i, w = encode i ∧ decodeWord h w = if WellFormed h i then .ok i else .error .unitAbsent := by
  rcases Nat.lt_or_ge w.toNat 256 with hr | hr
  · cases ho : opcodeMap w.toNat with
    | none => exact .inr (.inl ⟨hr, rfl, decodeWord_unassigned h hr ho⟩)
    | some i =>
      have isWord : w = encode i := BitVec.eq_of_toNat_eq (toNat_encode_of_opcodeMap ho).symm
      exact .inr (.inr ⟨i, isWord, isWord ▸ decodeWord_encode h i⟩)
  · exact .inl ⟨hr, decodeWord_reservedBits h hr⟩

theorem decodeWord_ok_iff (h : Bool) (w : Word) (i : Instr) :
    decodeWord h w = .ok i ↔ WellFormed h i = true ∧ w = encode i := by
  constructor
  · intro decoded
    rcases decodeWord_cases h w with ⟨-, e⟩ | ⟨-, -, e⟩ | ⟨j, isWord, e⟩ <;> rw [e] at decoded
    · exact nomatch decoded
    · exact nomatch decoded
    · split_ifs at decoded with hw
      obtain ⟨⟩ := decoded
      exact ⟨hw, isWord⟩
  · rintro ⟨hw, rfl⟩
    rw [decodeWord_encode, if_pos hw]

theorem decodeWord_reservedBits_iff (h : Bool) (w : Word) : decodeWord h w = .error .reservedBits ↔ 256 ≤ w.toNat := by
  refine ⟨fun decoded => ?_, decodeWord_reservedBits h⟩
  rcases decodeWord_cases h w with ⟨hr, -⟩ | ⟨-, -, e⟩ | ⟨i, -, e⟩
  · exact hr
  · exact nomatch e.symm.trans decoded
  · rw [e] at decoded
    split_ifs at decoded
    exact nomatch decoded

theorem decodeWord_unassigned_iff (h : Bool) (w : Word) :
    decodeWord h w = .error .unassignedOpcode ↔ w.toNat < 256 ∧ opcodeMap w.toNat = none := by
  refine ⟨fun decoded => ?_, fun ⟨hr, ho⟩ => decodeWord_unassigned h hr ho⟩
  rcases decodeWord_cases h w with ⟨-, e⟩ | ⟨hr, ho, -⟩ | ⟨i, -, e⟩
  · exact nomatch e.symm.trans decoded
  · exact ⟨hr, ho⟩
  · rw [e] at decoded
    split_ifs at decoded
    exact nomatch decoded

theorem decodeWord_unitAbsent_iff (h : Bool) (w : Word) :
    decodeWord h w = .error .unitAbsent ↔ ∃ i, w = encode i ∧ WellFormed h i = false := by
  constructor
  · intro decoded
    rcases decodeWord_cases h w with ⟨-, e⟩ | ⟨-, -, e⟩ | ⟨i, isWord, e⟩ <;> rw [e] at decoded
    · exact nomatch decoded
    · exact nomatch decoded
    · split_ifs at decoded with hw
      exact ⟨i, isWord, Bool.eq_false_iff.mpr hw⟩
  · rintro ⟨i, rfl, hw⟩
    rw [decodeWord_encode, hw]
    rfl

/-! ## The statements about words -/

/-- Settles O1: a word that decodes has no reserved bits, and no opcode stands for two commands. -/
theorem decodeInvertsEncode : Obligations.DecodeInvertsEncode := decodeWord_ok_iff

/-- Settles O2: row by row of R95, by the equivalence of decoding with encoding. -/
theorem decodeFollowsOpcodeMap : Obligations.DecodeFollowsOpcodeMap := by
  intro h w
  have always : ∀ {i : Instr}, i.needsAbbr = false → (decodeWord h w = .ok i ↔ w = encode i) := fun {i} hi => by
    rw [decodeWord_ok_iff, WellFormed, hi]
    exact and_iff_right rfl
  have fitted : ∀ {i : Instr}, i.needsAbbr = true → (decodeWord h w = .ok i ↔ w = encode i ∧ h = true) := fun {i} hi => by
    rw [decodeWord_ok_iff, WellFormed, hi]
    exact and_comm
  refine ⟨always rfl, always rfl, always rfl, always rfl, always rfl, always rfl, always rfl, always rfl, always rfl,
    always rfl, fitted rfl, fitted rfl, ?_⟩
  cases decodeWord h w with
  | ok i => simp
  | error e => simp

/-- Settles O3: the three refusals of decodeWord, with the opcodes of R93 written out. -/
theorem illegalWordsByReason : Obligations.IllegalWordsByReason := by
  intro h w
  refine ⟨decodeWord_reservedBits_iff h w, ?unassigned, ?unitAbsent⟩
  case unassigned => rw [decodeWord_unassigned_iff, opcodeMap_eq_none_iff]
  case unitAbsent =>
    rw [decodeWord_unitAbsent_iff]
    constructor
    · rintro ⟨i, rfl, hw⟩
      exact (wellFormed_eq_false_iff h i).mp hw
    · rintro ⟨rfl, rfl | rfl⟩
      · exact ⟨.abbrW2A, rfl, rfl⟩
      · exact ⟨.abbrA2W, rfl, rfl⟩

/-- Settles O4, by running the decoder on the five words. -/
theorem tableWordsDecode : Obligations.TableWordsDecode := by
  unfold Obligations.TableWordsDecode
  decide

end Sys2Proof
end

section
/-! PROOFS. What a command can write: R92's row as a frame, which every body and R117's discard keep, and the draws that an error
completion leaves (spec 40_command_sequencer.md R115, R117). -/

namespace Sys2Proof.Machine

/-! ## The row of a command -/

/-- The commands that write OBUF, OUT_LEN and OUTU (30_encoding.md R92). -/
abbrev outputCommands : List Instr := [.pad, .strip, .encode, .decode, .abbrW2A, .abbrA2W]

/-- The commands that write FREQ. -/
abbrev freqCommands : List Instr := [.clearFreq, .buildSample, .buildDefault]

/-- The commands that write CTAB, NSYM, MAXLEN and TVALID. -/
abbrev buildCommands : List Instr := [.buildFreq, .buildSample, .buildDefault]

/-- The two commands of the abbreviation unit. -/
abbrev lookupCommands : List Instr := [.abbrW2A, .abbrA2W]

/-- The commands with output that need no unit. -/
abbrev coreOutputCommands : List Instr := [.pad, .strip, .encode, .decode]

theorem lookupCommands_subset : lookupCommands ⊆ outputCommands :=
  (by decide : lookupCommands.Sublist outputCommands).subset

theorem coreOutputCommands_subset : coreOutputCommands ⊆ outputCommands :=
  (by decide : coreOutputCommands.Sublist outputCommands).subset

theorem lookupCommands_disjoint_coreOutputCommands : lookupCommands.Disjoint coreOutputCommands := by simp

theorem lookupCommands_disjoint_buildCommands : lookupCommands.Disjoint buildCommands := by simp

/-- From `s` to `t` nothing outside the row of `i` in 30_encoding.md R92 is written. -/
structure KeepsRow (i : Instr) (s t : State) : Prop where
  unwritten : Unwritten s t
  input : i ≠ .xfer → t.inLen = s.inLen ∧ t.mem.ibuf = s.mem.ibuf
  output : i ∉ outputCommands → SameOutput s t ∧ t.mem.obuf = s.mem.obuf
  freq : i ∉ freqCommands → t.mem.freq = s.mem.freq
  table : i ∉ buildCommands → SameSummary s t ∧ t.mem.ctab = s.mem.ctab

theorem Unwritten.refl (s : State) : Unwritten s s := ⟨rfl, rfl, rfl, rfl, rfl⟩

theorem SameOutput.refl (s : State) : SameOutput s s := ⟨rfl, rfl⟩

theorem SameSummary.refl (s : State) : SameSummary s s := ⟨rfl, rfl, rfl⟩

theorem KeepsRow.refl (i : Instr) (s : State) : KeepsRow i s s :=
  ⟨.refl s, fun _ => ⟨rfl, rfl⟩, fun _ => ⟨.refl s, rfl⟩, fun _ => rfl, fun _ => ⟨.refl s, rfl⟩⟩

/-- A completion's own writes (R115, R117) are in no row. -/
theorem KeepsRow.complete {i : Instr} {s t : State} (h : KeepsRow i s t) (err : Bool) (code : ErrCode) (info : Word) :
    KeepsRow i s { t with
      status := { t.status with done := true, err := err, errCode := code }, errInfo := info, seq := .idle } :=
  ⟨h.unwritten, h.input, h.output, h.freq, h.table⟩

/-- The six commands with output may write OBUF, OUT_LEN and OUTU. -/
theorem KeepsRow.writeOutput {i : Instr} (hi : i ∈ outputCommands) (s : State)
    (bs : List Byte) (n : Nat) (u : Bool) : KeepsRow i s ((s.writeBytes bs).setOut n u) :=
  ⟨.refl s, fun _ => ⟨rfl, rfl⟩, fun other => absurd hi other, fun _ => rfl, fun _ => ⟨.refl s, rfl⟩⟩

theorem KeepsRow.setFreq {i : Instr} (hi : i ∈ freqCommands) (s : State) (ws : List Word) :
    KeepsRow i s (s.setFreq ws) :=
  ⟨.refl s, fun _ => ⟨rfl, rfl⟩, fun _ => ⟨.refl s, rfl⟩, fun other => absurd hi other, fun _ => ⟨.refl s, rfl⟩⟩

theorem KeepsRow.setTable {i : Instr} (hi : i ∈ buildCommands) {s t : State} (h : KeepsRow i s t)
    (codes : List CodeEntry) (m : Nat) : KeepsRow i s (t.setTable codes m) :=
  ⟨h.unwritten, h.input, h.output, h.freq, fun other => absurd hi other⟩

theorem KeepsRow.drawCtab {i : Instr} (hi : i ∈ buildCommands) {s t : State} (h : KeepsRow i s t) :
    KeepsRow i s t.drawCtab :=
  ⟨h.unwritten, h.input, h.output, h.freq, fun other => absurd hi other⟩

/-- OBUF as a draw, with no output (R117). -/
theorem KeepsRow.dropOutput {i : Instr} (hi : i ∈ outputCommands) (s : State)
    (u : Bool) : KeepsRow i s (s.drawObuf.setOut 0 u) :=
  ⟨.refl s, fun _ => ⟨rfl, rfl⟩, fun other => absurd hi other, fun _ => rfl, fun _ => ⟨.refl s, rfl⟩⟩

/-- What R117 discards stands in the command's row. -/
theorem KeepsRow.discard (i : Instr) (s : State) : KeepsRow i s (s.discard (some i)) := by
  cases i with
  | nop | xfer | clearFreq => exact .refl _ s
  | pad | strip | encode => exact .dropOutput (by decide) s true
  | decode | abbrW2A | abbrA2W => exact .dropOutput (by decide) s false
  | buildFreq | buildSample => exact .drawCtab (by decide) (.refl _ s)
  | buildDefault => exact .drawCtab (by decide) (.setFreq (by decide) s _)

/-! ## The bodies -/

/-- A body's result that a completion of `i` can take: an error, or a state with the row kept and ERR not touched. -/
def BodyKeepsRow (i : Instr) (s : State) : Except Failure State → Prop
  | .ok t => KeepsRow i s t ∧ t.status.err = s.status.err
  | .error _ => True

/-- A body that can only fail or write an output. -/
theorem bodyKeepsRow_output {i : Instr} (hi : i ∈ outputCommands) (s : State)
    (bs : List Byte) (n : Nat) (u : Bool) : BodyKeepsRow i s (.ok ((s.writeBytes bs).setOut n u)) :=
  ⟨.writeOutput hi s bs n u, rfl⟩

theorem padBody_keepsRow (s : State) : BodyKeepsRow .pad s (padBody s) := by
  rw [padBody]
  split_ifs
  · trivial
  · trivial
  · trivial
  · exact bodyKeepsRow_output (by decide) s _ _ _

theorem stripBody_keepsRow (s : State) : BodyKeepsRow .strip s (stripBody s) := by
  rw [stripBody]
  split_ifs
  · trivial
  · trivial
  · trivial
  · exact bodyKeepsRow_output (by decide) s _ _ _

theorem encodeBody_keepsRow (s : State) : BodyKeepsRow .encode s (encodeBody s) := by
  rw [encodeBody]
  split
  · trivial
  split
  · trivial
  split
  · trivial
  split_ifs
  · trivial
  · trivial
  · exact bodyKeepsRow_output (by decide) s _ _ _

theorem decodeBody_keepsRow (s : State) : BodyKeepsRow .decode s (decodeBody s) := by
  rw [decodeBody]
  split_ifs
  · trivial
  · trivial
  · trivial
  split
  · trivial
  split_ifs
  · trivial
  · exact bodyKeepsRow_output (by decide) s _ _ _

theorem lookupBody_keepsRow {i : Instr} (hi : i ∈ lookupCommands)
    (search : List Pair → List Byte → Option (List Byte)) (s : State) : BodyKeepsRow i s (lookupBody i search s) := by
  rw [lookupBody]
  split
  · trivial
  split_ifs
  · trivial
  split
  · exact bodyKeepsRow_output (lookupCommands_subset hi) s _ _ _
  · trivial

/-- BuildTable and its writes, in a state that may have written FREQ. -/
theorem buildInto_keepsRow {i : Instr} (hi : i ∈ buildCommands) {s t : State} (h : KeepsRow i s t)
    (he : t.status.err = s.status.err) (freq : List Word) : BodyKeepsRow i s (buildInto freq t) := by
  rw [buildInto]
  split
  · trivial
  · trivial
  · exact ⟨h.setTable hi _ _, he⟩

theorem buildSampleBody_keepsRow (s : State) : BodyKeepsRow .buildSample s (buildSampleBody s) := by
  rw [buildSampleBody]
  split_ifs
  · trivial
  · trivial
  · exact buildInto_keepsRow (by decide) (.setFreq (by decide) s _) rfl _

theorem xferBody_keepsRow (s : State) : KeepsRow .xfer s (xferBody s) :=
  ⟨.refl s, fun other => absurd rfl other, fun _ => ⟨.refl s, rfl⟩, fun _ => rfl, fun _ => ⟨.refl s, rfl⟩⟩

/-! ## Every completion -/

/-- A lookup completes as itself, or as ILLEGAL where the unit is absent (44_abbreviation_lookup.md R242). -/
theorem lookupAs_cases (i : Instr) (s : State) :
    lookupAs i s = some i ∨ (lookupAs i s = none ∧ s.fit.abbr = none) := by
  rw [lookupAs, Fitting.hasAbbr]
  cases s.fit.abbr with
  | none => exact .inr ⟨rfl, rfl⟩
  | some rom => exact .inl rfl

/-- A body of `i` completes as `c`: as the command itself, or as ILLEGAL for a lookup without the unit. -/
def CompletesAs (i : Instr) (s : State) (c : Option Instr) : Prop :=
  c = some i ∨ (c = none ∧ i ∈ lookupCommands ∧ s.fit.abbr = none)

theorem completesAs_lookupAs {i : Instr} (hi : i ∈ lookupCommands) (s : State) : CompletesAs i s (lookupAs i s) :=
  (lookupAs_cases i s).imp_right fun ⟨illegal, absent⟩ => ⟨illegal, hi, absent⟩

/-- A completion of `i` that takes the result of a body with the row kept. -/
def EndsBody (i : Instr) (s t : State) : Prop :=
  ∃ c body, t = s.finish c body ∧ CompletesAs i s c ∧ BodyKeepsRow i s body

theorem endsBody_of_finish {i : Instr} {s t : State} {c : Option Instr} {body : Except Failure State} (hc : CompletesAs i s c)
    (hb : BodyKeepsRow i s body) (he : (.next (s.finish c body) : Host.Outcome State Fault Refusal) = .next t) :
    EndsBody i s t := by
  obtain ⟨⟩ := he
  exact ⟨c, body, rfl, hc, hb⟩

/-- Every completion step that answers with a next state is one. -/
theorem exec_endsBody {i : Instr} {s t : State} (he : exec i s = .next t) : EndsBody i s t := by
  cases i with
  | nop => exact endsBody_of_finish (.inl rfl) (body := .ok s) ⟨.refl _ s, rfl⟩ he
  | pad => exact endsBody_of_finish (.inl rfl) (padBody_keepsRow s) he
  | strip => exact endsBody_of_finish (.inl rfl) (stripBody_keepsRow s) he
  | xfer =>
    simp only [exec, execXfer] at he
    split_ifs at he
    exact endsBody_of_finish (.inl rfl) (body := .ok _) ⟨xferBody_keepsRow s, rfl⟩ he
  | clearFreq => exact endsBody_of_finish (.inl rfl) (body := .ok _) ⟨.setFreq (by decide) s _, rfl⟩ he
  | buildFreq => exact endsBody_of_finish (.inl rfl) (buildInto_keepsRow (by decide) (.refl _ s) rfl _) he
  | buildSample => exact endsBody_of_finish (.inl rfl) (buildSampleBody_keepsRow s) he
  | buildDefault =>
    exact endsBody_of_finish (.inl rfl) (buildInto_keepsRow (by decide) (.setFreq (by decide) s _) rfl _) he
  | encode => exact endsBody_of_finish (.inl rfl) (encodeBody_keepsRow s) he
  | decode => exact endsBody_of_finish (.inl rfl) (decodeBody_keepsRow s) he
  | abbrW2A =>
    exact endsBody_of_finish (completesAs_lookupAs (by decide) s) (lookupBody_keepsRow (by decide) _ s) he
  | abbrA2W =>
    exact endsBody_of_finish (completesAs_lookupAs (by decide) s) (lookupBody_keepsRow (by decide) _ s) he

theorem State.finish_done (s : State) (c : Option Instr) (body : Except Failure State) :
    (s.finish c body).status.done = true := by
  cases body <;> rfl

theorem KeepsRow.finish {i : Instr} {s : State} {c : Option Instr} {body : Except Failure State} (hc : CompletesAs i s c)
    (hb : BodyKeepsRow i s body) : KeepsRow i s (s.finish c body) := by
  cases body with
  | ok t => exact hb.1.complete t.status.err t.status.errCode t.errInfo
  | error f =>
    rcases hc with rfl | ⟨rfl, -⟩
    · exact (KeepsRow.discard i s).complete true f.code f.info
    · exact (KeepsRow.refl i s).complete true f.code f.info

/-! ## The draws of an error completion -/

theorem freshDraw_obuf_of_raise {i : Instr} (hi : i ∈ outputCommands) (s : State)
    (f : Failure) : FreshDraw s (s.raise (some i) f) (s.raise (some i) f).mem.obuf := by
  cases i with
  | pad | strip | encode | decode | abbrW2A | abbrA2W => exact ⟨rfl, Nat.le_refl _, Nat.lt_succ_self _⟩
  | nop | xfer | clearFreq | buildFreq | buildSample | buildDefault => exact absurd hi (by decide)

theorem freshDraw_ctab_of_raise {i : Instr} (hi : i ∈ buildCommands) (s : State)
    (f : Failure) : FreshDraw s (s.raise (some i) f) (s.raise (some i) f).mem.ctab := by
  cases i with
  | buildFreq | buildSample | buildDefault => exact ⟨rfl, Nat.le_refl _, Nat.lt_succ_self _⟩
  | nop | pad | strip | xfer | clearFreq | encode | decode | abbrW2A | abbrA2W => exact absurd hi (by decide)

/-- A completion sets ERR only by a raise (R117). -/
theorem finish_eq_raise {i : Instr} {s : State} {c : Option Instr} {body : Except Failure State} (hb : BodyKeepsRow i s body)
    (clear : s.status.err = false) (errSet : (s.finish c body).status.err = true) : ∃ f, s.finish c body = s.raise c f := by
  cases body with
  | ok t => exact absurd (hb.2.symm.trans errSet) (by simp [clear])
  | error f => exact ⟨f, rfl⟩

/-- Settles O54: every completion keeps the command's row, and one that sets ERR discards as R117 says. -/
theorem commandsWriteOnlyTheirTargets : Obligations.CommandsWriteOnlyTheirTargets := by
  intro i s t he
  obtain ⟨c, body, rfl, ends, row⟩ := exec_endsBody he
  have keeps := KeepsRow.finish ends row
  refine ⟨State.finish_seq s c body, State.finish_done s c body, keeps.unwritten, keeps.input, keeps.output, keeps.freq,
    keeps.table, fun clear errSet => ?_⟩
  obtain ⟨f, raised⟩ := finish_eq_raise row clear errSet
  rw [raised]
  rcases ends with rfl | ⟨-, lookup, absent⟩
  · refine ⟨fun hi => freshDraw_obuf_of_raise ?_ s f, fun hi => freshDraw_ctab_of_raise hi s f⟩
    exact hi.elim (coreOutputCommands_subset ·) fun ⟨hl, _⟩ => lookupCommands_subset hl
  · refine ⟨fun hi => ?_, fun hi => absurd hi (lookupCommands_disjoint_buildCommands lookup)⟩
    rcases hi with hi | ⟨-, fitted⟩
    · exact absurd hi (lookupCommands_disjoint_coreOutputCommands lookup)
    · exact absurd absent fitted

end Sys2Proof.Machine
end

section
/-! PROOFS. The command sequencer: acceptance and dropped writes on the bus, the completion step by what the accepted word decodes
to, and progress, which needs the invariant for XFER alone (spec 40_command_sequencer.md). -/

namespace Sys2Proof.Machine

/-! ## Steps that are completions (R113) -/

theorem step_busy_zero {s : State} {k : Snapshot} (h : s.seq = .busy k 0) : step s = completion k.cmd s := by rw [step, h]

theorem completion_command {s : State} {w : Word} {i : Instr} (h : decodeWord s.fit.hasAbbr w = .ok i) :
    completion w s = exec i s := by rw [completion, h]

theorem completion_illegal {s : State} {w : Word} {e : Illegal} (h : decodeWord s.fit.hasAbbr w = .error e) :
    completion w s = .next (s.raise none ⟨.illegalCmd, w⟩) := by
  rw [completion, h]
  rfl

/-- ILLEGAL has no row in R117, so raising it writes what every completion with an error writes and nothing else. -/
theorem State.raise_none_eq (s : State) (f : Failure) :
    s.raise none f = { s with
      status := { s.status with done := true, err := true, errCode := f.code }, errInfo := f.info, seq := .idle } := rfl

/-- Settles O5: the completion step decodes the word of the snapshot. -/
theorem stepCompletesAcceptedCommand : Obligations.StepCompletesAcceptedCommand :=
  fun _ _ _ busy decoded => (step_busy_zero busy).trans (completion_command decoded)

/-- Settles O6: an illegal word completes by a raise that discards nothing. -/
theorem stepCompletesIllegalWord : Obligations.StepCompletesIllegalWord := by
  intro s k e busy refused
  refine ⟨_, (step_busy_zero busy).trans (completion_illegal refused), ?_⟩
  rw [State.raise_none_eq]
  exact ⟨⟨rfl, rfl, rfl, rfl, rfl⟩, .refl s, .refl s, .refl s, rfl, rfl⟩

/-- Settles O55: `complete()` alone. -/
theorem nopOnlyCompletes : Obligations.NopOnlyCompletes := fun s => congrArg Host.Outcome.next (State.finish_ok (some .nop) s s)

/-! ## The model's fetch (log entry 8) -/

theorem State.withFetchWord_toNat (s : State) (w : Word) :
    s.withFetchWord 32 w.toNat = { s with seq := .idle }.accept 0 w := by
  have whole : word (w.toNat % 2 ^ 32) = w := by rw [Nat.mod_eq_of_lt w.isLt, word, BitVec.ofNat_toNat, BitVec.setWidth_eq]
  rw [State.withFetchWord, whole]

/-- Settles O8: the fetched word is accepted with no turns left, and the word of a command that exists decodes to it. -/
theorem fetchedWordRunsNext : Obligations.FetchedWordRunsNext := by
  intro s i fitted
  rw [State.withFetchWord_toNat]
  exact stepCompletesAcceptedCommand _ _ i (State.accept_seq ..) ((decodeWord_ok_iff _ _ i).mpr ⟨fitted, rfl⟩)

/-! ## Acceptance (R111) -/

theorem State.hostWrite_cmd_idle {s : State} (h : s.seq = .idle) (w : Word) :
    s.hostWrite 0x0014 w = { s with draws := s.draws + 1 }.accept (Config.latency s.draws) w := by
  have place : locate 0x0014 = .cmd := rfl
  rw [s.hostWrite_of w place, State.store, State.present, busy_false h]
  rfl

theorem isBuild_iff (c : Option Instr) : isBuild c = true ↔ ∃ i ∈ buildCommands, c = some i := by
  cases c with
  | none => simp [isBuild]
  | some i => cases i <;> simp [isBuild]

theorem State.command_eq_some_iff (s : State) (w : Word) (i : Instr) :
    s.command w = some i ↔ WellFormed s.fit.hasAbbr i = true ∧ w = encode i := by
  rw [← decodeWord_ok_iff, State.command, commandOf]
  cases decodeWord s.fit.hasAbbr w <;> simp

/-- The BUILD commands need no unit, so their three words are BUILDs on every block. -/
theorem State.isBuild_command_iff (s : State) (w : Word) :
    isBuild (s.command w) = true ↔ w = 0x00000021 ∨ w = 0x00000022 ∨ w = 0x00000023 := by
  rw [isBuild_iff]
  simp [State.command_eq_some_iff, WellFormed, Instr.needsAbbr, encode]

/-- Settles O9: acceptance field by field; what happens to the table's summary turns on whether the word is a BUILD. -/
theorem acceptanceTakesSnapshot : Obligations.AcceptanceTakesSnapshot := by
  intro s w idle
  refine ⟨_, _, State.hostWrite_cmd_idle idle w, rfl, rfl, rfl, rfl, fun build => ?build, fun other => ?other, rfl, rfl, .refl s,
    .refl s, rfl, rfl, Bool.and_false _⟩
  case build =>
    have cleared := (State.isBuild_command_iff { s with draws := s.draws + 1 } w).mpr build
    simp [cleared]
  case other =>
    have kept := (State.isBuild_command_iff { s with draws := s.draws + 1 } w).not.mpr other
    simp [SameSummary, kept]

/-! ## Writes while BUSY (R112, R292) -/

theorem State.present_busy {s : State} (h : s.busy = true) (w : Word) : s.present w = s.dropWrite := by
  rw [State.present, if_pos h]

/-- Settles O10: each of the five kinds of place drops its write while BUSY. -/
theorem busyWritesAreDropped : Obligations.BusyWritesAreDropped := by
  intro s off v busy place
  obtain cmd | padlen | inLen | ⟨lo, hi⟩ | ⟨lo, hi⟩ := place
  · rw [s.hostWrite_of v (locate_of cmd rfl : locate off = .cmd)]
    exact State.present_busy busy v
  · rw [s.hostWrite_of v (locate_of padlen rfl : locate off = .padlen)]
    exact State.unlessBusy_busy busy _
  · rw [s.hostWrite_of v (locate_of inLen rfl : locate off = .inLen)]
    exact State.unlessBusy_busy busy _
  · rw [s.hostWrite_of v (locate_of rfl (locateWord_freq lo hi))]
    exact State.unlessBusy_busy busy _
  · rw [s.hostWrite_of v (locate_of rfl (locateWord_ibuf lo hi))]
    exact State.unlessBusy_busy busy _

/-! ## Progress (R114, R119) -/

/-- Only XFER can stop, and only where the last output is longer than OBUF (41_bitbuffer.md R140). -/
theorem exec_next {s : State} (h : s.outBytes ≤ 4096) (i : Instr) : ∃ t, exec i s = .next t := by
  cases i with
  | xfer => exact ⟨_, if_pos h⟩
  | nop | pad | strip | clearFreq | buildFreq | buildSample | buildDefault | encode | decode | abbrW2A | abbrA2W =>
    exact ⟨_, rfl⟩

/-- A completion gives a next state, and that state is IDLE (R115). -/
theorem completion_idle {s : State} (h : s.outBytes ≤ 4096) (w : Word) : ∃ t, completion w s = .next t ∧ t.seq = .idle := by
  cases decoded : decodeWord s.fit.hasAbbr w with
  | ok i =>
    obtain ⟨t, runs⟩ := exec_next h i
    obtain ⟨idle, -⟩ := commandsWriteOnlyTheirTargets i s t runs
    exact ⟨t, (completion_command decoded).trans runs, idle⟩
  | error e => exact ⟨_, completion_illegal decoded, rfl⟩

theorem Inv.step_next {s : State} (h : Inv s) : ∃ t, step s = .next t := by
  cases hs : s.seq with
  | idle => exact ⟨_, step_idle hs⟩
  | busy k n =>
    cases n with
    | zero =>
      obtain ⟨t, runs, -⟩ := completion_idle h.output k.cmd
      exact ⟨t, (step_busy_zero hs).trans runs⟩
    | succ n => exact ⟨_, step_busy_succ hs⟩

/-! ## Runs -/

theorem RunsTo.zero (s : State) : RunsTo 0 s s := rfl

theorem RunsTo.cons {n : Nat} {s u t : State} (first : step s = .next u) (rest : RunsTo n u t) : RunsTo (n + 1) s t := by
  have first : Sys2Proof.core.step s = .next u := first
  simp only [RunsTo, Host.Core.run, first]
  exact rest

/-- From a state that meets the invariant a run goes on for any number of steps. -/
theorem Inv.runsTo {s : State} (h : Inv s) (n : Nat) : ∃ t, RunsTo n s t := by
  induction n generalizing s with
  | zero => exact ⟨s, .zero s⟩
  | succ n ih =>
    obtain ⟨u, first⟩ := h.step_next
    obtain ⟨t, rest⟩ := ih (stepKeepsInvariant s u h first)
    exact ⟨t, .cons first rest⟩

/-- Settles O59: every step of a state that meets the invariant goes on and keeps it, and every loaded program starts in one. -/
theorem stepNeverStops : Obligations.StepNeverStops :=
  ⟨fun _ => Inv.step_next, fun p => (invariantHoldsAtReset p).runsTo⟩

/-! ## The HOST's turn while BUSY (R112, R119) -/

/-- No write touches a running command but a soft reset, which aborts it. -/
theorem State.store_seq_busy {s : State} (h : s.busy = true) (v : Word) (l : Loc) :
    (s.store v l).seq = s.seq ∨ (s.store v l).seq = .idle := by
  cases l with
  | ctrl =>
    rw [State.store, State.writeCtrl]
    split_ifs
    · exact .inr rfl
    · exact .inl rfl
  | cmd => rw [State.store, State.present_busy h]; exact .inl rfl
  | padlen | inLen | freq a | ibuf a => rw [State.store, State.unlessBusy_busy h]; exact .inl rfl
  | status | id | version | caps | outLen | errInfo | nsym | maxlen | abbrN | ctab a | obuf a | reserved => exact .inl rfl

@[simp] theorem State.hostRead_seq (s : State) (off : BitVec 16) : (s.hostRead off).2.seq = s.seq := by
  rw [State.hostRead]
  split_ifs <;> rfl

/-- A turn of the HOST leaves the running command with the turns it has, or a reset aborts it. -/
theorem State.hostTurn_seq_busy {s : State} (h : s.busy = true) : s.hostTurn.seq = s.seq ∨ s.hostTurn.seq = .idle := by
  cases line : s.master.prog[s.master.pc]? with
  | none => rw [State.hostTurn_end line]; exact .inl rfl
  | some l =>
    rw [State.hostTurn_line line]
    cases l with
    | write off v => exact State.store_seq_busy h v (locate off)
    | read off name => exact .inl (s.hostRead_seq off)
    | branch name bit val target => rw [State.runLine_branch]; exact .inl rfl
    | readIrq name => exact .inl rfl
    | hardReset => exact .inr rfl

/-- Settles O60, by induction on the turns left: a turn takes one away or aborts the command, and at none left it completes. -/
theorem busyEventuallyEnds : Obligations.BusyEventuallyEnds := by
  intro s k n inv busy
  induction n generalizing s with
  | zero =>
    obtain ⟨t, completes, idle⟩ := completion_idle inv.output k.cmd
    exact ⟨1, t, Nat.le_refl _, .cons ((step_busy_zero busy).trans completes) (.zero t), idle⟩
  | succ n ih =>
    have turn := step_busy_succ busy
    rcases State.hostTurn_seq_busy (s := { s with seq := .busy k n }) rfl with runs | aborted
    · obtain ⟨m, t, bound, rest, idle⟩ := ih _ (stepKeepsInvariant s _ inv turn) runs
      exact ⟨m + 1, t, Nat.succ_le_succ bound, .cons turn rest, idle⟩
    · exact ⟨1, _, Nat.succ_le_succ (Nat.zero_le _), .cons turn (.zero _), aborted⟩

end Sys2Proof.Machine
end

section
/-! PROOFS. The bit buffer: the result of each body by case, a buffer as the bits it holds, and PAD, XFER and STRIP run one after the
other as what each makes of those bits (spec 41_bitbuffer.md). -/

namespace Sys2Proof.Machine

/-! ## The bodies of PAD and STRIP by case (R131, R135) -/

section
variable {s : State}

theorem padBody_inLen (long : 32768 < s.count) : padBody s = .error s.badInLen := if_pos long

theorem padBody_padlen (short : s.count ≤ 32768) (neg : s.pad < 0) : padBody s = .error s.badPadlen :=
  (if_neg short.not_gt).trans (if_pos neg)

theorem padBody_overflow (short : s.count ≤ 32768) {p : Nat} (hp : s.pad = p) (beyond : 32768 < p + s.count) :
    padBody s = .error ⟨.outOverflow, word (p + s.count)⟩ := by
  rw [padBody, if_neg short.not_gt, hp, if_neg (Int.natCast_nonneg p).not_gt, Int.toNat_natCast, if_pos beyond]

theorem padBody_ok {p : Nat} (hp : s.pad = p) (fits : p + s.count ≤ 32768) :
    padBody s = .ok ((s.writeBits (List.replicate p false ++ s.bits)).setOut (p + s.count) true) := by
  have short : ¬ 32768 < s.count := by omega
  rw [padBody, if_neg short, hp, if_neg (Int.natCast_nonneg p).not_gt, Int.toNat_natCast, if_neg fits.not_gt]

theorem stripBody_inLen (long : 32768 < s.count) : stripBody s = .error s.badInLen := if_pos long

theorem stripBody_padlen (short : s.count ≤ 32768) (bad : s.pad < 0 ∨ (s.count : Int) < s.pad) :
    stripBody s = .error s.badPadlen := by
  rw [stripBody, if_neg short.not_gt]
  split_ifs with neg beyond
  · rfl
  · rfl
  · exact absurd bad (not_or.mpr ⟨neg, beyond⟩)

theorem stripBody_ok (short : s.count ≤ 32768) {p : Nat} (hp : s.pad = p) (fits : p ≤ s.count) :
    stripBody s = .ok ((s.writeBits (s.bits.drop p)).setOut (s.count - p) true) := by
  rw [stripBody, if_neg short.not_gt, hp, if_neg (Int.natCast_nonneg p).not_gt, if_neg (Int.ofNat_le.mpr fits).not_gt,
    Int.toNat_natCast]

/-- PAD that fits (R131). -/
theorem pad_outputs {p : Nat} (hp : s.pad = p) (fits : p + s.count ≤ 32768) :
    Outputs .pad s true (p + s.count) (packBits (List.replicate p false ++ s.bits)) :=
  outputs_of_body rfl (padBody_ok hp fits)

/-- STRIP of no more bits than there are (R135). -/
theorem strip_outputs (short : s.count ≤ 32768) {p : Nat} (hp : s.pad = p) (fits : p ≤ s.count) :
    Outputs .strip s true (s.count - p) (packBits (s.bits.drop p)) :=
  outputs_of_body rfl (stripBody_ok short hp fits)

end

/-- Settles O26: the body's four cases, of which the last two have a padding that is a natural number. -/
theorem padFollowsItsRule : Obligations.PadFollowsItsRule := by
  intro s
  refine ⟨fun long => ?_, fun short neg => ?_, fun short nonneg beyond => ?_, fun _ nonneg fits => ?_⟩
  · exact raises_of_body rfl rfl (padBody_inLen long)
  · exact raises_of_body rfl rfl (padBody_padlen short neg)
  · obtain ⟨p, hp⟩ := Int.eq_ofNat_of_zero_le nonneg
    rw [hp, ← Int.natCast_add] at beyond ⊢
    rw [BitVec.ofInt_natCast]
    exact raises_of_body rfl rfl (padBody_overflow short hp (by exact_mod_cast beyond))
  · obtain ⟨p, hp⟩ := Int.eq_ofNat_of_zero_le nonneg
    rw [hp] at fits ⊢
    exact pad_outputs hp (by exact_mod_cast fits)

/-- Settles O27: the body's cases, of which the last has a padding that is a natural number. -/
theorem stripFollowsItsRule : Obligations.StripFollowsItsRule := by
  intro s
  refine ⟨fun long => ?_, fun short bad => ?_, fun short nonneg fits => ?_⟩
  · exact raises_of_body rfl rfl (stripBody_inLen long)
  · exact raises_of_body rfl rfl (stripBody_padlen short bad)
  · obtain ⟨p, hp⟩ := Int.eq_ofNat_of_zero_le nonneg
    rw [hp] at fits ⊢
    exact strip_outputs short hp (by exact_mod_cast fits)

/-! ## XFER (R140) -/

/-- Settles O28: m is the model's `outBytes`, and the write into IBUF reads back. -/
theorem xferFollowsItsRule : Obligations.XferFollowsItsRule := by
  intro s m hm fits
  obtain rfl : m = s.outBytes := hm
  have size : (Bytes.take s.outBytes 0x2000 s.mem.obuf).length = s.outBytes := Bytes.take_length ..
  have back := Store.window_write Config.freeByte 1 Nat.one_pos 0x1000 (Bytes.take s.outBytes 0x2000 s.mem.obuf) s.mem.ibuf
  have kept := keptOutside_ibufWrite (s := s) (t := (xferBody s).settle) 0x1000 _ rfl
  rw [size] at back kept
  exact ⟨_, if_pos fits, ⟨rfl, rfl, rfl, rfl, rfl⟩, rfl, back, .refl s, .refl s, .refl s, kept⟩

/-- Settles O29: the test of XFER's only stop. -/
theorem xferStopsBeyondObuf : Obligations.XferStopsBeyondObuf := fun _ beyond => if_neg beyond.not_ge

/-! ## A buffer as the bits it holds (R70, R71) -/

/-- Reading back the bits just packed. -/
theorem bitsOf_packBits (b : List Bool) : bitsOf b.length (packBits b) = b := by
  refine List.ext_getElem? fun i => ?_
  rcases Nat.lt_or_ge i b.length with inside | outside
  · have byte : i / 8 < (packBits b).length := by rw [packBits_length, byteCount]; omega
    have place : 8 * (i / 8) + i % 8 = i := Nat.div_add_mod i 8
    rw [bitsOf, List.getElem?_take_of_lt inside, flatMap_byteBits_getElem?, List.getElem?_eq_getElem byte, Option.map_some,
      packBits_getElem_getLsbD b byte (Nat.mod_lt i (by omega)), place, List.getD_eq_getElem _ _ inside,
      List.getElem?_eq_getElem inside]
  · rw [bitsOf, List.getElem?_take_eq_none outside, List.getElem?_eq_none outside]

/-- The last output is the bit sequence `b`: its length in OUT_LEN, its bytes at OBUF. -/
structure HoldsOutput (b : List Bool) (s : State) : Prop where
  outLen : s.outLen = word b.length
  outu : s.status.outu = true
  obuf : Bytes.take (byteCount b.length) 0x2000 s.mem.obuf = packBits b

/-- The input of the next command is the bit sequence `b`: its length in IN_LEN, its bits in IBUF. -/
structure HoldsInput (b : List Bool) (s : State) : Prop where
  inLen : s.inLen.toNat = b.length
  ibits : Bytes.ibits b.length s.mem.ibuf = b

theorem word_toNat {n : Nat} (h : n ≤ 32768) : (word n).toNat = n :=
  (BitVec.toNat_ofNat n 32).trans (Nat.mod_eq_of_lt (by omega))

/-! ## Runs over bits -/

theorem runCommand_eq_exec {i : Instr} {s : State} (fitted : WellFormed s.fit.hasAbbr i = true) :
    runCommand i s = exec i (s.accept 0 (encode i)) :=
  completion_command ((decodeWord_ok_iff _ _ i).mpr ⟨fitted, rfl⟩)

/-- `RUN i` completes without an error and leaves PADLEN alone. -/
structure RunsClean (i : Instr) (s t : State) : Prop where
  runs : runCommand i s = .next t
  err : t.status.err = false
  padlen : t.padlen = s.padlen

/-- A run whose completion outputs a bit sequence. -/
theorem runsClean_of_outputs {i : Instr} {s : State} {b : List Bool} (fitted : WellFormed s.fit.hasAbbr i = true)
    (h : Outputs i (s.accept 0 (encode i)) true b.length (packBits b)) : ∃ t, RunsClean i s t ∧ HoldsOutput b t := by
  obtain ⟨t, runs, ⟨-, -, err, -, -⟩, outLen, outu, obuf, ⟨-, padlen, -, -, -⟩, -, -, -⟩ := h
  rw [packBits_length] at obuf
  exact ⟨t, ⟨(runCommand_eq_exec fitted).trans runs, err, padlen⟩, outLen, outu, obuf⟩

/-- Acceptance snapshots the length of the input (R111). -/
theorem HoldsInput.accept_count {b : List Bool} {s : State} (input : HoldsInput b s) {w : Word} :
    (s.accept 0 w).count = b.length := input.inLen

/-- Acceptance snapshots the bits of the input (R111). -/
theorem HoldsInput.accept_bits {b : List Bool} {s : State} (input : HoldsInput b s) {w : Word} : (s.accept 0 w).bits = b :=
  (congrArg (Bytes.ibits · s.mem.ibuf) input.accept_count).trans input.ibits

/-- PAD puts p zero bits before the input (R131). -/
theorem pad_runsClean {s : State} {b : List Bool} {p : Nat} (input : HoldsInput b s) (hp : s.padlen.toInt = p)
    (fits : p + b.length ≤ 32768) : ∃ t, RunsClean .pad s t ∧ HoldsOutput (List.replicate p false ++ b) t := by
  have out := pad_outputs (s := s.accept 0 (encode .pad)) hp (input.accept_count ▸ fits)
  rw [input.accept_count, input.accept_bits] at out
  exact runsClean_of_outputs rfl (by rwa [List.length_append, List.length_replicate])

/-- XFER makes the last output the input (R140). -/
theorem xfer_runsClean {s : State} {b : List Bool} (output : HoldsOutput b s) (fits : b.length ≤ 32768) :
    ∃ t, RunsClean .xfer s t ∧ HoldsInput b t := by
  have outLen : s.outLen.toNat = b.length := output.outLen ▸ word_toNat fits
  have bytes : byteCount b.length =
      if (s.accept 0 (encode .xfer)).status.outu then (s.outLen.toNat + 7) / 8 else s.outLen.toNat := by
    rw [outLen]
    exact (if_pos output.outu).symm
  obtain ⟨t, runs, ⟨-, -, err, -, -⟩, inLen, ibuf, ⟨-, padlen, -, -, -⟩, -, -, -⟩ :=
    xferFollowsItsRule _ _ bytes (byteCount_le_obuf fits)
  refine ⟨t, ⟨(runCommand_eq_exec rfl).trans runs, err, padlen⟩, inLen ▸ outLen, ?_⟩
  calc Bytes.ibits b.length t.mem.ibuf
    _ = bitsOf b.length (Bytes.take (byteCount b.length) 0x2000 s.mem.obuf) := congrArg (bitsOf b.length) ibuf
    _ = b := by rw [output.obuf, bitsOf_packBits]

/-- STRIP drops the first p bits of the input (R135). -/
theorem strip_runsClean {s : State} {b : List Bool} {p : Nat} (input : HoldsInput b s) (short : b.length ≤ 32768)
    (hp : s.padlen.toInt = p) (fits : p ≤ b.length) : ∃ t, RunsClean .strip s t ∧ HoldsOutput (b.drop p) t := by
  have out := strip_outputs (s := s.accept 0 (encode .strip)) (input.accept_count ▸ short) hp (input.accept_count ▸ fits)
  rw [input.accept_count, input.accept_bits] at out
  exact runsClean_of_outputs rfl (by rwa [List.length_drop])

/-- Settles O30: PAD, XFER and STRIP as what they make of the bits; the bits in front of the input are the padding, so STRIP with the
same PADLEN drops them and no others. -/
theorem padThenStripRestoresInput : Obligations.PadThenStripRestoresInput := by
  intro s n _ hn _ nonneg total
  obtain ⟨p, hp⟩ := Int.eq_ofNat_of_zero_le nonneg
  set b := Bytes.ibits n s.mem.ibuf
  have blen : b.length = n := Bytes.ibits_length ..
  have padded : (List.replicate p false ++ b).length = p + n := by rw [List.length_append, List.length_replicate, blen]
  have fits : p + n ≤ 32768 := by rw [hp] at total; exact_mod_cast total
  obtain ⟨s1, pad, out1⟩ := pad_runsClean (s := s) ⟨by rw [blen, hn], by rw [blen]⟩ hp (blen ▸ fits)
  obtain ⟨s2, xfer, input2⟩ := xfer_runsClean out1 (padded ▸ fits)
  refine ⟨s1, s2, pad.runs, xfer.runs, pad.err, xfer.err, ?same, fun v vNonneg vFits vNe => ?other⟩
  case same =>
    have padlen : s2.padlen.toInt = p := by rw [xfer.padlen, pad.padlen, hp]
    obtain ⟨t, strip, out⟩ := strip_runsClean input2 (padded ▸ fits) padlen (by omega)
    rw [List.drop_left' List.length_replicate] at out
    exact ⟨t, strip.runs, strip.err, blen ▸ out.outLen, out.outu, blen ▸ out.obuf⟩
  case other =>
    obtain ⟨q, hq⟩ := Int.eq_ofNat_of_zero_le vNonneg
    have qNe : q ≠ p := fun e => vNe (BitVec.toInt_inj.mp (by rw [hq, hp, e]))
    rw [hp, hq] at vFits
    obtain ⟨t, strip, out⟩ := strip_runsClean (s := { s2 with padlen := v }) ⟨input2.inLen, input2.ibits⟩ (padded ▸ fits) hq
      (by omega)
    have outLen : t.outLen.toNat = p + n - q := by
      rw [out.outLen, List.length_drop, padded, word_toNat (by omega)]
    exact ⟨t, strip.runs, strip.err, out.outu, by rw [outLen, hp, hq]; omega, by omega⟩

end Sys2Proof.Machine
end

section
/-! PROOFS. The code lengths of BuildTable (spec 42_code_construction.md R151-R155): one induction over the merge, and what it gives
of the leaves, the Kraft sum, the weight and the Fibonacci bound of the lengths. -/

namespace Sys2Proof.Machine

/-! ## One induction over the merge (R154) -/

/-- The parent that R154 puts in the place of two nodes. -/
def Node.parent (next : Nat) (x y : Node) : Node :=
  ⟨x.weight + y.weight, next, (x.leaves ++ y.leaves).map fun p => (p.1, p.2 + 1)⟩

/-- What does not depend on the pool's order, and what one pass of R154's loop keeps, holds of the root. -/
theorem Merges.induct {P : List Node → Prop} (order : ∀ {pool pool'}, pool.Perm pool' → P pool → P pool')
    (pass : ∀ {next x y rest}, LeastAgainst x (y :: rest) → LeastAgainst y rest → P (x :: y :: rest) →
      P (Node.parent next x y :: rest))
    {next : Nat} {pool : List Node} {root : Node} (merges : Merges next pool root) (start : P pool) : P [root] := by
  induction merges with
  | done => exact start
  | merge next pool x y rest root perm leastX leastY _ ih => exact ih (pass leastX leastY (order perm start))

/-- The symbols of a node's leaves. -/
def Node.syms (x : Node) : List Nat := x.leaves.map Prod.fst

theorem Node.parent_syms (next : Nat) (x y : Node) : (Node.parent next x y).syms = x.syms ++ y.syms := by
  simp [Node.parent, Node.syms, Function.comp_def]

/-- The merge neither loses nor repeats a symbol. -/
theorem Merges.syms_perm {next : Nat} {pool : List Node} {root : Node} (merges : Merges next pool root) :
    root.syms.Perm (pool.flatMap Node.syms) := by
  have kept := merges.induct (P := fun p => (p.flatMap Node.syms).Perm (pool.flatMap Node.syms))
    (fun perm same => (perm.flatMap_right _).symm.trans same)
    (fun _ _ same => by simpa [Node.parent_syms] using same) (.refl _)
  simpa using kept

/-- The root weighs what the pool weighs. -/
theorem Merges.weight_eq {next : Nat} {pool : List Node} {root : Node} (merges : Merges next pool root) :
    root.weight = (pool.map Node.weight).sum := by
  have kept := merges.induct (P := fun p => (p.map Node.weight).sum = (pool.map Node.weight).sum)
    (fun perm same => (perm.map Node.weight).sum_eq.symm.trans same)
    (fun _ _ same => by simpa [Node.parent, Nat.add_assoc] using same) rfl
  simpa using kept

/-! ## The Kraft sum of the merge (R161) -/

theorem kraft_append (L M : List (Nat × Nat)) : kraft (L ++ M) = kraft L + kraft M := by simp [kraft]

/-- One level deeper, every term of a Kraft sum halves. -/
theorem kraft_deeper (L : List (Nat × Nat)) : kraft (L.map fun p => (p.1, p.2 + 1)) = kraft L / 2 := by
  induction L with
  | nil => simp [kraft]
  | cons p L ih => rw [List.map_cons, kraft_cons, kraft_cons, ih, pow_succ]; ring

/-- A merge tree is a full binary tree: if every node of the pool has Kraft sum 1, the root has. -/
theorem Merges.kraft_eq_one {next : Nat} {pool : List Node} {root : Node} (merges : Merges next pool root)
    (full : ∀ x ∈ pool, kraft x.leaves = 1) : kraft root.leaves = 1 := by
  refine merges.induct (P := fun p => ∀ x ∈ p, kraft x.leaves = 1) (fun perm all x hx => all x (perm.mem_iff.mpr hx))
    (fun {next x y rest} _ _ all => ?pass) full root (List.mem_singleton_self _)
  case pass =>
    obtain ⟨fullX, fullY, fullRest⟩ : kraft x.leaves = 1 ∧ kraft y.leaves = 1 ∧ ∀ z ∈ rest, kraft z.leaves = 1 := by
      simpa using all
    have parent : kraft (Node.parent next x y).leaves = 1 := by
      rw [Node.parent, kraft_deeper, kraft_append, fullX, fullY]; norm_num
    simpa using ⟨parent, fullRest⟩

theorem kraft_pos {L : List (Nat × Nat)} (h : L ≠ []) : 0 < kraft L := by
  cases L with
  | nil => exact absurd rfl h
  | cons p L => rw [kraft_cons]; have := kraft_nonneg L; positivity

/-- With another length beside it in a Kraft sum of at most 1, no length is 0. -/
theorem one_le_of_kraft {L : List (Nat × Nat)} (sum : kraft L ≤ 1) (two : 2 ≤ L.length) {p : Nat × Nat} (hp : p ∈ L) :
    1 ≤ p.2 := by
  have others : L.erase p ≠ [] := List.ne_nil_of_length_pos (by rw [List.length_erase_of_mem hp]; omega)
  by_contra zero
  rw [kraft_perm (List.perm_cons_erase hp), kraft_cons, Nat.lt_one_iff.mp (Nat.not_le.mp zero), pow_zero] at sum
  have := kraft_pos others
  linarith

/-! ## The Fibonacci bound (R168) -/

/-- For every leaf, d deep in its node, the node weighs at least F(d + 2), and every node of the pool at least F(d + 1). -/
def FibBounded (pool : List Node) : Prop :=
  ∀ x ∈ pool, ∀ p ∈ x.leaves, Nat.fib (p.2 + 2) ≤ x.weight ∧ ∀ z ∈ pool, Nat.fib (p.2 + 1) ≤ z.weight

/-- A pass keeps the bound, because no other node is lighter than the two that it merges. -/
theorem FibBounded.parent {x y : Node} {rest : List Node} (bounded : FibBounded (x :: y :: rest))
    (leastX : LeastAgainst x (y :: rest)) (leastY : LeastAgainst y rest) (next : Nat) :
    FibBounded (Node.parent next x y :: rest) := by
  have hxy : x.weight ≤ y.weight := by have := leastX y (by simp); omega
  have light : ∀ z ∈ Node.parent next x y :: rest, y.weight ≤ z.weight := by
    intro z hz
    rcases List.mem_cons.mp hz with rfl | hz
    · exact Nat.le_add_left _ _
    · have := leastY z hz; omega
  intro u hu p hp
  rcases List.mem_cons.mp hu with rfl | hu
  · obtain ⟨q, hq, rfl⟩ := List.mem_map.mp hp
    have grow : Nat.fib (q.2 + 1 + 2) = Nat.fib (q.2 + 1) + Nat.fib (q.2 + 2) := Nat.fib_add_two
    rcases List.mem_append.mp hq with hq | hq
    · obtain ⟨own, all⟩ := bounded x (by simp) q hq
      have other := all y (by simp)
      exact ⟨grow.trans_le (by show _ ≤ x.weight + y.weight; omega), fun z hz => own.trans (hxy.trans (light z hz))⟩
    · obtain ⟨own, all⟩ := bounded y (by simp) q hq
      have other := all x (by simp)
      exact ⟨grow.trans_le (by show _ ≤ x.weight + y.weight; omega), fun z hz => own.trans (light z hz)⟩
  · obtain ⟨own, all⟩ := bounded u (by simp [hu]) p hp
    exact ⟨own, fun z hz => (all y (by simp)).trans (light z hz)⟩

/-- A leaf d deep under the root needs a pool that weighs at least F(d + 2). -/
theorem Merges.fib_le {next : Nat} {pool : List Node} {root : Node} (merges : Merges next pool root)
    (bounded : FibBounded pool) {p : Nat × Nat} (hp : p ∈ root.leaves) :
    Nat.fib (p.2 + 2) ≤ (pool.map Node.weight).sum := by
  have kept : FibBounded [root] := merges.induct
    (fun perm all x hx q hq =>
      have ⟨own, others⟩ := all x (perm.mem_iff.mpr hx) q hq
      ⟨own, fun z hz => others z (perm.mem_iff.mpr hz)⟩)
    (fun leastX leastY all => all.parent leastX leastY _) bounded
  exact merges.weight_eq ▸ (kept root (List.mem_singleton_self _) p hp).1

/-! ## The leaves the merge starts from (R151) -/

theorem leafNodes_seq (k : Nat) (ps : List (Nat × Nat)) : (leafNodes k ps).map Node.seq = List.range' k ps.length := by
  induction ps generalizing k with
  | nil => rfl
  | cons p ps ih => rw [leafNodes, List.map_cons, ih, List.length_cons, List.range'_succ]

theorem leafNodes_syms (k : Nat) (ps : List (Nat × Nat)) : (leafNodes k ps).flatMap Node.syms = ps.map Prod.fst := by
  induction ps generalizing k with
  | nil => rfl
  | cons p ps ih => rw [leafNodes, List.flatMap_cons, ih]; rfl

theorem leafNodes_weight (k : Nat) (ps : List (Nat × Nat)) : (leafNodes k ps).map Node.weight = ps.map Prod.snd := by
  induction ps generalizing k with
  | nil => rfl
  | cons p ps ih => rw [leafNodes, List.map_cons, ih]; rfl

theorem exists_of_mem_leafNodes {k : Nat} {ps : List (Nat × Nat)} {x : Node} (hx : x ∈ leafNodes k ps) :
    ∃ p ∈ ps, x.weight = p.2 ∧ x.leaves = [(p.1, 0)] := by
  rw [leafNodes_eq] at hx
  obtain ⟨⟨p, i⟩, hp, rfl⟩ := List.mem_map.mp hx
  exact ⟨p, List.fst_mem_of_mem_zipIdx hp, rfl, rfl⟩

/-- Leaves that all count at least 1 meet the Fibonacci bound. -/
theorem leafNodes_fibBounded {ps : List (Nat × Nat)} (counted : ∀ p ∈ ps, 1 ≤ p.2) (k : Nat) : FibBounded (leafNodes k ps) := by
  have one : ∀ x ∈ leafNodes k ps, 1 ≤ x.weight := fun x hx => by
    obtain ⟨p, hp, weight, -⟩ := exists_of_mem_leafNodes hx
    exact weight ▸ counted p hp
  intro x hx q hq
  obtain ⟨p, -, -, leaves⟩ := exists_of_mem_leafNodes hx
  rw [leaves, List.mem_singleton] at hq
  subst hq
  exact ⟨one x hx, one⟩

/-! ## LEN of the present symbols (R152-R155) -/

/-- Two or more present symbols: the depths under the root that R154's merge of their leaves ends in. -/
theorem codeLengths_of_two {freq : List Word} (two : 2 ≤ (presentFrom 0 freq).length) :
    ∃ root, Merges (presentFrom 0 freq).length (leafNodes 0 (presentFrom 0 freq)) root ∧ codeLengths freq = root.leaves := by
  generalize hps : presentFrom 0 freq = ps at two
  have seqs := leafNodes_seq 0 ps
  have len : (leafNodes 0 ps).length = ps.length := by simpa using congrArg List.length seqs
  obtain ⟨root, loop, merges⟩ := mergeLoop_merges ps.length ps.length (leafNodes 0 ps) (seqs ▸ List.nodup_range')
    (fun x hx => by
      have mem : x.seq ∈ (leafNodes 0 ps).map Node.seq := List.mem_map_of_mem hx
      rw [seqs] at mem
      simpa using (List.mem_range'_1.mp mem).2)
    (List.ne_nil_of_length_pos (by omega)) (by omega)
  refine ⟨root, merges, ?_⟩
  match ps, two with
  | p :: q :: rest, _ => rw [codeLengths, hps]; simp only [loop, List.flatMap_singleton]

/-- The three ways R152-R154 find the lengths. -/
theorem codeLengths_cases (freq : List Word) :
    (presentFrom 0 freq = [] ∧ codeLengths freq = []) ∨
      (∃ p, presentFrom 0 freq = [p] ∧ codeLengths freq = [(p.1, 1)]) ∨
      (2 ≤ (presentFrom 0 freq).length ∧
        ∃ root, Merges (presentFrom 0 freq).length (leafNodes 0 (presentFrom 0 freq)) root ∧
          codeLengths freq = root.leaves) := by
  match h : presentFrom 0 freq with
  | [] => exact .inl ⟨rfl, by rw [codeLengths, h]⟩
  | [p] => exact .inr (.inl ⟨p, rfl, by rw [codeLengths, h]⟩)
  | p :: q :: ps => exact .inr (.inr ⟨by simp, h ▸ codeLengths_of_two (by simp [h])⟩)

/-- Exactly the present symbols have a LEN. -/
theorem codeLengths_syms_perm (freq : List Word) :
    ((codeLengths freq).map Prod.fst).Perm ((presentFrom 0 freq).map Prod.fst) := by
  obtain ⟨empty, lengths⟩ | ⟨p, one, lengths⟩ | ⟨-, root, merges, lengths⟩ := codeLengths_cases freq
  · rw [empty, lengths]
  · rw [one, lengths]; exact .refl _
  · rw [lengths]
    exact leafNodes_syms 0 (presentFrom 0 freq) ▸ merges.syms_perm

theorem codeLengths_length (freq : List Word) : (codeLengths freq).length = (presentFrom 0 freq).length := by
  simpa using (codeLengths_syms_perm freq).length_eq

theorem codeLengths_eq_nil_iff (freq : List Word) : codeLengths freq = [] ↔ presentFrom 0 freq = [] := by
  rw [← List.length_eq_zero_iff, codeLengths_length, List.length_eq_zero_iff]

/-- R161(c), as a sum of fractions. -/
theorem kraft_codeLengths_of_two {freq : List Word} (two : 2 ≤ (codeLengths freq).length) : kraft (codeLengths freq) = 1 := by
  obtain ⟨root, merges, lengths⟩ := codeLengths_of_two (freq := freq) (codeLengths_length freq ▸ two)
  rw [lengths]
  refine merges.kraft_eq_one fun x hx => ?_
  obtain ⟨p, -, -, leaves⟩ := exists_of_mem_leafNodes hx
  rw [leaves]
  simp [kraft]

theorem codeLengths_of_one {freq : List Word} (one : (codeLengths freq).length = 1) : ∃ s, codeLengths freq = [(s, 1)] := by
  obtain ⟨-, lengths⟩ | ⟨p, -, lengths⟩ | ⟨two, -⟩ := codeLengths_cases freq
  · rw [lengths] at one; exact absurd one (by decide)
  · exact ⟨p.1, lengths⟩
  · rw [codeLengths_length] at one; omega

theorem kraft_codeLengths_le_one (freq : List Word) : kraft (codeLengths freq) ≤ 1 := by
  match h : (codeLengths freq).length with
  | 0 => rw [List.length_eq_zero_iff.mp h]; norm_num [kraft]
  | 1 =>
    obtain ⟨s, lengths⟩ := codeLengths_of_one h
    rw [lengths]
    norm_num [kraft]
  | n + 2 => exact (kraft_codeLengths_of_two (by omega)).le

theorem codeLengths_pos {freq : List Word} {p : Nat × Nat} (hp : p ∈ codeLengths freq) : 1 ≤ p.2 := by
  rcases Nat.lt_or_ge (codeLengths freq).length 2 with few | two
  · have len := List.length_pos_of_mem hp
    obtain ⟨s, lengths⟩ := codeLengths_of_one (freq := freq) (by omega)
    rw [lengths, List.mem_singleton] at hp
    subst hp
    exact le_refl 1
  · exact one_le_of_kraft (kraft_codeLengths_le_one freq) two hp

/-! ## The present symbols (R151) -/

theorem presentFrom_syms (freq : List Word) :
    (presentFrom 0 freq).map Prod.fst = (List.range freq.length).filter fun n => (freq.getD n 0).getLsbD 31 := by
  rw [presentFrom_eq, List.map_map, List.range_eq_range']
  exact List.map_id _

theorem codeLengths_syms_nodup (freq : List Word) : ((codeLengths freq).map Prod.fst).Nodup := by
  rw [(codeLengths_syms_perm freq).nodup_iff, presentFrom_syms]
  exact List.nodup_range.filter _

theorem presentFrom_length (s : Nat) (freq : List Word) : (presentFrom s freq).length = (freq.filter freqPresent).length := by
  induction freq generalizing s with
  | nil => rfl
  | cons w ws ih =>
    rw [presentFrom, List.filter_cons]
    split_ifs
    · rw [List.length_cons, List.length_cons, ih]
    · exact ih _

/-- FREQ words none of which is PRESENT have no leaves (R152). -/
theorem presentFrom_eq_nil_iff (freq : List Word) : presentFrom 0 freq = [] ↔ ∀ w ∈ freq, w.getLsbD 31 = false := by
  rw [← List.length_eq_zero_iff, presentFrom_length, List.length_eq_zero_iff, List.filter_eq_nil_iff]
  simp only [freqPresent, Bool.not_eq_true]

end Sys2Proof.Machine
end

section
/-! PROOFS. The canonical assignment (spec 42_code_construction.md R160, R161): each code as the interval of the 32-bit strings that
begin with it, and the codes of a table as intervals that lie side by side from 0 on. -/

namespace Sys2Proof.Machine

/-! ## Canonical order (R160) -/

/-- The order of R160 on pairs of symbol and LEN. -/
def CanonLt (x y : Nat × Nat) : Prop := x.2 < y.2 ∨ (x.2 = y.2 ∧ x.1 < y.1)

theorem canonBefore_iff (x y : Nat × Nat) : canonBefore x y = true ↔ CanonLt x y := by simp [canonBefore, CanonLt]

theorem canonInsert_perm (x : Nat × Nat) (ys : List (Nat × Nat)) : (canonInsert x ys).Perm (x :: ys) := by
  induction ys with
  | nil => exact .refl _
  | cons y ys ih =>
    rw [canonInsert]
    split_ifs
    · exact .refl _
    · exact (ih.cons y).trans (.swap ..)

theorem canonSort_perm (ls : List (Nat × Nat)) : (canonSort ls).Perm ls := by
  induction ls with
  | nil => exact .refl _
  | cons x ls ih => exact (canonInsert_perm x _).trans (ih.cons x)

/-- Insertion keeps the order strict, where the symbol is a new one. -/
theorem canonInsert_sorted {x : Nat × Nat} {ys : List (Nat × Nat)} (sorted : ys.Pairwise CanonLt)
    (fresh : ∀ y ∈ ys, x.1 ≠ y.1) : (canonInsert x ys).Pairwise CanonLt := by
  induction ys with
  | nil => exact List.pairwise_singleton _ _
  | cons y ys ih =>
    obtain ⟨first, rest⟩ := List.pairwise_cons.mp sorted
    rw [canonInsert]
    split_ifs with before
    · have ahead := (canonBefore_iff x y).mp before
      refine List.pairwise_cons.mpr ⟨fun z hz => ?_, sorted⟩
      rcases List.mem_cons.mp hz with rfl | hz
      · exact ahead
      · have := first z hz
        unfold CanonLt at *
        omega
    · refine List.pairwise_cons.mpr ⟨fun z hz => ?_, ih rest fun z hz => fresh z (List.mem_cons_of_mem y hz)⟩
      rcases List.mem_cons.mp ((canonInsert_perm x ys).mem_iff.mp hz) with rfl | hz
      · have behind := mt (canonBefore_iff z y).mpr before
        have other := fresh y List.mem_cons_self
        unfold CanonLt at *
        omega
      · exact first z hz

theorem canonSort_sorted {ls : List (Nat × Nat)} (nodup : (ls.map Prod.fst).Nodup) : (canonSort ls).Pairwise CanonLt := by
  induction ls with
  | nil => exact List.Pairwise.nil
  | cons x ls ih =>
    obtain ⟨new, rest⟩ := List.nodup_cons.mp nodup
    refine canonInsert_sorted (ih rest) fun y hy same => new ?_
    exact List.mem_map.mpr ⟨y, (canonSort_perm ls).mem_iff.mp hy, same.symm⟩

/-! ## The loop of R160 -/

/-- A code's symbol and LEN. -/
def CodeEntry.pair (e : CodeEntry) : Nat × Nat := (e.sym, e.len)

/-- "code <- (code + 1) << (LEN(s) - prev)" from one code to the next (R160). -/
def CodeEntry.Next (e e' : CodeEntry) : Prop := e'.code = (e.code + 1) * 2 ^ (e'.len - e.len)

theorem assignFrom_pairs (code prev : Nat) (ls : List (Nat × Nat)) : (assignFrom code prev ls).map CodeEntry.pair = ls := by
  induction ls generalizing code prev with
  | nil => rfl
  | cons p ls ih => rw [assignFrom, List.map_cons, ih]; rfl

/-- The assignment keeps every symbol and every LEN. -/
theorem assignCodes_pairs (ls : List (Nat × Nat)) : (assignCodes ls).map CodeEntry.pair = ls := by
  cases ls with
  | nil => rfl
  | cons p ls => rw [assignCodes, List.map_cons, assignFrom_pairs]; rfl

theorem assignFrom_chain (s prev code : Nat) (ls : List (Nat × Nat)) :
    (⟨s, prev, code⟩ :: assignFrom code prev ls).IsChain CodeEntry.Next := by
  induction ls generalizing s prev code with
  | nil => exact .singleton _
  | cons p ls ih => exact .cons_cons (Nat.shiftLeft_eq _ _) (ih ..)

theorem assignCodes_chain (ls : List (Nat × Nat)) : (assignCodes ls).IsChain CodeEntry.Next := by
  cases ls with
  | nil => exact .nil
  | cons p ls => exact assignFrom_chain ..

theorem assignCodes_head {ls : List (Nat × Nat)} {e : CodeEntry} (he : e ∈ (assignCodes ls).head?) : e.code = 0 := by
  cases ls with
  | nil => exact absurd he (by simp [assignCodes])
  | cons p ls =>
    obtain rfl := Option.mem_some_iff.mp he
    rfl

/-! ## A code as an interval of 32-bit strings -/

/-- How many 32-bit strings begin with the code. -/
def CodeEntry.width (e : CodeEntry) : Nat := 2 ^ (32 - e.len)

/-- The first of them. -/
def CodeEntry.low (e : CodeEntry) : Nat := e.code * e.width

theorem CodeEntry.width_pos (e : CodeEntry) : 0 < e.width := Nat.two_pow_pos _

/-- A 32-bit string begins with a code exactly when it lies in the code's interval. -/
theorem CodeEntry.begins_iff (e : CodeEntry) (v : Nat) :
    v >>> (32 - e.len) = e.code ↔ e.low ≤ v ∧ v < e.low + e.width := by
  have pos := e.width_pos
  rw [Nat.shiftRight_eq_div_pow]
  exact (Nat.div_eq_iff pos).trans (and_congr_right' (Nat.le_sub_one_iff_lt (by omega)))

/-- The next code's interval begins where the code's own ends, if no LEN shrinks. -/
theorem CodeEntry.Next.low_eq {e e' : CodeEntry} (next : e.Next e') (longer : e.len ≤ e'.len) (fits : e'.len ≤ 32) :
    e'.low = e.low + e.width := by
  have split : 2 ^ (32 - e.len) = 2 ^ (e'.len - e.len) * 2 ^ (32 - e'.len) := by rw [← pow_add]; congr 1; omega
  rw [CodeEntry.low, next, CodeEntry.low, CodeEntry.width, CodeEntry.width, split]
  ring

/-- The intervals of the codes lie side by side from `a` on. -/
def SideBySide : Nat → List CodeEntry → Prop
  | _, [] => True
  | a, e :: es => e.low = a ∧ SideBySide (a + e.width) es

/-- Side by side, the intervals fill what they take in all. -/
theorem SideBySide.filled {a : Nat} {es : List CodeEntry} (side : SideBySide a es) {v : Nat} (lo : a ≤ v)
    (hi : v < a + (es.map CodeEntry.width).sum) : ∃ e ∈ es, e.low ≤ v ∧ v < e.low + e.width := by
  induction es generalizing a with
  | nil => exact absurd hi (by simpa using lo)
  | cons e es ih =>
    obtain ⟨rfl, rest⟩ := side
    rcases Nat.lt_or_ge v (e.low + e.width) with inside | past
    · exact ⟨e, List.mem_cons_self, lo, inside⟩
    · rw [List.map_cons, List.sum_cons, ← Nat.add_assoc] at hi
      obtain ⟨e', he', found⟩ := ih rest past hi
      exact ⟨e', List.mem_cons_of_mem e he', found⟩

/-- Every interval lies within what they take in all. -/
theorem SideBySide.within {a : Nat} {es : List CodeEntry} (side : SideBySide a es) {e : CodeEntry} (he : e ∈ es) :
    a ≤ e.low ∧ e.low + e.width ≤ a + (es.map CodeEntry.width).sum := by
  induction es generalizing a with
  | nil => exact absurd he List.not_mem_nil
  | cons d es ih =>
    obtain ⟨rfl, rest⟩ := side
    rw [List.map_cons, List.sum_cons]
    rcases List.mem_cons.mp he with rfl | he
    · omega
    · have := ih rest he
      omega

/-- Of two intervals, the one that stands first ends before the other begins. -/
theorem SideBySide.pairwise {a : Nat} {es : List CodeEntry} (side : SideBySide a es) :
    es.Pairwise fun e e' => e.low + e.width ≤ e'.low := by
  induction es generalizing a with
  | nil => exact .nil
  | cons e es ih =>
    obtain ⟨rfl, rest⟩ := side
    exact List.pairwise_cons.mpr ⟨fun e' he' => (rest.within he').1, ih rest⟩

/-- R160's codes lie side by side, if no LEN shrinks. -/
theorem sideBySide_of_chain {e : CodeEntry} {es : List CodeEntry} (chain : (e :: es).IsChain CodeEntry.Next)
    (sorted : (e :: es).Pairwise fun e e' => e.len ≤ e'.len) (fits : ∀ e' ∈ e :: es, e'.len ≤ 32) :
    SideBySide e.low (e :: es) := by
  refine ⟨rfl, ?_⟩
  induction es generalizing e with
  | nil => trivial
  | cons e' es ih =>
    obtain ⟨next, chain⟩ := List.isChain_cons_cons.mp chain
    obtain ⟨first, sorted⟩ := List.pairwise_cons.mp sorted
    have begins := next.low_eq (first e' List.mem_cons_self) (fits e' (by simp))
    have rest := ih chain sorted fun d hd => fits d (List.mem_cons_of_mem e hd)
    exact ⟨begins, begins ▸ rest⟩

/-! ## The bits of a code (R180) -/

/-- A code whose bits begin another's is that code cut to its LEN. -/
theorem shiftRight_of_bits {e e' : CodeEntry} (range : e.code < 2 ^ e.len) (range' : e'.code < 2 ^ e'.len)
    (begins : e.bits <+: e'.bits) : e.len ≤ e'.len ∧ e'.code >>> (e'.len - e.len) = e.code := by
  have len : ∀ d : CodeEntry, d.bits.length = d.len := fun d => by simp [CodeEntry.bits]
  have shorter : e.len ≤ e'.len := by simpa only [len] using begins.length_le
  refine ⟨shorter, Nat.eq_of_testBit_eq fun i => ?_⟩
  rw [Nat.testBit_shiftRight]
  rcases Nat.lt_or_ge i e.len with inside | past
  · have bit := begins.getElem (i := e.len - 1 - i) (by rw [len]; omega)
    simp only [CodeEntry.bits, List.getElem_map, List.getElem_range] at bit
    rw [show e.len - 1 - (e.len - 1 - i) = i by omega,
      show e'.len - 1 - (e.len - 1 - i) = e'.len - e.len + i by omega] at bit
    exact bit.symm
  · rw [Nat.testBit_lt_two_pow (range.trans_le (Nat.pow_le_pow_right Nat.two_pos past)),
      Nat.testBit_lt_two_pow (range'.trans_le (Nat.pow_le_pow_right Nat.two_pos (by omega)))]

/-- A code whose bits begin another's has the other's first string in its interval. -/
theorem low_mem_of_bits {e e' : CodeEntry} (range : e.code < 2 ^ e.len) (range' : e'.code < 2 ^ e'.len) (fits : e'.len ≤ 32)
    (begins : e.bits <+: e'.bits) : e.low ≤ e'.low ∧ e'.low < e.low + e.width := by
  obtain ⟨shorter, cut⟩ := shiftRight_of_bits range range' begins
  rw [← CodeEntry.begins_iff, ← cut, CodeEntry.low, CodeEntry.width, ← Nat.shiftLeft_eq,
    show 32 - e.len = (32 - e'.len) + (e'.len - e.len) by omega, Nat.shiftRight_add, Nat.shiftLeft_shiftRight]

end Sys2Proof.Machine
end

section
/-! PROOFS. BuildTable (spec 42_code_construction.md R151-R163, R168): the three ways it ends, what its table holds, and the statements
about tables. -/

namespace Sys2Proof.Machine

/-! ## The greatest LEN (R158) -/

theorem le_maxLength {ls : List (Nat × Nat)} {p : Nat × Nat} (hp : p ∈ ls) : p.2 ≤ maxLength ls := by
  induction ls with
  | nil => exact absurd hp List.not_mem_nil
  | cons q ls ih =>
    rw [maxLength, List.foldr_cons]
    rcases List.mem_cons.mp hp with rfl | hp
    · exact Nat.le_max_left _ _
    · exact (ih hp).trans (Nat.le_max_right _ _)

theorem exists_eq_maxLength {ls : List (Nat × Nat)} (h : ls ≠ []) : ∃ p ∈ ls, p.2 = maxLength ls := by
  induction ls with
  | nil => exact absurd rfl h
  | cons q ls ih =>
    rw [maxLength, List.foldr_cons]
    rcases Nat.le_total (maxLength ls) q.2 with great | small
    · exact ⟨q, List.mem_cons_self, (Nat.max_eq_left great).symm⟩
    · rcases eq_or_ne ls [] with rfl | more
      · exact ⟨q, List.mem_cons_self, (Nat.max_zero _).symm⟩
      · obtain ⟨p, hp, greatest⟩ := ih more
        exact ⟨p, List.mem_cons_of_mem q hp, greatest.trans (Nat.max_eq_right small).symm⟩

/-! ## How BuildTable ends (R152, R158, R160) -/

theorem buildTable_cases (freq : List Word) :
    (codeLengths freq = [] ∧ buildTable freq = .empty) ∨
      (32 < maxLength (codeLengths freq) ∧ buildTable freq = .tooLong (maxLength (codeLengths freq))) ∨
      (codeLengths freq ≠ [] ∧ maxLength (codeLengths freq) ≤ 32 ∧
        buildTable freq = .table (assignCodes (canonSort (codeLengths freq))) (maxLength (codeLengths freq))) := by
  rw [buildTable]
  cases codeLengths freq with
  | nil => exact .inl ⟨rfl, rfl⟩
  | cons p ls =>
    rw [buildOfLengths]
    split_ifs with fits
    · exact .inr (.inr ⟨List.cons_ne_nil _ _, Nat.le_of_ble_eq_true fits, rfl⟩)
    · exact .inr (.inl ⟨Nat.not_le.mp (mt Nat.ble_eq.mpr fits), rfl⟩)

theorem buildTable_eq_empty_iff (freq : List Word) : buildTable freq = .empty ↔ codeLengths freq = [] := by
  obtain ⟨empty, built⟩ | ⟨long, built⟩ | ⟨nonempty, -, built⟩ := buildTable_cases freq
  · simp [empty, built]
  · refine ⟨fun h => Build.noConfusion (built.symm.trans h), fun empty => ?_⟩
    rw [empty] at long
    exact absurd long (by decide)
  · exact ⟨fun h => Build.noConfusion (built.symm.trans h), fun empty => absurd empty nonempty⟩

/-- With at least one LEN and none above 32, BuildTable makes a table. -/
theorem buildTable_of_le {freq : List Word} (nonempty : codeLengths freq ≠ []) (fits : ∀ p ∈ codeLengths freq, p.2 ≤ 32) :
    buildTable freq = .table (assignCodes (canonSort (codeLengths freq))) (maxLength (codeLengths freq)) := by
  obtain ⟨p, hp, greatest⟩ := exists_eq_maxLength nonempty
  have := fits p hp
  obtain ⟨empty, -⟩ | ⟨long, -⟩ | ⟨-, -, built⟩ := buildTable_cases freq
  · exact absurd empty nonempty
  · omega
  · exact built

/-- A code stands ahead of another, in canonical order and by its interval. -/
def CodeEntry.Ahead (e e' : CodeEntry) : Prop := CanonLt e.pair e'.pair ∧ e.low + e.width ≤ e'.low

/-! ## What a table holds (R160, R163) -/

section
variable {freq : List Word} {codes : List CodeEntry} {m : Nat} (built : buildTable freq = .table codes m)
include built

theorem table_eq : codeLengths freq ≠ [] ∧ m = maxLength (codeLengths freq) ∧ m ≤ 32 ∧
    codes = assignCodes (canonSort (codeLengths freq)) := by
  obtain ⟨-, other⟩ | ⟨-, other⟩ | ⟨nonempty, fits, table⟩ := buildTable_cases freq
  · exact Build.noConfusion (built.symm.trans other)
  · exact Build.noConfusion (built.symm.trans other)
  · obtain ⟨rfl, rfl⟩ := Build.table.inj (built.symm.trans table)
    exact ⟨nonempty, rfl, fits, rfl⟩

theorem table_maxl_le : m ≤ 32 := by
  obtain ⟨-, -, fits, -⟩ := table_eq built
  exact fits

/-- The codes are those of the lengths, in another order. -/
theorem table_pairs_perm : (codes.map CodeEntry.pair).Perm (codeLengths freq) := by
  obtain ⟨-, -, -, rfl⟩ := table_eq built
  rw [assignCodes_pairs]
  exact canonSort_perm _

theorem table_length : codes.length = (codeLengths freq).length := by simpa using (table_pairs_perm built).length_eq

theorem pair_mem_codeLengths {e : CodeEntry} (he : e ∈ codes) : e.pair ∈ codeLengths freq :=
  (table_pairs_perm built).mem_iff.mp (List.mem_map_of_mem he)

/-- Exactly the present symbols have a code, each one. -/
theorem table_syms_perm :
    (codes.map CodeEntry.sym).Perm ((List.range freq.length).filter fun n => (freq.getD n 0).getLsbD 31) := by
  have syms := (table_pairs_perm built).map Prod.fst
  rw [List.map_map] at syms
  exact presentFrom_syms freq ▸ syms.trans (codeLengths_syms_perm freq)

theorem table_syms_nodup : (codes.map CodeEntry.sym).Nodup :=
  (table_syms_perm built).nodup_iff.mpr (List.nodup_range.filter _)

theorem table_sym_iff (n : Nat) : (∃ e ∈ codes, e.sym = n) ↔ n < freq.length ∧ (freq.getD n 0).getLsbD 31 = true := by
  rw [← List.mem_map, (table_syms_perm built).mem_iff, List.mem_filter, List.mem_range]

theorem table_len_pos {e : CodeEntry} (he : e ∈ codes) : 1 ≤ e.len := codeLengths_pos (pair_mem_codeLengths built he)

theorem table_len_le {e : CodeEntry} (he : e ∈ codes) : e.len ≤ m := by
  obtain ⟨-, rfl, -, -⟩ := table_eq built
  exact le_maxLength (pair_mem_codeLengths built he)

theorem table_len_le_32 {e : CodeEntry} (he : e ∈ codes) : e.len ≤ 32 :=
  (table_len_le built he).trans (table_maxl_le built)

theorem table_len_max : ∃ e ∈ codes, e.len = m := by
  obtain ⟨nonempty, rfl, -, -⟩ := table_eq built
  obtain ⟨p, hp, greatest⟩ := exists_eq_maxLength nonempty
  obtain ⟨e, he, rfl⟩ := List.mem_map.mp ((table_pairs_perm built).mem_iff.mpr hp)
  exact ⟨e, he, greatest⟩

theorem table_sorted : codes.Pairwise fun e e' => CanonLt e.pair e'.pair := by
  obtain ⟨-, -, -, rfl⟩ := table_eq built
  rw [← List.pairwise_map, assignCodes_pairs]
  exact canonSort_sorted (codeLengths_syms_nodup freq)

theorem table_chain : codes.IsChain CodeEntry.Next := by
  obtain ⟨-, -, -, rfl⟩ := table_eq built
  exact assignCodes_chain _

theorem table_head {e : CodeEntry} (he : e ∈ codes.head?) : e.code = 0 := by
  obtain ⟨-, -, -, rfl⟩ := table_eq built
  exact assignCodes_head he

/-! ## The intervals of a table (R161) -/

theorem table_sideBySide : SideBySide 0 codes := by
  cases codes with
  | nil => trivial
  | cons e es =>
    have low : e.low = 0 := by rw [CodeEntry.low, table_head built (Option.mem_some_self e), Nat.zero_mul]
    rw [← low]
    refine sideBySide_of_chain (table_chain built) ((table_sorted built).imp fun before => ?_) fun e' => table_len_le_32 built
    exact before.elim Nat.le_of_lt fun same => same.1.le

/-- The intervals are the Kraft sum's terms, scaled. -/
theorem table_widths : ((codes.map CodeEntry.width).sum : ℚ) = 2 ^ 32 * kraft (codeLengths freq) := by
  have width : ∀ e ∈ codes, (e.width : ℚ) = 2 ^ 32 * (1 / 2) ^ e.len := fun e he => by
    have split : (2 : ℚ) ^ 32 = 2 ^ (32 - e.len) * 2 ^ e.len := by
      rw [← pow_add, Nat.sub_add_cancel (table_len_le_32 built he)]
    rw [split, mul_assoc, ← mul_pow, CodeEntry.width]
    norm_num
  rw [← kraft_perm (table_pairs_perm built), kraft, List.map_map, ← List.sum_map_mul_left, Nat.cast_list_sum, List.map_map]
  exact congrArg List.sum (List.map_congr_left width)

theorem table_widths_le : (codes.map CodeEntry.width).sum ≤ 2 ^ 32 := by
  have scaled := table_widths built
  have kraft := kraft_codeLengths_le_one freq
  have bound : ((codes.map CodeEntry.width).sum : ℚ) ≤ 2 ^ 32 := by rw [scaled]; linarith
  exact_mod_cast bound

theorem table_widths_of_two (two : 2 ≤ codes.length) : (codes.map CodeEntry.width).sum = 2 ^ 32 := by
  have scaled := table_widths built
  rw [kraft_codeLengths_of_two (table_length built ▸ two), mul_one] at scaled
  exact_mod_cast scaled

/-- R161(b). -/
theorem table_code_lt {e : CodeEntry} (he : e ∈ codes) : e.code < 2 ^ e.len := by
  have within := ((table_sideBySide built).within he).2.trans
    ((Nat.zero_add _).le.trans (table_widths_le built))
  have split : 2 ^ 32 = 2 ^ e.len * e.width := by
    rw [CodeEntry.width, ← pow_add, Nat.add_sub_cancel' (table_len_le_32 built he)]
  rw [split, CodeEntry.low, ← Nat.succ_mul] at within
  exact Nat.le_of_mul_le_mul_right within e.width_pos

/-- Of two codes one stands ahead of the other. -/
theorem table_ahead {e e' : CodeEntry} (he : e ∈ codes) (he' : e' ∈ codes) (other : e ≠ e') : e.Ahead e' ∨ e'.Ahead e := by
  have ordered : codes.Pairwise CodeEntry.Ahead := (table_sorted built).and (table_sideBySide built).pairwise
  have : Std.Symm fun d d' : CodeEntry => d.Ahead d' ∨ d'.Ahead d := ⟨fun _ _ => Or.symm⟩
  exact List.Pairwise.forall (R := fun d d' : CodeEntry => d.Ahead d' ∨ d'.Ahead d) (ordered.imp .inl) he he' other

end

/-! ## The statements about codes -/

/-- Settles O38: a code whose bits begin another's would have the other's first 32-bit string in its interval. -/
theorem builtCodesArePrefixFree : Obligations.BuiltCodesArePrefixFree := by
  intro freq codes m built e he e' he' other begins
  obtain ⟨after, inside⟩ := low_mem_of_bits (table_code_lt built he) (table_code_lt built he') (table_len_le_32 built he') begins
  have pos := e'.width_pos
  rcases table_ahead built he he' (fun same => other (congrArg CodeEntry.sym same)) with ⟨-, apart⟩ | ⟨-, apart⟩ <;> omega

/-- Settles O39: the recurrence of R160 along the sorted lengths, and the order of the intervals. -/
theorem builtCodesAreCanonical : Obligations.BuiltCodesAreCanonical := by
  intro freq codes m built
  refine ⟨fun e => table_code_lt built, table_sorted built, fun e he e' he' same => ?ascend, fun nonempty => ?first,
    List.isChain_iff_getElem.mp (table_chain built)⟩
  case first => exact table_head built (by rw [List.head?_eq_getElem?, List.getElem?_eq_getElem nonempty]; rfl)
  case ascend =>
    have ordered : ∀ {d d' : CodeEntry}, d.len = d'.len → d.Ahead d' →
        d.sym < d'.sym ∧ d.code < d'.code := by
      rintro d d' same ⟨before, apart⟩
      rw [CodeEntry.low, CodeEntry.low, show d'.width = d.width by rw [CodeEntry.width, CodeEntry.width, same],
        ← Nat.succ_mul] at apart
      exact ⟨before.elim (fun shorter => absurd same shorter.ne) And.right, Nat.le_of_mul_le_mul_right apart d.width_pos⟩
    rcases eq_or_ne e e' with rfl | other
    · simp
    · rcases table_ahead built he he' other with before | before
      · have := ordered same before; omega
      · have := ordered same.symm before; omega

/-- Settles O40: the intervals of two or more codes fill the 32-bit strings, and no two of them meet. -/
theorem builtCodesAreComplete : Obligations.BuiltCodesAreComplete := by
  intro freq codes m built two
  have full := table_widths_of_two built two
  refine ⟨full, fun v hv => ?_⟩
  obtain ⟨e, he, inside⟩ := (table_sideBySide built).filled v.zero_le (by rw [full]; omega)
  refine ⟨e, ⟨he, (e.begins_iff v).mpr inside⟩, fun e' ⟨he', begins⟩ => ?_⟩
  have inside' := (e'.begins_iff v).mp begins
  by_contra other
  rcases table_ahead built he' he other with ⟨-, apart⟩ | ⟨-, apart⟩ <;> omega

end Sys2Proof.Machine
end

section
/-! PROOFS. The table and its FREQ words (spec 42_code_construction.md R151-R153, R163, R156, R168): no symbol, one symbol, the words of
CTAB, the lengths against the merge, and the counts of a sample. -/

namespace Sys2Proof.Machine

/-! ## No symbol, one symbol (R152, R153) -/

theorem buildInto_error_iff (freq : List Word) (s : State) :
    buildInto freq s = .error ⟨.emptyInput, 0⟩ ↔ buildTable freq = .empty := by
  rw [buildInto]
  cases buildTable freq <;> simp

/-- Settles O35: there is no LEN exactly when no word is PRESENT. -/
theorem emptyMappingHasNoTable : Obligations.EmptyMappingHasNoTable := by
  intro freq s
  rw [buildInto_error_iff, buildTable_eq_empty_iff, codeLengths_eq_nil_iff, presentFrom_eq_nil_iff]

/-- The one present symbol's LEN is 1, and its code is 0. -/
theorem buildTable_of_single {freq : List Word} {n : Nat} (single : (presentFrom 0 freq).map Prod.fst = [n]) :
    buildTable freq = .table [⟨n, 1, 0⟩] 1 := by
  have syms : (codeLengths freq).map Prod.fst = [n] := List.perm_singleton.mp (single ▸ codeLengths_syms_perm freq)
  obtain ⟨s, lengths⟩ := codeLengths_of_one (freq := freq) (by simpa using congrArg List.length syms)
  obtain rfl : s = n := by simpa [lengths] using syms
  rw [buildTable, lengths]
  rfl

/-- Settles O36: the present symbols are that one. -/
theorem oneSymbolGetsOneBit : Obligations.OneSymbolGetsOneBit := by
  intro freq n h present only
  refine buildTable_of_single (List.perm_singleton.mp ?_)
  rw [presentFrom_syms]
  refine (List.perm_ext_iff_of_nodup (List.nodup_range.filter _) (List.nodup_singleton n)).mpr fun k => ?_
  rw [List.mem_filter, List.mem_range, List.mem_singleton]
  constructor
  · rintro ⟨hk, bit⟩
    exact only k hk (by simpa [hk] using bit)
  · rintro rfl
    exact ⟨h, by simpa [h] using present⟩

/-! ## The words of CTAB (R163) -/

/-- A bit 31 set beside a smaller number. -/
theorem word_top_add {c : Nat} (h : c < 2 ^ 31) : word (2 ^ 31 + c) = 0x80000000 ||| word c := by
  have apart := Nat.two_pow_add_eq_or_of_lt h 1
  rw [Nat.mul_one] at apart
  rw [word, apart, BitVec.ofNat_or]
  rfl

/-- Lists of one length `k`, put together: the place `k * i + j` is place `j` of the `i`-th. -/
theorem getElem?_flatMap_of_length {α β : Type} {f : α → List β} {k : Nat} (len : ∀ a, (f a).length = k) (as : List α)
    (i : Nat) {j : Nat} (hj : j < k) : (as.flatMap f)[k * i + j]? = as[i]?.bind fun a => (f a)[j]? := by
  induction as generalizing i with
  | nil => rfl
  | cons a as ih =>
    rw [List.flatMap_cons]
    cases i with
    | zero => rw [Nat.mul_zero, Nat.zero_add, List.getElem?_append_left (by rwa [len])]; rfl
    | succ i =>
      have past : k * (i + 1) + j - k = k * i + j := by rw [Nat.mul_succ]; omega
      rw [List.getElem?_append_right (by rw [len, Nat.mul_succ]; omega), len, past, ih, List.getElem?_cons_succ]

theorem ctabWords_getElem? (codes : List CodeEntry) {n : Nat} (hn : n < 256) :
    (ctabWords codes)[2 * n]? = (ctabPair (findSym codes n))[0]? ∧
      (ctabWords codes)[2 * n + 1]? = (ctabPair (findSym codes n))[1]? := by
  have place : ∀ j, j < 2 → (ctabWords codes)[2 * n + j]? = (ctabPair (findSym codes n))[j]? := fun j hj => by
    rw [ctabWords, getElem?_flatMap_of_length (fun s => ctabPair_length (findSym codes s)) _ _ hj, List.getElem?_range hn,
      Option.bind_some]
  exact ⟨place 0 Nat.two_pos, place 1 Nat.one_lt_two⟩

/-- A symbol's code is found, where no symbol has two. -/
theorem findSym_of_mem {codes : List CodeEntry} (nodup : (codes.map CodeEntry.sym).Nodup) {e : CodeEntry} (he : e ∈ codes) :
    findSym codes e.sym = some e := by
  induction codes with
  | nil => exact absurd he List.not_mem_nil
  | cons d codes ih =>
    obtain ⟨new, rest⟩ := List.nodup_cons.mp nodup
    rcases List.mem_cons.mp he with rfl | he
    · simp [findSym]
    · rw [findSym_cons_of_ne fun same => new (same ▸ List.mem_map_of_mem he)]
      exact ih rest he

theorem findSym_eq_none {codes : List CodeEntry} {n : Nat} (absent : ∀ e ∈ codes, e.sym ≠ n) : findSym codes n = none :=
  List.find?_eq_none.mpr fun e he found => absent e he (Nat.eq_of_beq_eq_true found)

/-- The two words of a symbol with a code. -/
theorem ctabWords_of_mem {codes : List CodeEntry} (nodup : (codes.map CodeEntry.sym).Nodup) {e : CodeEntry} (he : e ∈ codes)
    (hn : e.sym < 256) (short : e.len ≤ 32) : (ctabWords codes)[2 * e.sym]? = some (0x80000000 ||| word e.len) ∧
      (ctabWords codes)[2 * e.sym + 1]? = some (word e.code) := by
  have pair : ctabPair (findSym codes e.sym) = [0x80000000 ||| word e.len, word e.code] := by
    rw [findSym_of_mem nodup he, ctabPair, word_top_add (by omega)]
  have words := ctabWords_getElem? codes hn
  rwa [pair] at words

/-- The two words of a symbol without a code. -/
theorem ctabWords_of_absent {codes : List CodeEntry} {n : Nat} (absent : ∀ e ∈ codes, e.sym ≠ n) (hn : n < 256) :
    (ctabWords codes)[2 * n]? = some 0 ∧ (ctabWords codes)[2 * n + 1]? = some 0 := by
  have words := ctabWords_getElem? codes hn
  rwa [findSym_eq_none absent] at words

/-! ## The lengths against the merge (R154-R156, R158) -/

/-- The lengths are the depths under the root, and R158's limit is on the greatest of them. -/
theorem buildTable_of_root {freq : List Word} {root : Node} (lengths : codeLengths freq = root.leaves)
    (nonempty : codeLengths freq ≠ []) {m : Nat} (hm : m = (root.leaves.map Prod.snd).foldr max 0) :
    (32 < m → buildTable freq = .tooLong m) ∧
      (m ≤ 32 → ∃ codes, buildTable freq = .table codes m ∧ (codes.map fun e => (e.sym, e.len)).Perm root.leaves) := by
  have greatest : m = maxLength (codeLengths freq) := by rw [hm, lengths, maxLength, List.foldr_map]
  subst greatest
  obtain ⟨empty, -⟩ | ⟨long, built⟩ | ⟨-, fits, built⟩ := buildTable_cases freq
  · exact absurd empty nonempty
  · exact ⟨fun _ => built, fun fits => absurd long (Nat.not_lt.mpr fits)⟩
  · exact ⟨fun long => absurd long (Nat.not_lt.mpr fits), fun _ => ⟨_, built, lengths ▸ table_pairs_perm built⟩⟩

section
variable {freq : List Word} (size : freq.length = 256)
include size

theorem presentFrom_length_eq : (presentFrom 0 freq).length = (presentSymbols freq).length := by
  rw [presentFrom_eq_present freq size, List.length_map]

theorem table_syms_perm_present {codes : List CodeEntry} {m : Nat} (built : buildTable freq = .table codes m) :
    (codes.map CodeEntry.sym).Perm (presentSymbols freq) := by
  have syms := table_syms_perm built
  rwa [size] at syms

/-- R156: a table's lengths cost the least of all that meet the Kraft inequality; for one symbol, of all that are at least 1. -/
theorem table_least_cost {codes : List CodeEntry} {m : Nat} (built : buildTable freq = .table codes m) {len : Nat → Nat}
    (pos : ∀ e ∈ codes, 1 ≤ len e.sym) (meets : (codes.map fun e => (1 / 2 : ℚ) ^ len e.sym).sum ≤ 1) :
    (codes.map fun e => countOf freq e.sym * e.len).sum ≤ (codes.map fun e => countOf freq e.sym * len e.sym).sum := by
  have syms := table_syms_perm_present size built
  have count : codes.length = (presentSymbols freq).length := by simpa using syms.length_eq
  rcases Nat.lt_or_ge codes.length 2 with few | two
  · refine List.sum_le_sum fun e he => Nat.mul_le_mul_left _ ?_
    have nonempty := List.length_pos_of_mem he
    obtain ⟨s, lengths⟩ := codeLengths_of_one (freq := freq) (by rw [← table_length built]; omega)
    have pair := pair_mem_codeLengths built he
    rw [lengths, List.mem_singleton] at pair
    have one : e.len = 1 := congrArg Prod.snd pair
    exact one ▸ pos e he
  · obtain ⟨root, merges, lengths⟩ := codeLengths_merges freq size (count ▸ two)
    have kraft := (syms.map fun n => (1 / 2 : ℚ) ^ len n).sum_eq
    have least := merges.optimal len (kraft ▸ by rwa [List.map_map])
    have own := (table_pairs_perm built).map (fun p => countOf freq p.1 * p.2) |>.sum_eq
    have other := (syms.map fun n => countOf freq n * len n).sum_eq
    rw [List.map_map] at own other
    rw [lengths] at own
    exact own.trans_le (least.trans other.ge)

end

/-- Settles O37: what a table holds, the merge its lengths come from, and their cost. -/
theorem tableHoldsThePresentAtMergeDepths : Obligations.TableHoldsThePresentAtMergeDepths := by
  refine ⟨fun freq codes m size built => ?holds, fun freq size two => ?depths,
    fun freq codes m len size built pos meets => table_least_cost size built pos meets⟩
  case holds =>
    have nodup := table_syms_nodup built
    have sym : ∀ e ∈ codes, e.sym < 256 := fun e he => by
      rw [← size]
      exact ((table_sym_iff built e.sym).mp ⟨e, he, rfl⟩).1
    refine ⟨fun n hn => ?_, nodup, fun e he => ⟨sym e he, table_len_pos built he, table_len_le built he⟩,
      table_len_max built, table_maxl_le built, ?_, ctabWords_length codes, ?_, fun n hn absent => ctabWords_of_absent absent hn⟩
    · rw [table_sym_iff built, size, and_iff_right hn]
    · rw [table_length built, codeLengths_length, presentFrom_length]
    · rintro n e hn he rfl
      exact ctabWords_of_mem nodup he hn (table_len_le_32 built he)
  case depths =>
    obtain ⟨root, merges, lengths⟩ := codeLengths_merges freq size two
    have nonempty : codeLengths freq ≠ [] := List.ne_nil_of_length_pos (by
      rw [codeLengths_length, presentFrom_length_eq size]; omega)
    exact ⟨root, merges, fun m hm => buildTable_of_root lengths nonempty hm⟩

/-! ## The counts of a sample (R167, R168) -/

/-- A count's FREQ word: PRESENT exactly when it is not 0, and COUNT the count. -/
theorem sampleWord_fields {c : Nat} (h : c < 2 ^ 24) :
    ((sampleWord c).getLsbD 31 = true ↔ c ≠ 0) ∧ (sampleWord c).toNat % 2 ^ 24 = c := by
  rcases eq_or_ne c 0 with rfl | positive
  · exact ⟨by simp [sampleWord], rfl⟩
  · have value : (sampleWord c).toNat = 2 ^ 31 + c := by
      rw [sampleWord, if_neg positive, BitVec.toNat_ofNat]
      omega
    refine ⟨iff_of_true ?_ positive, by rw [value]; omega⟩
    rw [BitVec.getLsbD, value, Nat.testBit_two_pow_add_eq, Nat.testBit_lt_two_pow (by omega)]
    rfl

theorem sampleFreq_getD (t : List Byte) {n : Nat} (hn : n < 256) :
    (sampleFreq t).getD n 0 = sampleWord (t.count (BitVec.ofNat 8 n)) := by
  simp [sampleFreq, hn]

section
variable {t : List Byte} (short : t.length ≤ 4096)
include short

theorem count_lt_of_sample (b : Byte) : t.count b < 2 ^ 24 := by
  have := List.count_le_length (a := b) (l := t)
  omega

theorem countOf_sampleFreq {n : Nat} (hn : n < 256) : countOf (sampleFreq t) n = t.count (BitVec.ofNat 8 n) := by
  rw [countOf, sampleFreq_getD t hn, (sampleWord_fields (count_lt_of_sample short _)).2]

theorem mem_presentSymbols_sampleFreq (n : Nat) :
    n ∈ presentSymbols (sampleFreq t) ↔ n < 256 ∧ BitVec.ofNat 8 n ∈ t := by
  rw [presentSymbols, List.mem_filter, List.mem_range]
  refine and_congr_right fun hn => ?_
  rw [sampleFreq_getD t hn, (sampleWord_fields (count_lt_of_sample short _)).1, ne_eq, List.count_eq_zero, not_not]

/-- The present symbols of a sample are its different bytes. -/
theorem presentSymbols_sampleFreq_perm : ((presentSymbols (sampleFreq t)).map (BitVec.ofNat 8)).Perm t.dedup := by
  have nodup : (presentSymbols (sampleFreq t)).Nodup := List.nodup_range.filter _
  have byte : ∀ n ∈ presentSymbols (sampleFreq t), (BitVec.ofNat 8 n).toNat = n := fun n hn =>
    (BitVec.toNat_ofNat n 8).trans (Nat.mod_eq_of_lt ((mem_presentSymbols_sampleFreq short n).mp hn).1)
  refine (List.perm_ext_iff_of_nodup (nodup.map_on fun a ha b hb same => ?_) t.nodup_dedup).mpr fun b => ?_
  · rw [← byte a ha, same, byte b hb]
  · rw [List.mem_map, List.mem_dedup]
    constructor
    · rintro ⟨n, hn, rfl⟩
      exact ((mem_presentSymbols_sampleFreq short n).mp hn).2
    · intro hb
      have same : BitVec.ofNat 8 b.toNat = b := BitVec.ofNat_toNat ..
      exact ⟨b.toNat, (mem_presentSymbols_sampleFreq short _).mpr ⟨b.isLt, same.symm ▸ hb⟩, same⟩

/-- The leaves of a sample, with their counts in the text. -/
theorem presentFrom_sampleFreq : presentFrom 0 (sampleFreq t) =
    (presentSymbols (sampleFreq t)).map fun n => (n, t.count (BitVec.ofNat 8 n)) := by
  rw [presentFrom_eq_present _ (sampleFreq_length t)]
  exact List.map_congr_left fun n hn =>
    congrArg (n, ·) (countOf_sampleFreq short ((mem_presentSymbols_sampleFreq short n).mp hn).1)

/-- The counts of a sample add up to its length. -/
theorem sampleFreq_weight : ((presentFrom 0 (sampleFreq t)).map Prod.snd).sum = t.length := by
  have counts := ((presentSymbols_sampleFreq_perm short).map fun b => t.count b).sum_eq
  rw [List.map_map, List.sum_map_count_dedup_eq_length] at counts
  rw [presentFrom_sampleFreq short, List.map_map]
  exact counts

/-- A code of more than 32 bits would need a text of at least F(35) bytes (R168). -/
theorem codeLengths_sampleFreq_le {p : Nat × Nat} (hp : p ∈ codeLengths (sampleFreq t)) : p.2 ≤ 32 := by
  obtain ⟨-, lengths⟩ | ⟨q, -, lengths⟩ | ⟨-, root, merges, lengths⟩ := codeLengths_cases (sampleFreq t)
  · rw [lengths] at hp
    exact absurd hp List.not_mem_nil
  · rw [lengths, List.mem_singleton] at hp
    subst hp
    exact Nat.le_of_ble_eq_true rfl
  · have counted : ∀ q ∈ presentFrom 0 (sampleFreq t), 1 ≤ q.2 := by
      rw [presentFrom_sampleFreq short]
      intro q hq
      obtain ⟨n, hn, rfl⟩ := List.mem_map.mp hq
      exact List.count_pos_iff.mpr ((mem_presentSymbols_sampleFreq short n).mp hn).2
    have bound := merges.fib_le (leafNodes_fibBounded counted 0) (lengths ▸ hp)
    rw [leafNodes_weight, sampleFreq_weight short] at bound
    by_contra long
    have fib : Nat.fib 35 ≤ Nat.fib (p.2 + 2) := Nat.fib_mono (by omega)
    have value : Nat.fib 35 = 9227465 := by norm_num
    omega

end

/-- Settles O41: the text has a byte, and the Fibonacci bound keeps every LEN within 32. -/
theorem sampleBuildNeverTooLong : Obligations.SampleBuildNeverTooLong := by
  intro t pos short
  obtain ⟨b, hb⟩ := List.exists_mem_of_length_pos pos
  have nonempty : codeLengths (sampleFreq t) ≠ [] := by
    rw [ne_eq, codeLengths_eq_nil_iff, presentFrom_sampleFreq short, List.map_eq_nil_iff]
    refine List.ne_nil_of_mem ((mem_presentSymbols_sampleFreq short b.toNat).mpr ⟨b.isLt, ?_⟩)
    rwa [BitVec.ofNat_toNat, BitVec.setWidth_eq]
  exact ⟨_, _, buildTable_of_le nonempty fun p hp => codeLengths_sampleFreq_le short hp⟩

end Sys2Proof.Machine
end

section
/-! PROOFS. CLEAR_FREQ and the three BUILD commands (spec 42_code_construction.md R150, R165-R170): how a BUILD ends, and FREQ words that
read back as they were written. -/

namespace Sys2Proof.Machine

/-! ## A BUILD that fails (R150) -/

/-- An error completion leaves TVALID, NSYM and MAXLEN as acceptance left them (R117). -/
theorem State.raise_sameSummary (c : Option Instr) (f : Failure) (s : State) : SameSummary s (s.raise c f) := by
  rw [State.raise_eq]
  obtain ⟨u, discard⟩ | discard | discard | discard := State.discard_cases c s <;> rw [discard] <;> exact .refl s

/-- Acceptance of a BUILD leaves no table (R111). -/
theorem State.accept_build {s : State} {w : Word} (build : isBuild (s.command w) = true) (n : Nat) :
    (s.accept n w).status.tvalid = false ∧ (s.accept n w).nsym = 0 ∧ (s.accept n w).maxlen = 0 := by
  simp [build]

/-- Settles O11: ERR is set by a raise alone, which keeps the summary that acceptance cleared. -/
theorem failedBuildHasNoTable : Obligations.FailedBuildHasNoTable := by
  intro s t i build runs failed
  have fitted : WellFormed s.fit.hasAbbr i = true := by
    cases i with
    | abbrW2A | abbrA2W => exact Bool.noConfusion build
    | _ => rfl
  have command : s.command (encode i) = some i := (State.command_eq_some_iff s _ i).mpr ⟨fitted, rfl⟩
  obtain ⟨tvalid, nsym, maxlen⟩ := State.accept_build (s := s) (w := encode i) (command ▸ build) 0
  rw [runCommand_eq_exec fitted] at runs
  obtain ⟨c, body, rfl, -, row⟩ := exec_endsBody runs
  obtain ⟨f, raised⟩ := finish_eq_raise row rfl failed
  obtain ⟨keptTvalid, keptNsym, keptMaxlen⟩ := State.raise_sameSummary c f (s.accept 0 (encode i))
  rw [raised]
  exact ⟨keptTvalid.trans tvalid, keptNsym.trans nsym, keptMaxlen.trans maxlen⟩

/-! ## CLEAR_FREQ (R165) -/

/-- A FREQ entry reads what was written, without its reserved bits (10_state.md R33). -/
theorem Table.freqAt_setFreq {ws : List Word} (size : ws.length = 256) (st : Table) {n : Nat} (hn : n < 256) :
    some ((st.setFreq ws).freqAt (0x0400 + 4 * n)) = (ws.map freqKeep)[n]? := by
  rw [← Table.freqWords_getElem? _ hn, Table.freqWords_setFreq ws size]

/-- Settles O31: the body writes 256 zero words. -/
theorem clearFreqFollowsItsRule : Obligations.ClearFreqFollowsItsRule := by
  intro s
  refine ⟨_, rfl, ⟨rfl, rfl, rfl, rfl, rfl⟩, fun n hn => ?cleared, .refl s, .refl s, .refl s, rfl, keptOutside_freq _ rfl⟩
  case cleared =>
    have zero : freqKeep 0 = 0 := by decide
    have entry := Table.freqAt_setFreq (List.length_replicate (n := Config.symbols) (a := (0 : Word))) s.mem.freq hn
    rw [List.map_replicate, List.getElem?_replicate, if_pos hn, zero] at entry
    exact Option.some.inj entry

/-! ## How a BUILD ends (R117, R163) -/

theorem buildInto_table {freq : List Word} {codes : List CodeEntry} {m : Nat} (built : buildTable freq = .table codes m)
    (s : State) : buildInto freq s = .ok (s.setTable codes m) := by rw [buildInto, built]

theorem buildInto_tooLong {freq : List Word} {m : Nat} (built : buildTable freq = .tooLong m) (s : State) :
    buildInto freq s = .error ⟨.codeTooLong, word m⟩ := by rw [buildInto, built]

/-- A body that writes a table, over a FREQ that it may have written, makes the command a `BuildsTable`. -/
theorem buildsTable_of_body {i : Instr} {c : Option Instr} {s : State} {body : Except Failure State} (st : Table)
    {codes : List CodeEntry} {m : Nat} (ends : exec i s = .next (s.finish c body))
    (ok : body = .ok ({ s with mem := { s.mem with freq := st } }.setTable codes m)) :
    BuildsTable i s st.freqWords codes m := by
  refine ⟨_, ends, ?_⟩
  subst ok
  exact ⟨⟨rfl, rfl, rfl, rfl, rfl⟩, rfl, rfl, rfl, Table.ctabAll_setCtab _ (ctabWords_length codes) _, rfl, .refl s, .refl s, rfl,
    keptOutside_tables _ _ rfl⟩

/-- A body that writes 256 FREQ words with reserved bits 0 and builds their table. -/
theorem buildsTable_of_setFreq {i : Instr} {c : Option Instr} {s : State} {freq : List Word} {codes : List CodeEntry} {m : Nat}
    (size : freq.length = 256) (reserved : ∀ w ∈ freq, freqKeep w = w) (built : buildTable freq = .table codes m)
    (ends : exec i s = .next (s.finish c (buildInto freq (s.setFreq freq)))) : BuildsTable i s freq codes m := by
  have table := buildsTable_of_body (s.mem.freq.setFreq freq) ends (buildInto_table built _)
  rwa [Table.freqWords_setFreq freq size, List.map_congr_left reserved, List.map_id'] at table

/-! ## The BUILD commands (R166, R167, R170) -/

/-- Settles O32: the three ways BuildTable ends, on the snapshot's FREQ. -/
theorem buildFreqFollowsItsRule : Obligations.BuildFreqFollowsItsRule := fun s =>
  ⟨fun empty => buildRaises_of_body (c := some .buildFreq) (f := ⟨.emptyInput, 0⟩) rfl rfl ((buildInto_error_iff ..).mpr empty),
    fun m long => buildRaises_of_body (c := some .buildFreq) (f := ⟨.codeTooLong, word m⟩) rfl rfl (buildInto_tooLong long s),
    fun _ _ built => buildsTable_of_body (c := some .buildFreq) s.mem.freq rfl (buildInto_table built s)⟩

/-- A count of less than 2^24 stands in COUNT's bits. -/
theorem word_and_freqMask {c : Nat} (h : c < 2 ^ 24) : word c &&& 0x80FFFFFF = word c := by
  have mask : ∀ i < 24, (0x80FFFFFF : Word).getLsbD i = true := by decide
  refine BitVec.eq_of_getLsbD_eq fun i _ => ?_
  rw [BitVec.getLsbD_and]
  rcases Nat.lt_or_ge i 24 with low | high
  · rw [mask i low, Bool.and_true]
  · have zero : c.testBit i = false := Nat.testBit_lt_two_pow (h.trans_le (Nat.pow_le_pow_right Nat.two_pos high))
    rw [BitVec.getLsbD_ofNat, zero, Bool.and_false, Bool.false_and]

/-- The FREQ word of a count has its reserved bits 0. -/
theorem freqKeep_sampleWord {c : Nat} (h : c < 2 ^ 24) : freqKeep (sampleWord c) = sampleWord c := by
  rw [sampleWord]
  split_ifs
  · rfl
  · rw [word_top_add (by omega), freqKeep, BitVec.and_or_distrib_right, word_and_freqMask h]
    rfl

theorem freqKeep_sampleFreq {t : List Byte} (short : t.length ≤ 4096) : ∀ w ∈ sampleFreq t, freqKeep w = w := by
  intro w hw
  obtain ⟨n, -, rfl⟩ := List.mem_map.mp hw
  exact freqKeep_sampleWord (count_lt_of_sample short _)

/-- R167's FREQ words, with PRESENT written as a bit. -/
theorem sampleFreq_eq {t : List Byte} (short : t.length ≤ 4096) : sampleFreq t = (List.range 256).map fun n =>
    if t.count (BitVec.ofNat 8 n) = 0 then (0 : Word) else 0x80000000 ||| word (t.count (BitVec.ofNat 8 n)) := by
  refine List.map_congr_left fun n _ => ?_
  have small := count_lt_of_sample short (BitVec.ofNat 8 n)
  rw [sampleWord, word_top_add (by omega)]

/-- Settles O33: the two checks on IN_LEN, and the table of the counts. -/
theorem buildSampleFollowsItsRule : Obligations.BuildSampleFollowsItsRule := by
  intro s
  refine ⟨fun long => ?long, fun empty => ?empty, fun freq codes m short nonempty counts built => ?table⟩
  case long => exact buildRaises_of_body (c := some .buildSample) (f := s.badInLen) rfl rfl (if_pos long)
  case empty =>
    have fits : ¬Config.ibufBytes < s.count := by omega
    exact buildRaises_of_body (c := some .buildSample) (f := ⟨.emptyInput, 0⟩) rfl rfl ((if_neg fits).trans (if_pos empty))
  case table =>
    have size : s.text.length ≤ 4096 := (Bytes.itext_length _ _).trans_le short
    rw [← sampleFreq_eq size] at counts
    subst counts
    have body : buildSampleBody s = buildInto (sampleFreq s.text) (s.setFreq (sampleFreq s.text)) :=
      (if_neg short.not_gt).trans (if_neg nonempty.ne')
    exact buildsTable_of_setFreq (c := some .buildSample) (sampleFreq_length _) (freqKeep_sampleFreq size) built
      (body ▸ rfl)

/-- R170's premises, carried by the type (log entry 7). -/
theorem DefaultFreq.premises (d : DefaultFreq) :
    (∀ w ∈ d.entries, freqKeep w = w) ∧ ∃ codes m, buildTable d.entries = .table codes m := by
  have ok := d.ok
  simp only [defaultFreqOk, Bool.and_eq_true, List.all_eq_true, decide_eq_true_eq] at ok
  obtain ⟨⟨-, reserved⟩, success⟩ := ok
  refine ⟨reserved, ?_⟩
  rw [builds] at success
  split at success
  · next codes m built => exact ⟨codes, m, built⟩
  · exact Bool.noConfusion success
  · exact Bool.noConfusion success

/-- Settles O34: a ROM that meets R170's premises builds. -/
theorem buildDefaultFollowsItsRule : Obligations.BuildDefaultFollowsItsRule := by
  intro s
  obtain ⟨reserved, codes, m, built⟩ := s.fit.defaultFreq.premises
  exact ⟨codes, m, built,
    buildsTable_of_setFreq (c := some .buildDefault) s.fit.defaultFreq.entries_length reserved built rfl⟩

end Sys2Proof.Machine
end

section
/-! PROOFS. The codes that CTAB holds after a build, and the parse of a bit sequence by them (spec 43_encode_decode.md R180, R183,
R187): the bits read since the root are a path, a code that begins the rest of the sequence is read whole, and where none does the
parse stops. -/

namespace Sys2Proof.Machine

/-! ## The codes read back from CTAB (R34, R163) -/

theorem findSym_mem {codes : List CodeEntry} {n : Nat} {e : CodeEntry} (found : findSym codes n = some e) :
    e ∈ codes ∧ e.sym = n :=
  ⟨List.mem_of_find?_eq_some found, Nat.eq_of_beq_eq_true (List.find?_some (p := fun d : CodeEntry => Nat.beq d.sym n) found)⟩

theorem entriesFrom_ctabPair_none (n : Nat) (ws : List Word) :
    entriesFrom n (ctabPair none ++ ws) = entriesFrom (n + 1) ws :=
  if_neg (by decide)

/-- The two words of a code read back as the code. -/
theorem entriesFrom_ctabPair_some {e : CodeEntry} (short : e.len ≤ 32) (range : e.code < 2 ^ e.len) (ws : List Word) :
    entriesFrom e.sym (ctabPair (some e) ++ ws) = e :: entriesFrom (e.sym + 1) ws := by
  have value : (word (2 ^ 31 + e.len)).toNat = 2 ^ 31 + e.len := by rw [BitVec.toNat_ofNat]; omega
  have valid : ctabValid (word (2 ^ 31 + e.len)) = true := by
    rw [ctabValid, BitVec.getLsbD, value, Nat.testBit_two_pow_add_eq, Nat.testBit_lt_two_pow (by omega)]
    rfl
  have len : ctabLen (word (2 ^ 31 + e.len)) = e.len := by rw [ctabLen_eq, value]; omega
  have code : (word e.code).toNat = e.code :=
    (BitVec.toNat_ofNat e.code 32).trans (Nat.mod_eq_of_lt (range.trans_le (Nat.pow_le_pow_right Nat.two_pos short)))
  rw [ctabPair, List.cons_append, List.cons_append, List.nil_append, entriesFrom, if_pos valid, len, code]

/-- The words of a table read back as its codes, by symbol. -/
theorem entriesFrom_ctabWords {codes : List CodeEntry} (fits : ∀ e ∈ codes, e.len ≤ 32 ∧ e.code < 2 ^ e.len) (n k : Nat) :
    entriesFrom n ((List.range' n k).flatMap fun s => ctabPair (findSym codes s)) =
      (List.range' n k).filterMap (findSym codes) := by
  induction k generalizing n with
  | zero => rfl
  | succ k ih =>
    rw [List.range'_succ, List.flatMap_cons, List.filterMap_cons]
    cases found : findSym codes n with
    | none => exact (entriesFrom_ctabPair_none n _).trans (ih (n + 1))
    | some e =>
      obtain ⟨he, rfl⟩ := findSym_mem found
      obtain ⟨short, range⟩ := fits e he
      exact (entriesFrom_ctabPair_some short range _).trans (congrArg (e :: ·) (ih (e.sym + 1)))

/-! ## Codes that begin no other code (R161) -/

/-- What the codec needs of a table: every symbol is a byte and has one code, which is not empty, fits its LEN bits, and begins no
other code. -/
structure PrefixCode (tbl : List CodeEntry) : Prop where
  nodup : (tbl.map CodeEntry.sym).Nodup
  sym_lt : ∀ e ∈ tbl, e.sym < 256
  len_pos : ∀ e ∈ tbl, 1 ≤ e.len
  code_lt : ∀ e ∈ tbl, e.code < 2 ^ e.len
  prefixFree : ∀ e ∈ tbl, ∀ e' ∈ tbl, e.bits <+: e'.bits → e = e'

theorem PrefixCode.perm {tbl tbl' : List CodeEntry} (h : PrefixCode tbl) (perm : tbl'.Perm tbl) : PrefixCode tbl' where
  nodup := (perm.map CodeEntry.sym).nodup_iff.mpr h.nodup
  sym_lt e he := h.sym_lt e (perm.mem_iff.mp he)
  len_pos e he := h.len_pos e (perm.mem_iff.mp he)
  code_lt e he := h.code_lt e (perm.mem_iff.mp he)
  prefixFree e he e' he' := h.prefixFree e (perm.mem_iff.mp he) e' (perm.mem_iff.mp he')

/-- BuildTable makes such a table (R161). -/
theorem table_prefixCode {freq : List Word} {codes : List CodeEntry} {m : Nat} (size : freq.length = 256)
    (built : buildTable freq = .table codes m) : PrefixCode codes where
  nodup := table_syms_nodup built
  sym_lt e he := size ▸ ((table_sym_iff built e.sym).mp ⟨e, he, rfl⟩).1
  len_pos _ := table_len_pos built
  code_lt _ := table_code_lt built
  prefixFree e he e' he' begins := by
    by_contra other
    refine builtCodesArePrefixFree freq codes m built e he e' he' (fun same => other ?_) begins
    exact List.inj_on_of_nodup_map (table_syms_nodup built) he he' same

/-- With a built table in CTAB, the present symbols are the table's, in another order. -/
theorem entries_perm {st : Table} {freq : List Word} {codes : List CodeEntry} {m : Nat} (size : freq.length = 256)
    (built : buildTable freq = .table codes m) (holds : st.ctabAll = ctabWords codes) : st.entries.Perm codes := by
  have entries : st.entries = (List.range 256).filterMap (findSym codes) := by
    rw [Table.entries, holds, ctabWords, List.range_eq_range']
    exact entriesFrom_ctabWords (fun e he => ⟨table_len_le_32 built he, table_code_lt built he⟩) 0 256
  have code := table_prefixCode size built
  have nodup : ((List.range 256).filterMap (findSym codes)).Nodup :=
    List.nodup_range.filterMap fun _ _ _ found found' => (findSym_mem found).2.symm.trans (findSym_mem found').2
  rw [entries, List.perm_ext_iff_of_nodup nodup code.nodup.of_map]
  intro e
  rw [List.mem_filterMap]
  constructor
  · rintro ⟨n, -, found⟩
    exact (findSym_mem found).1
  · exact fun he => ⟨e.sym, List.mem_range.mpr (code.sym_lt e he), findSym_of_mem code.nodup he⟩

theorem HoldsBuiltTable.prefixCode {s : State} (holds : HoldsBuiltTable s) : PrefixCode s.codes := by
  obtain ⟨freq, codes, m, size, built, words, -, -⟩ := holds
  exact (table_prefixCode size built).perm (entries_perm size built words)

/-! ## Paths (R183) -/

/-- The bits of the path from the root that the parse holds as a length and a value. -/
def pathBits (L v : Nat) : List Bool := (⟨0, L, v⟩ : CodeEntry).bits

@[simp] theorem CodeEntry.bits_length (e : CodeEntry) : e.bits.length = e.len := by simp [CodeEntry.bits]

@[simp] theorem pathBits_length (L v : Nat) : (pathBits L v).length = L := CodeEntry.bits_length _

@[simp] theorem pathBits_zero (v : Nat) : pathBits 0 v = [] := rfl

/-- "v <- 2*v + c[i] ; L <- L + 1" puts a bit at the end of the path. -/
theorem pathBits_succ (L v : Nat) (b : Bool) : pathBits (L + 1) (2 * v + b.toNat) = pathBits L v ++ [b] := by
  have value : 2 * v + b.toNat = Nat.bit b v := (Nat.bit_val b v).symm
  rw [value, pathBits, CodeEntry.bits, List.range_succ, List.map_append, List.map_singleton]
  refine congrArg₂ _ (List.map_congr_left fun k hk => ?_) (by simp)
  have place : L + 1 - 1 - k = (L - 1 - k) + 1 := by have := List.mem_range.mp hk; omega
  rw [place, Nat.testBit_bit_succ]

theorem path_lt_succ {L v : Nat} (range : v < 2 ^ L) (b : Bool) : 2 * v + b.toNat < 2 ^ (L + 1) := by
  have := b.toNat_lt
  rw [Nat.pow_succ]
  omega

/-- The first `L` bits of a code are the path that R183 compares with. -/
theorem CodeEntry.take_bits (e : CodeEntry) {L : Nat} (shorter : L ≤ e.len) :
    e.bits.take L = pathBits L (e.code >>> (e.len - L)) := by
  refine List.ext_getElem (by simpa using shorter) fun i _ inPath => ?_
  have inside : i < L := by simpa using inPath
  have place : e.len - L + (L - 1 - i) = e.len - 1 - i := by omega
  simp [CodeEntry.bits, pathBits, Nat.testBit_shiftRight, place]

/-- A path lies on the way to a code exactly when the code cut to its length has its value. -/
theorem pathBits_prefix_iff {e : CodeEntry} (code : e.code < 2 ^ e.len) {L v : Nat} (range : v < 2 ^ L) :
    pathBits L v <+: e.bits ↔ L ≤ e.len ∧ e.code >>> (e.len - L) = v := by
  constructor
  · exact shiftRight_of_bits (e := ⟨0, L, v⟩) range code
  · rintro ⟨shorter, rfl⟩
    exact e.take_bits shorter ▸ List.take_prefix L e.bits

theorem bits_eq_pathBits_iff {e : CodeEntry} (code : e.code < 2 ^ e.len) {L v : Nat} (range : v < 2 ^ L) :
    e.bits = pathBits L v ↔ e.len = L ∧ e.code = v := by
  constructor
  · intro same
    obtain rfl : e.len = L := by simpa using congrArg List.length same
    obtain ⟨-, value⟩ := (pathBits_prefix_iff code range).mp (same ▸ List.prefix_refl _)
    exact ⟨rfl, by simpa using value⟩
  · rintro ⟨rfl, rfl⟩
    rfl

/-! ## Leaves and branches (R183) -/

section
variable {tbl : List CodeEntry} (code : PrefixCode tbl) {L v : Nat} (range : v < 2 ^ L)
include code range

theorem leafAt_mem {e : CodeEntry} (found : leafAt tbl L v = some e) : e ∈ tbl ∧ e.bits = pathBits L v := by
  have he := List.mem_of_find?_eq_some found
  have leaf := List.find?_some (p := fun d : CodeEntry => Nat.beq d.len L && Nat.beq d.code v) found
  rw [Bool.and_eq_true, Nat.beq_eq, Nat.beq_eq] at leaf
  exact ⟨he, (bits_eq_pathBits_iff (code.code_lt e he) range).mpr leaf⟩

/-- "a leaf; unique by rule R161(a)". -/
theorem leafAt_of_bits {e : CodeEntry} (he : e ∈ tbl) (bits : e.bits = pathBits L v) : leafAt tbl L v = some e := by
  cases found : leafAt tbl L v with
  | some d =>
    obtain ⟨hd, same⟩ := leafAt_mem code range found
    rw [code.prefixFree d hd e he (by rw [same, bits])]
  | none =>
    have leaf := (bits_eq_pathBits_iff (code.code_lt e he) range).mp bits
    exact absurd (List.find?_eq_none.mp found e he) (by simp [leaf])

theorem leafAt_eq_none (inner : ∀ e ∈ tbl, e.bits ≠ pathBits L v) : leafAt tbl L v = none :=
  Option.eq_none_iff_forall_ne_some.mpr fun e found =>
    have ⟨he, bits⟩ := leafAt_mem code range found
    inner e he bits

theorem branchAt_of_prefix {e : CodeEntry} (he : e ∈ tbl) (onPath : pathBits L v <+: e.bits) (longer : L < e.len) :
    branchAt tbl L v = true := by
  have value := ((pathBits_prefix_iff (code.code_lt e he) range).mp onPath).2
  exact List.any_eq_true.mpr ⟨e, he, by simp [longer, value]⟩

end

/-! ## One code of the parse (R183) -/

/-- At the root the index of the last code's first bit is not read. -/
theorem parseFrom_root (tbl : List CodeEntry) (i v start start' : Nat) (out : List Byte) (c : List Bool) :
    parseFrom tbl i 0 v start out c = parseFrom tbl i 0 v start' out c := by
  cases c <;> rfl

section
variable {tbl : List CodeEntry} (code : PrefixCode tbl)
include code

/-- On the way to a code the parse reads the bits that are left of it and emits its symbol. -/
theorem parseFrom_path {e : CodeEntry} (he : e ∈ tbl) {left : List Bool} (i : Nat) {L v : Nat} (range : v < 2 ^ L)
    (start : Nat) (out : List Byte) (rest : List Bool) (nonempty : left ≠ []) (onPath : e.bits = pathBits L v ++ left) :
    parseFrom tbl i L v start out (left ++ rest) =
      parseFrom tbl (i + left.length) 0 0 0 (out ++ [BitVec.ofNat 8 e.sym]) rest := by
  induction left generalizing i L v start with
  | nil => exact absurd rfl nonempty
  | cons b left ih =>
    have range' := path_lt_succ range b
    have longer : e.bits = pathBits (L + 1) (2 * v + b.toNat) ++ left := by rw [onPath, pathBits_succ]; simp
    rw [List.cons_append, parseFrom]
    rcases eq_or_ne left [] with rfl | more
    · rw [leafAt_of_bits code range' he (by simpa using longer)]
      exact parseFrom_root ..
    · have begins : pathBits (L + 1) (2 * v + b.toNat) <+: e.bits := ⟨left, longer.symm⟩
      have noLeaf : leafAt tbl (L + 1) (2 * v + b.toNat) = none := by
        refine leafAt_eq_none code range' fun d hd bits => more ?_
        obtain rfl := code.prefixFree d hd e he (bits ▸ begins)
        exact List.self_eq_append_right.mp (bits ▸ longer)
      have inner : L + 1 < e.len := by
        have leftPos := List.length_pos_iff.mpr more
        have total := congrArg List.length longer
        rw [e.bits_length, List.length_append, pathBits_length] at total
        omega
      simp only [noLeaf, branchAt_of_prefix code range' he begins inner, if_true]
      rw [ih (i + 1) range' _ more longer, List.length_cons, Nat.add_right_comm, Nat.add_assoc]

/-- Where no code begins the path and the rest, the parse stops at the path's first bit. -/
theorem parseFrom_stuck (i : Nat) {L v : Nat} (range : v < 2 ^ L) (start : Nat) (out : List Byte) {c : List Bool}
    (nonempty : L = 0 → c ≠ []) (stuck : ∀ e ∈ tbl, ¬e.bits <+: pathBits L v ++ c) :
    parseFrom tbl i L v start out c = .corrupt (if L = 0 then i else start) := by
  induction c generalizing i L v start with
  | nil =>
    have inner : L ≠ 0 := fun root => nonempty root rfl
    rw [parseFrom, if_neg inner, if_neg inner]
  | cons b c ih =>
    have range' := path_lt_succ range b
    have path : pathBits L v ++ b :: c = pathBits (L + 1) (2 * v + b.toNat) ++ c := by rw [pathBits_succ]; simp
    rw [path] at stuck
    have noLeaf : leafAt tbl (L + 1) (2 * v + b.toNat) = none :=
      leafAt_eq_none code range' fun e he bits => stuck e he (bits ▸ List.prefix_append ..)
    rw [parseFrom]
    simp only [noLeaf]
    split
    · exact ih (i + 1) range' _ (fun root => absurd root L.succ_ne_zero) stuck
    · rfl

end

/-! ## The parse of a text's bits (R187) -/

/-- Every byte of a text has a code. -/
def Coded (tbl : List CodeEntry) (u : List Byte) : Prop := ∀ b ∈ u, (findSym tbl b.toNat).isSome = true

theorem coded_nil (tbl : List CodeEntry) : Coded tbl [] := List.forall_mem_nil _

theorem coded_cons {tbl : List CodeEntry} {b : Byte} {u : List Byte} :
    Coded tbl (b :: u) ↔ (findSym tbl b.toNat).isSome = true ∧ Coded tbl u := List.forall_mem_cons

section
variable {tbl : List CodeEntry} (code : PrefixCode tbl)
include code

/-- A byte with a code has its bits at the front. -/
theorem textBits_cons {e : CodeEntry} (he : e ∈ tbl) {b : Byte} (sym : e.sym = b.toNat) (u : List Byte) :
    textBits tbl (b :: u) = e.bits ++ textBits tbl u ∧ textLength tbl (b :: u) = e.len + textLength tbl u := by
  have found : findSym tbl b.toNat = some e := sym ▸ findSym_of_mem code.nodup he
  simp [textBits, textLength, found]

/-- From the root the parse reads the codes of a text and emits the text. -/
theorem parseFrom_textBits {u : List Byte} (coded : Coded tbl u) (i : Nat) (out : List Byte) (rest : List Bool) :
    parseFrom tbl i 0 0 0 out (textBits tbl u ++ rest) =
      parseFrom tbl (i + (textBits tbl u).length) 0 0 0 (out ++ u) rest := by
  induction u generalizing i out with
  | nil => simp [textBits]
  | cons b u ih =>
    obtain ⟨has, others⟩ := coded_cons.mp coded
    obtain ⟨e, found⟩ := Option.isSome_iff_exists.mp has
    obtain ⟨he, sym⟩ := findSym_mem found
    have byte : BitVec.ofNat 8 e.sym = b := by rw [sym, BitVec.ofNat_toNat, BitVec.setWidth_eq]
    have nonempty : e.bits ≠ [] := List.ne_nil_of_length_pos (e.bits_length ▸ code.len_pos e he)
    rw [(textBits_cons code he sym u).1, List.append_assoc,
      parseFrom_path code he i (Nat.two_pow_pos 0) 0 out _ nonempty (List.nil_append _).symm, byte, ih others,
      List.length_append, Nat.add_assoc, List.append_assoc, List.singleton_append]

/-- The bits of a text parse to it; with more behind them that no code begins, the parse stops where they end. -/
theorem parse_textBits_append {u : List Byte} (coded : Coded tbl u) {rest : List Bool} (stuck : ∀ e ∈ tbl, ¬e.bits <+: rest) :
    parse tbl (textBits tbl u ++ rest) = if rest = [] then .ok u else .corrupt (textBits tbl u).length := by
  rw [parse, parseFrom_textBits code coded, Nat.zero_add, List.nil_append]
  split_ifs with all
  · rw [all]
    rfl
  · exact parseFrom_stuck code _ (Nat.two_pow_pos 0) 0 u (fun _ => all) stuck

/-- Every bit sequence is the bits of some text and a rest that no code begins. -/
theorem exists_textBits_append (c : List Bool) :
    ∃ u rest, Coded tbl u ∧ (∀ e ∈ tbl, ¬e.bits <+: rest) ∧ c = textBits tbl u ++ rest := by
  by_cases stuck : ∀ e ∈ tbl, ¬e.bits <+: c
  · exact ⟨[], c, coded_nil tbl, stuck, rfl⟩
  · push Not at stuck
    obtain ⟨e, he, c', rfl⟩ := stuck
    have shorter : c'.length < (e.bits ++ c').length := by
      have := code.len_pos e he
      rw [List.length_append, e.bits_length]
      omega
    obtain ⟨u, rest, coded, stuck, rfl⟩ := exists_textBits_append c'
    have sym : e.sym = (BitVec.ofNat 8 e.sym).toNat :=
      (Nat.mod_eq_of_lt (code.sym_lt e he)).symm.trans (BitVec.toNat_ofNat e.sym 8).symm
    refine ⟨BitVec.ofNat 8 e.sym :: u, rest, coded_cons.mpr ⟨?_, coded⟩, stuck, ?_⟩
    · rw [← sym, findSym_of_mem code.nodup he]
      rfl
    · rw [(textBits_cons code he sym u).1, List.append_assoc]
termination_by c.length

/-- No code begins the empty sequence. -/
theorem PrefixCode.stuck_nil : ∀ e ∈ tbl, ¬e.bits <+: [] := fun e he begins => by
  have pos := code.len_pos e he
  rw [← e.bits_length, List.prefix_nil.mp begins] at pos
  exact Nat.not_succ_le_zero 0 pos

theorem parse_eq_ok_iff (c : List Bool) (u : List Byte) :
    parse tbl c = .ok u ↔ Coded tbl u ∧ textBits tbl u = c := by
  constructor
  · intro ok
    obtain ⟨u', rest, coded, stuck, rfl⟩ := exists_textBits_append code c
    rw [parse_textBits_append code coded stuck] at ok
    split_ifs at ok with all
    · obtain rfl := Parsed.ok.inj ok
      exact ⟨coded, by rw [all, List.append_nil]⟩
  · rintro ⟨coded, rfl⟩
    have whole := parse_textBits_append code coded code.stuck_nil
    rwa [List.append_nil, if_pos rfl] at whole

theorem parse_eq_corrupt_iff (c : List Bool) (j : Nat) : parse tbl c = .corrupt j ↔
    j < c.length ∧ (∃ u, Coded tbl u ∧ textBits tbl u = c.take j) ∧ ∀ e ∈ tbl, ¬e.bits <+: c.drop j := by
  constructor
  · intro corrupt
    obtain ⟨u, rest, coded, stuck, rfl⟩ := exists_textBits_append code c
    rw [parse_textBits_append code coded stuck] at corrupt
    split_ifs at corrupt with all
    · obtain rfl := Parsed.corrupt.inj corrupt
      have := List.length_pos_iff.mpr all
      rw [List.take_left', List.drop_left', List.length_append]
      · exact ⟨by omega, ⟨u, coded, rfl⟩, stuck⟩
      · rfl
      · rfl
  · rintro ⟨inside, ⟨u, coded, bits⟩, stuck⟩
    have more : c.drop j ≠ [] := by simpa using inside
    have parsed := parse_textBits_append code coded stuck
    rwa [bits, List.take_append_drop, if_neg more, List.length_take_of_le inside.le] at parsed

end

/-- Settles O45: any sequence is a text's bits and a rest that no code begins, and the parse of such a sequence is known. -/
theorem parseIsUnambiguous : Obligations.ParseIsUnambiguous := by
  intro s holds c u
  have code := holds.prefixCode
  refine ⟨parse_eq_ok_iff code c u, fun u' coded coded' bits bits' => ?unique, parse_eq_corrupt_iff code c,
    fun e he => ⟨e.bits_length, fun i hi => ?bit⟩, rfl, fun e he b sym => textBits_cons code he sym u⟩
  case unique =>
    have ok := (parse_eq_ok_iff code c u).mpr ⟨coded, bits⟩
    have ok' := (parse_eq_ok_iff code c u').mpr ⟨coded', bits'⟩
    exact Parsed.ok.inj (ok.symm.trans ok')
  case bit => simp [CodeEntry.bits, hi]

end Sys2Proof.Machine
end

section
/-! PROOFS. ENCODE and DECODE: the result of each body by case, and ENCODE, XFER and DECODE run one after the other, with one padding
and with two (spec 43_encode_decode.md R181, R184-R186). -/

namespace Sys2Proof.Machine

/-! ## The first byte without a code (R181) -/

theorem firstUnknown_eq_none {tbl : List CodeEntry} {t : List Byte} (coded : Coded tbl t) (start : Nat) :
    firstUnknown tbl start t = none := by
  induction t generalizing start with
  | nil => rfl
  | cons b t ih =>
    obtain ⟨has, others⟩ := coded_cons.mp coded
    rw [firstUnknown, if_pos has, ih others]

theorem coded_of_firstUnknown {tbl : List CodeEntry} {t : List Byte} {start : Nat} (known : firstUnknown tbl start t = none) :
    Coded tbl t := by
  induction t generalizing start with
  | nil => exact coded_nil tbl
  | cons b t ih =>
    rw [firstUnknown] at known
    split_ifs at known with has
    exact coded_cons.mpr ⟨has, ih known⟩

/-- "first offending byte wins", counted from `start`. -/
theorem firstUnknown_eq_some {tbl : List CodeEntry} {t : List Byte} {k : Nat} (hk : k < t.length)
    (before : ∀ (j : Nat) (hj : j < k), (findSym tbl (t[j]'(Nat.lt_trans hj hk)).toNat).isSome = true)
    (lacks : ¬(findSym tbl t[k].toNat).isSome = true) (start : Nat) : firstUnknown tbl start t = some (start + k, t[k]) := by
  induction t generalizing k start with
  | nil => exact absurd hk (Nat.not_lt_zero k)
  | cons b t ih =>
    rw [firstUnknown]
    cases k with
    | zero => exact if_neg lacks
    | succ k =>
      have has : (findSym tbl b.toNat).isSome = true := before 0 k.succ_pos
      rw [if_pos has, ih (Nat.lt_of_succ_lt_succ hk) (fun j hj => before (j + 1) (Nat.succ_lt_succ hj)) lacks,
        Nat.add_right_comm, Nat.add_assoc]
      rfl

/-! ## ENCODE by case (R181) -/

/-- ENCODE passes each of its checks, with padding `p`. -/
structure Encodes (s : State) (p : Nat) : Prop where
  short : s.count ≤ 4096
  table : s.status.tvalid = true
  coded : ∀ b ∈ s.text, s.hasCode b
  pad : s.pad = p
  fits : p + textLength s.codes s.text ≤ 32768

section
variable {s : State}

theorem encodeBody_inLen (long : 4096 < s.count) : encodeBody s = .error s.badInLen := if_pos long

theorem encodeBody_noTable (short : s.count ≤ 4096) (absent : s.status.tvalid = false) :
    encodeBody s = .error ⟨.noTable, 0⟩ := (if_neg short.not_gt).trans (if_pos absent)

section
variable (short : s.count ≤ 4096) (table : s.status.tvalid = true)
include short table

theorem encodeBody_unknown {k : Nat} {b : Byte} (unknown : firstUnknown s.codes 0 s.text = some (k, b)) :
    encodeBody s = .error ⟨.unknownSymbol, word (k <<< 8 ||| b.toNat)⟩ := by
  rw [encodeBody, if_neg short.not_gt, table, if_neg Bool.noConfusion, unknown]

variable (coded : ∀ b ∈ s.text, s.hasCode b)
include coded

theorem encodeBody_padlen (neg : s.pad < 0) : encodeBody s = .error s.badPadlen := by
  rw [encodeBody, if_neg short.not_gt, table, if_neg Bool.noConfusion, firstUnknown_eq_none coded]
  exact if_pos neg

theorem encodeBody_overflow {p : Nat} (hp : s.pad = p) (beyond : 32768 < p + textLength s.codes s.text) :
    encodeBody s = .error ⟨.outOverflow, word (p + textLength s.codes s.text)⟩ := by
  rw [encodeBody, if_neg short.not_gt, table, if_neg Bool.noConfusion, firstUnknown_eq_none coded, hp, Int.toNat_natCast]
  exact (if_neg (Int.natCast_nonneg p).not_gt).trans (if_pos beyond)

end

theorem encodeBody_ok {p : Nat} (h : Encodes s p) : encodeBody s =
    .ok ((s.writeBits (List.replicate p false ++ textBits s.codes s.text)).setOut (p + textLength s.codes s.text) true) := by
  rw [encodeBody, if_neg h.short.not_gt, h.table, if_neg Bool.noConfusion, firstUnknown_eq_none h.coded, h.pad, Int.toNat_natCast]
  exact (if_neg (Int.natCast_nonneg p).not_gt).trans (if_neg h.fits.not_gt)

/-- ENCODE succeeds in no other case. -/
theorem encodes_of_ok {t : State} (ok : encodeBody s = .ok t) : ∃ p, Encodes s p := by
  have short : s.count ≤ 4096 := Nat.le_of_not_lt fun long => nomatch (encodeBody_inLen long).symm.trans ok
  have table : s.status.tvalid = true :=
    Bool.eq_true_of_not_eq_false fun absent => nomatch (encodeBody_noTable short absent).symm.trans ok
  have coded : ∀ b ∈ s.text, s.hasCode b := coded_of_firstUnknown (start := 0) <|
    Option.eq_none_iff_forall_ne_some.mpr fun _ unknown => nomatch (encodeBody_unknown short table unknown).symm.trans ok
  have nonneg : 0 ≤ s.pad := Int.not_lt.mp fun neg => nomatch (encodeBody_padlen short table coded neg).symm.trans ok
  obtain ⟨p, hp⟩ := Int.eq_ofNat_of_zero_le nonneg
  have fits : p + textLength s.codes s.text ≤ 32768 :=
    Nat.le_of_not_lt fun beyond => nomatch (encodeBody_overflow short table coded hp beyond).symm.trans ok
  exact ⟨p, short, table, coded, hp, fits⟩

theorem encode_outputs {p : Nat} (h : Encodes s p) : Outputs .encode s true (p + textLength s.codes s.text)
    (packBits (List.replicate p false ++ textBits s.codes s.text)) :=
  outputs_of_body rfl (encodeBody_ok h)

end

/-- A byte below a number shifted by eight bits. -/
theorem shiftLeft_or_byte (k : Nat) (b : Byte) : k <<< 8 ||| b.toNat = k * 256 + b.toNat := by
  rw [← Nat.shiftLeft_add_eq_or_of_lt b.isLt, Nat.shiftLeft_eq]

/-- Settles O43: the body's cases in the order of its checks; the last two have a padding that is a natural number. -/
theorem encodeFollowsItsRule : Obligations.EncodeFollowsItsRule := by
  intro s
  refine ⟨fun long => ?inLen, fun short absent => ?noTable, fun k hk short table before lacks => ?unknown,
    fun short table coded => ⟨fun neg => ?padlen, fun nonneg beyond => ?overflow, fun nonneg fits => ?ok⟩⟩
  case inLen => exact raises_of_body rfl rfl (encodeBody_inLen long)
  case noTable => exact raises_of_body rfl rfl (encodeBody_noTable short absent)
  case unknown =>
    have unknown := firstUnknown_eq_some hk before lacks 0
    rw [Nat.zero_add] at unknown
    rw [← shiftLeft_or_byte]
    exact raises_of_body rfl rfl (encodeBody_unknown short table unknown)
  case padlen => exact raises_of_body rfl rfl (encodeBody_padlen short table coded neg)
  case overflow =>
    obtain ⟨p, hp⟩ := Int.eq_ofNat_of_zero_le nonneg
    rw [hp, ← Int.natCast_add] at beyond ⊢
    rw [BitVec.ofInt_natCast]
    exact raises_of_body rfl rfl (encodeBody_overflow short table coded hp (by exact_mod_cast beyond))
  case ok =>
    obtain ⟨p, hp⟩ := Int.eq_ofNat_of_zero_le nonneg
    rw [hp] at fits ⊢
    exact encode_outputs ⟨short, table, coded, hp, by exact_mod_cast fits⟩

/-! ## DECODE by case (R184) -/

/-- DECODE passes each of its checks, with padding `p`, and parses `out`. -/
structure Decodes (s : State) (p : Nat) (out : List Byte) : Prop where
  short : s.count ≤ 32768
  table : s.status.tvalid = true
  pad : s.pad = p
  inside : p ≤ s.count
  parsed : parse s.codes (s.bits.drop p) = .ok out
  fits : out.length ≤ 4096

section
variable {s : State}

theorem not_badPad {p : Nat} (hp : s.pad = p) (inside : p ≤ s.count) : ¬(s.pad < 0 ∨ (s.count : Int) < s.pad) := by omega

theorem decodeBody_inLen (long : 32768 < s.count) : decodeBody s = .error s.badInLen := if_pos long

theorem decodeBody_noTable (short : s.count ≤ 32768) (absent : s.status.tvalid = false) :
    decodeBody s = .error ⟨.noTable, 0⟩ := (if_neg short.not_gt).trans (if_pos absent)

section
variable (short : s.count ≤ 32768) (table : s.status.tvalid = true)
include short table

theorem decodeBody_padlen (bad : s.pad < 0 ∨ (s.count : Int) < s.pad) : decodeBody s = .error s.badPadlen := by
  rw [decodeBody, if_neg short.not_gt, table, if_neg Bool.noConfusion, if_pos bad]

variable {p : Nat} (hp : s.pad = p) (inside : p ≤ s.count)
include hp inside

theorem decodeBody_corrupt {j : Nat} (corrupt : parse s.codes (s.bits.drop p) = .corrupt j) :
    decodeBody s = .error ⟨.corruptStream, word (p + j)⟩ := by
  rw [decodeBody, if_neg short.not_gt, table, if_neg Bool.noConfusion, if_neg (not_badPad hp inside), hp, Int.toNat_natCast,
    corrupt]

theorem decodeBody_overflow {out : List Byte} (parsed : parse s.codes (s.bits.drop p) = .ok out) (beyond : 4096 < out.length) :
    decodeBody s = .error ⟨.outOverflow, word out.length⟩ := by
  rw [decodeBody, if_neg short.not_gt, table, if_neg Bool.noConfusion, if_neg (not_badPad hp inside), hp, Int.toNat_natCast,
    parsed]
  exact if_pos beyond

end

theorem decodeBody_ok {p : Nat} {out : List Byte} (h : Decodes s p out) :
    decodeBody s = .ok ((s.writeBytes out).setOut out.length false) := by
  rw [decodeBody, if_neg h.short.not_gt, h.table, if_neg Bool.noConfusion, if_neg (not_badPad h.pad h.inside), h.pad,
    Int.toNat_natCast, h.parsed]
  exact if_neg h.fits.not_gt

/-- DECODE succeeds in no other case. -/
theorem decodes_of_ok {t : State} (ok : decodeBody s = .ok t) : ∃ p out, Decodes s p out := by
  have short : s.count ≤ 32768 := Nat.le_of_not_lt fun long => nomatch (decodeBody_inLen long).symm.trans ok
  have table : s.status.tvalid = true :=
    Bool.eq_true_of_not_eq_false fun absent => nomatch (decodeBody_noTable short absent).symm.trans ok
  have good : ¬(s.pad < 0 ∨ (s.count : Int) < s.pad) := fun bad => nomatch (decodeBody_padlen short table bad).symm.trans ok
  obtain ⟨p, hp⟩ := Int.eq_ofNat_of_zero_le (Int.not_lt.mp (not_or.mp good).1)
  have inside : p ≤ s.count := by omega
  cases parsed : parse s.codes (s.bits.drop p) with
  | corrupt j => exact nomatch (decodeBody_corrupt short table hp inside parsed).symm.trans ok
  | ok out =>
    have fits : out.length ≤ 4096 :=
      Nat.le_of_not_lt fun beyond => nomatch (decodeBody_overflow short table hp inside parsed beyond).symm.trans ok
    exact ⟨p, out, short, table, hp, inside, parsed, fits⟩

theorem decode_outputs {p : Nat} {out : List Byte} (h : Decodes s p out) : Outputs .decode s false out.length out :=
  outputs_of_body rfl (decodeBody_ok h)

end

/-- Settles O44: the body's cases in the order of its checks; the last three have a padding that is a natural number. -/
theorem decodeFollowsItsRule : Obligations.DecodeFollowsItsRule := by
  intro s
  refine ⟨fun long => ?inLen, fun short absent => ?noTable, fun short table bad => ?padlen,
    fun short table nonneg inside => ?parse⟩
  case inLen => exact raises_of_body rfl rfl (decodeBody_inLen long)
  case noTable => exact raises_of_body rfl rfl (decodeBody_noTable short absent)
  case padlen => exact raises_of_body rfl rfl (decodeBody_padlen short table bad)
  case parse =>
    obtain ⟨p, hp⟩ := Int.eq_ofNat_of_zero_le nonneg
    rw [hp] at inside ⊢
    rw [Int.toNat_natCast]
    have inside : p ≤ s.count := by exact_mod_cast inside
    refine ⟨fun j corrupt => ?_, fun out parsed beyond => ?_, fun out parsed fits => ?_⟩
    · exact raises_of_body rfl rfl (decodeBody_corrupt short table hp inside corrupt)
    · exact raises_of_body rfl rfl (decodeBody_overflow short table hp inside parsed beyond)
    · exact decode_outputs ⟨short, table, hp, inside, parsed, fits⟩

/-! ## Runs that keep the table -/

theorem isBuild_of_not_mem {i : Instr} (other : i ∉ buildCommands) : isBuild (some i) = false := by
  cases i with
  | buildFreq | buildSample | buildDefault => exact absurd (by decide) other
  | _ => rfl

/-- Acceptance of a command that is no BUILD keeps TVALID (R111). -/
theorem State.accept_tvalid {s : State} {i : Instr} (fitted : WellFormed s.fit.hasAbbr i = true) (other : i ∉ buildCommands) :
    (s.accept 0 (encode i)).status.tvalid = s.status.tvalid := by
  have command : s.command (encode i) = some i := (State.command_eq_some_iff s _ i).mpr ⟨fitted, rfl⟩
  rw [State.accept_status, command, isBuild_of_not_mem other]
  rfl

/-- A command that is no BUILD leaves the table that the codec reads (30_encoding.md R92). -/
theorem runCommand_keepsTable {i : Instr} {s t : State} (fitted : WellFormed s.fit.hasAbbr i = true) (other : i ∉ buildCommands)
    (runs : runCommand i s = .next t) : t.status.tvalid = s.status.tvalid ∧ t.codes = s.codes := by
  rw [runCommand_eq_exec fitted] at runs
  obtain ⟨c, body, rfl, ends, row⟩ := exec_endsBody runs
  obtain ⟨⟨tvalid, -, -⟩, ctab⟩ := (KeepsRow.finish ends row).table other
  exact ⟨tvalid.trans (State.accept_tvalid fitted other), congrArg Table.entries ctab⟩

/-- A completion without ERR took a body that raised nothing (R117). -/
theorem ok_of_finish {s t : State} {c : Option Instr} {body : Except Failure State}
    (ends : (.next (s.finish c body) : Host.Outcome State Fault Refusal) = .next t) (clear : t.status.err = false) :
    ∃ u, body = .ok u := by
  obtain ⟨⟩ := ends
  cases body with
  | ok u => exact ⟨u, rfl⟩
  | error f => exact Bool.noConfusion clear

/-! ## ENCODE, XFER and DECODE (R185, R186) -/

/-- A buffer of padding and the bits of a text. -/
def paddedBits (p : Nat) (tbl : List CodeEntry) (t : List Byte) : List Bool := List.replicate p false ++ textBits tbl t

@[simp] theorem paddedBits_length (p : Nat) (tbl : List CodeEntry) (t : List Byte) :
    (paddedBits p tbl t).length = p + textLength tbl t := by
  rw [paddedBits, List.length_append, List.length_replicate, textBits_length]

/-- ENCODE puts padding and the bits of the text at OBUF (R181). -/
theorem encode_runsClean {s : State} {p : Nat} (h : Encodes (s.accept 0 (encode .encode)) p) :
    ∃ t, RunsClean .encode s t ∧ HoldsOutput (paddedBits p s.codes (Bytes.itext s.inLen.toNat s.mem.ibuf)) t :=
  runsClean_of_outputs rfl ((paddedBits_length p s.codes _).symm ▸ encode_outputs h)

/-- ENCODE and XFER make padding and the bits of the text the input, and keep the table. -/
theorem encode_xfer_runsClean {s : State} {p : Nat} (h : Encodes (s.accept 0 (encode .encode)) p) :
    ∃ s1 s2, RunsClean .encode s s1 ∧ RunsClean .xfer s1 s2 ∧
      HoldsInput (paddedBits p s.codes (Bytes.itext s.inLen.toNat s.mem.ibuf)) s2 ∧
      s2.status.tvalid = s.status.tvalid ∧ s2.codes = s.codes := by
  obtain ⟨s1, encoded, out⟩ := encode_runsClean h
  obtain ⟨s2, moved, input⟩ := xfer_runsClean out ((paddedBits_length ..).trans_le h.fits)
  obtain ⟨tvalid1, codes1⟩ := runCommand_keepsTable rfl (by decide) encoded.runs
  obtain ⟨tvalid2, codes2⟩ := runCommand_keepsTable rfl (by decide) moved.runs
  exact ⟨s1, s2, encoded, moved, input, tvalid2.trans tvalid1, codes2.trans codes1⟩

/-- DECODE puts the bytes it parses at OBUF (R184). -/
theorem decode_runs {s : State} {p : Nat} {out : List Byte} (h : Decodes (s.accept 0 (encode .decode)) p out) :
    ∃ t, runCommand .decode s = .next t ∧ t.status.err = false ∧ t.outLen = word out.length ∧ t.status.outu = false ∧
      Bytes.take out.length 0x2000 t.mem.obuf = out := by
  obtain ⟨t, runs, ⟨-, -, err, -, -⟩, outLen, outu, obuf, -⟩ := decode_outputs h
  exact ⟨t, (runCommand_eq_exec rfl).trans runs, err, outLen, outu, obuf⟩

/-- Settles O46: behind the padding stand the bits of the text, which parse to it. -/
theorem encodeDecodeRoundTrip : Obligations.EncodeDecodeRoundTrip := by
  intro s n t _ table holds hn short ht coded nonneg total
  subst hn ht
  obtain ⟨p, hp⟩ := Int.eq_ofNat_of_zero_le nonneg
  have fits : p + textLength s.codes (Bytes.itext s.inLen.toNat s.mem.ibuf) ≤ 32768 := by rw [hp] at total; exact_mod_cast total
  obtain ⟨s1, s2, encoded, moved, input, tvalid, codes⟩ := encode_xfer_runsClean (s := s) (p := p)
    ⟨short, (State.accept_tvalid rfl (by decide)).trans table, coded, hp, fits⟩
  have size := paddedBits_length p s.codes (Bytes.itext s.inLen.toNat s.mem.ibuf)
  have parsed : parse s2.codes ((s2.accept 0 (encode .decode)).bits.drop p) = .ok (Bytes.itext s.inLen.toNat s.mem.ibuf) := by
    rw [input.accept_bits, codes, paddedBits, List.drop_left' List.length_replicate]
    exact (parse_eq_ok_iff holds.prefixCode _ _).mpr ⟨coded, rfl⟩
  obtain ⟨s3, decoded, err, outLen, outu, obuf⟩ := decode_runs (s := s2) (p := p)
    { short := (input.accept_count.trans size).trans_le fits
      table := ((State.accept_tvalid rfl (by decide)).trans tvalid).trans table
      pad := by rw [← hp, ← encoded.padlen, ← moved.padlen]; rfl
      inside := by rw [input.accept_count, size]; exact Nat.le_add_right ..
      parsed := parsed
      fits := (Bytes.itext_length ..).trans_le short }
  rw [Bytes.itext_length] at outLen obuf
  exact ⟨s1, s2, s3, ⟨encoded.runs, moved.runs, decoded⟩, encoded.err, moved.err, err, outLen, outu, obuf⟩

/-- Settles O47: an output equal to the text has as many code bits as the text, and so had as much padding before it. -/
theorem wrongPaddingNeverReproduces : Obligations.WrongPaddingNeverReproduces := by
  intro s s1 s2 s3 v t _ _ holds ht vNe encodes clear1 moves decodes
  subst ht
  rw [or_iff_not_imp_left, Bool.not_eq_true]
  intro clear3 same
  obtain ⟨u, ok⟩ := ok_of_finish ((runCommand_eq_exec rfl).symm.trans encodes) clear1
  obtain ⟨p, h⟩ := encodes_of_ok ok
  obtain ⟨_, _, encoded, moved, input, -, codes⟩ := encode_xfer_runsClean h
  obtain ⟨⟩ := encoded.runs.symm.trans encodes
  obtain ⟨⟩ := moved.runs.symm.trans moves
  obtain ⟨u, ok⟩ := ok_of_finish ((runCommand_eq_exec rfl).symm.trans decodes) clear3
  obtain ⟨q, out, h'⟩ := decodes_of_ok ok
  obtain ⟨_, decoded, -, outLen, -, obuf⟩ := decode_runs h'
  obtain ⟨⟩ := decoded.symm.trans decodes
  rw [outLen, word_toNat (h'.fits.trans (by decide)), obuf] at same
  subst same
  have input' : HoldsInput _ { s2 with padlen := v } := ⟨input.inLen, input.ibits⟩
  have inside := h'.inside
  have parsed := h'.parsed
  rw [input'.accept_count, paddedBits_length] at inside
  rw [input'.accept_bits] at parsed
  have bits := ((parse_eq_ok_iff holds.prefixCode _ _).mp (codes ▸ parsed)).2
  have length := congrArg List.length bits
  rw [textBits_length, List.length_drop, paddedBits_length] at length
  have samePad : q = p := by omega
  exact vNe (BitVec.toInt_inj.mp (h'.pad.trans (samePad ▸ h.pad.symm)))

end Sys2Proof.Machine
end

section
/-! PROOFS. The abbreviation ROM as its premises describe it (spec 44_abbreviation_lookup.md R211-R217): each premise as a proposition,
and the strings of an image's pairs. -/

namespace Sys2Proof.Machine

/-! ## The premises (R214-R217) -/

theorem vocabWordOk_iff (w : List Byte) :
    vocabWordOk w = true ↔ 1 ≤ w.length ∧ w.length ≤ 63 ∧ ∀ b ∈ w, isLetter b = true := by
  simp [vocabWordOk, and_assoc]

theorem framingOk_iff (img : List Byte) : framingOk img = true ↔
    leNat (slice img 0 4) = 0x52424241 ∧ 1 ≤ romCount img ∧ romCount img ≤ 2 ^ 20 ∧ leNat (slice img 12 4) = 0 ∧
      img.length = 16 + 132 * romCount img := by
  simp [framingOk, and_assoc]

theorem halfOk_iff (h : List Byte) : halfOk h = true ↔
    1 ≤ (byteOr0 h 0).toNat ∧ (byteOr0 h 0).toNat ≤ 63 ∧ (∀ b ∈ slice h 1 (byteOr0 h 0).toNat, isLetter b = true) ∧
      ∀ b ∈ h.drop (1 + (byteOr0 h 0).toNat), b.toNat = 0 := by
  simp [halfOk, and_assoc]

theorem recordsOk_iff (img : List Byte) : recordsOk img = true ↔
    ∀ r ∈ romRecords img, halfOk (slice r 0 64) = true ∧ halfOk (slice r 64 64) = true := by
  simp [recordsOk]

theorem bijectionOk_iff (img : List Byte) : bijectionOk img = true ↔
    ((romPairs img).map Pair.wrd).Nodup ∧ ((romPairs img).map Pair.abbr).Nodup := by
  simp [bijectionOk]

theorem romOk_iff (img : List Byte) : romOk img = true ↔
    framingOk img = true ∧ recordsOk img = true ∧ bijectionOk img = true ∧ orderOk img = true := by
  simp [romOk, and_assoc]

/-! ## Records (R213) -/

/-- The string a half of a record holds (R213). -/
def halfString (h : List Byte) : List Byte := slice h 1 (byteOr0 h 0).toNat

theorem byteOr0_slice (r : List Byte) (i : Nat) : byteOr0 (slice r i 64) 0 = byteOr0 r i := by
  simp [byteOr0, slice, List.getD_eq_getElem?_getD]

theorem slice_slice (r : List Byte) (i : Nat) {n : Nat} (short : n ≤ 63) : slice (slice r i 64) 1 n = slice r (i + 1) n := by
  rw [slice, slice, slice, List.drop_take, List.take_take, List.drop_drop, min_eq_left short]

/-- A record whose halves keep to their length is the two strings of its halves. -/
theorem recordPair_eq {r : List Byte} (abbr : halfOk (slice r 0 64) = true) (wrd : halfOk (slice r 64 64) = true) :
    recordPair r = ⟨halfString (slice r 0 64), halfString (slice r 64 64)⟩ := by
  obtain ⟨-, short, -⟩ := (halfOk_iff _).mp abbr
  obtain ⟨-, short', -⟩ := (halfOk_iff _).mp wrd
  rw [halfString, halfString, slice_slice r 0 short, slice_slice r 64 short', byteOr0_slice, byteOr0_slice]
  rfl

/-- The string of a whole half that keeps to R215. -/
theorem vocabWordOk_halfString {h : List Byte} (ok : halfOk h = true) (size : h.length = 64) :
    vocabWordOk (halfString h) = true := by
  obtain ⟨pos, short, letters, -⟩ := (halfOk_iff h).mp ok
  have len : (halfString h).length = (byteOr0 h 0).toNat := by
    rw [halfString, slice, List.length_take, List.length_drop]
    omega
  exact (vocabWordOk_iff _).mpr ⟨len ▸ pos, len ▸ short, letters⟩

theorem recordsFrom_length {n : Nat} {bs : List Byte} (long : 128 * n ≤ bs.length) :
    ∀ r ∈ recordsFrom n bs, r.length = 128 := by
  induction n generalizing bs with
  | zero => exact List.forall_mem_nil _
  | succ n ih =>
    rw [recordsFrom, List.forall_mem_cons]
    exact ⟨by rw [List.length_take]; omega, ih (by rw [List.length_drop]; omega)⟩

theorem romRecords_length {img : List Byte} (framing : framingOk img = true) : ∀ r ∈ romRecords img, r.length = 128 := by
  obtain ⟨-, -, -, -, size⟩ := (framingOk_iff img).mp framing
  exact recordsFrom_length (by rw [List.length_drop]; omega)

/-- R215 as the lookups see it: both strings of every pair of a ROM are 1..63 letters. -/
theorem AbbrRom.strings (rom : AbbrRom) {p : Pair} (hp : p ∈ romPairs rom.image) :
    vocabWordOk p.abbr = true ∧ vocabWordOk p.wrd = true := by
  obtain ⟨framing, records, -, -⟩ := (romOk_iff _).mp rom.ok
  obtain ⟨r, hr, rfl⟩ := List.mem_map.mp hp
  obtain ⟨abbr, wrd⟩ := (recordsOk_iff _).mp records r hr
  have size := romRecords_length framing r hr
  rw [recordPair_eq abbr wrd]
  exact ⟨vocabWordOk_halfString abbr (by simp [slice, size]), vocabWordOk_halfString wrd (by simp [slice, size])⟩

/-- R216. -/
theorem AbbrRom.bijection (rom : AbbrRom) :
    ((romPairs rom.image).map Pair.wrd).Nodup ∧ ((romPairs rom.image).map Pair.abbr).Nodup := by
  obtain ⟨-, -, bijection, -⟩ := (romOk_iff _).mp rom.ok
  exact (bijectionOk_iff _).mp bijection

end Sys2Proof.Machine
end

section
/-! PROOFS. The two lookups (spec 44_abbreviation_lookup.md R240-R243): the search finds the one record with the key, what a lookup
then does, said once for both commands, and a lookup, XFER and the other lookup run one after the other. -/

namespace Sys2Proof.Machine

/-! ## The search (R240, R241, R245) -/

/-- At most one entry has the key, so the first that has it is any that has it. -/
theorem find?_key_of_mem {α κ : Type} [DecidableEq κ] {key : α → κ} {l : List α}
    (nodup : (l.map key).Nodup) {p : α} (hp : p ∈ l) :
    l.find? (fun x => decide (key x = key p)) = some p := by
  cases found : l.find? (fun x => decide (key x = key p)) with
  | none => exact absurd (List.find?_eq_none.mp found p hp) (by simp)
  | some x =>
    have same : key x = key p := by simpa using List.find?_some found
    rw [List.inj_on_of_nodup_map nodup (List.mem_of_find?_eq_some found) hp same]

/-! ## One lookup (R240, R241) -/

/-- A lookup command: it searches the ROM for the record with the key, and gives the other string of that record. -/
structure IsLookup (i : Instr) (key out : Pair → List Byte) : Prop where
  body : ∀ s, exec i s = .next (s.finish (lookupAs i s)
    (lookupBody i (fun ps k => (ps.find? fun p => decide (key p = k)).map out) s))
  discards : ∀ s : State, s.discard (some i) = s.drawObuf.setOut 0 false
  unique : ∀ rom : AbbrRom, ((romPairs rom.image).map key).Nodup
  keys : ∀ (rom : AbbrRom) (p : Pair), p ∈ romPairs rom.image → vocabWordOk (key p) = true

theorem isLookup_abbrW2A : IsLookup .abbrW2A Pair.wrd Pair.abbr where
  body _ := rfl
  discards _ := rfl
  unique rom := rom.bijection.1
  keys rom _ hp := (rom.strings hp).2

theorem isLookup_abbrA2W : IsLookup .abbrA2W Pair.abbr Pair.wrd where
  body _ := rfl
  discards _ := rfl
  unique rom := rom.bijection.2
  keys rom _ hp := (rom.strings hp).1

section
variable {s : State} {rom : AbbrRom} (fitted : s.fit.abbr = some rom)
include fitted

theorem lookupAs_fitted (i : Instr) : lookupAs i s = some i := by
  rw [lookupAs, Fitting.hasAbbr, fitted]
  rfl

variable {search : List Pair → List Byte → Option (List Byte)}

theorem lookupBody_inLen (i : Instr) (bad : s.count = 0 ∨ 4096 < s.count) : lookupBody i search s = .error s.badInLen := by
  simp only [lookupBody, fitted]
  exact if_pos bad

section
variable (pos : 0 < s.count) (short : s.count ≤ 4096)
include pos short

theorem lookupBody_found (i : Instr) {a : List Byte} (found : search (romPairs rom.image) s.text = some a) :
    lookupBody i search s = .ok ((s.writeBytes a).setOut a.length false) := by
  simp only [lookupBody, fitted, found]
  exact if_neg (not_or.mpr ⟨pos.ne', short.not_gt⟩)

theorem lookupBody_notFound (i : Instr) (absent : search (romPairs rom.image) s.text = none) :
    lookupBody i search s = .error ⟨.notFound, 0⟩ := by
  simp only [lookupBody, fitted, absent]
  exact if_neg (not_or.mpr ⟨pos.ne', short.not_gt⟩)

end

variable {i : Instr} {key out : Pair → List Byte} (lookup : IsLookup i key out)
include lookup

theorem IsLookup.exec_eq : exec i s = .next (s.finish (some i)
    (lookupBody i (fun ps k => (ps.find? fun p => decide (key p = k)).map out) s)) :=
  lookupAs_fitted fitted i ▸ lookup.body s

theorem IsLookup.raises_inLen (bad : s.count = 0 ∨ 4096 < s.count) : Raises i s false .invalidArgument s.snap.inLen :=
  raises_of_body (lookup.exec_eq fitted) (lookup.discards s) (lookupBody_inLen fitted i bad)

variable (pos : 0 < s.count) (short : s.count ≤ 4096)
include pos short

theorem IsLookup.outputs {p : Pair} (hp : p ∈ romPairs rom.image) (hit : key p = s.text) :
    Outputs i s false (out p).length (out p) := by
  refine outputs_of_body (lookup.exec_eq fitted) (lookupBody_found fitted pos short i ?_)
  rw [← hit, find?_key_of_mem (lookup.unique rom) hp, Option.map_some]

theorem IsLookup.raises_notFound (miss : ∀ p ∈ romPairs rom.image, key p ≠ s.text) : Raises i s false .notFound 0 := by
  refine raises_of_body (lookup.exec_eq fitted) (lookup.discards s) (lookupBody_notFound fitted pos short i ?_)
  rw [List.find?_eq_none.mpr (by simpa using miss), Option.map_none]

end

/-- Settles O48, as the lookup whose key is the word. -/
theorem wordToAbbrFollowsItsRule : Obligations.WordToAbbrFollowsItsRule := fun _ _ fitted =>
  ⟨isLookup_abbrW2A.raises_inLen fitted, fun pos short =>
    ⟨fun _ => isLookup_abbrW2A.outputs fitted pos short, isLookup_abbrW2A.raises_notFound fitted pos short⟩⟩

/-- Settles O49, as the lookup whose key is the abbreviation. -/
theorem abbrToWordFollowsItsRule : Obligations.AbbrToWordFollowsItsRule := fun _ _ fitted =>
  ⟨isLookup_abbrA2W.raises_inLen fitted, fun pos short =>
    ⟨fun _ => isLookup_abbrA2W.outputs fitted pos short, isLookup_abbrA2W.raises_notFound fitted pos short⟩⟩

/-! ## Without the ROM (R242) -/

/-- Settles O50: without the unit the two words are illegal, and CAPS and ABBR_N read as the fitting says. -/
theorem lookupsWithoutRomAreIllegal : Obligations.LookupsWithoutRomAreIllegal := by
  intro s
  have caps : s.look .caps = if s.fit.abbr = none then 0x00CC0020 else 0x00CC0120 := s.fit.capsWord_eq
  have count : s.look .abbrN = s.fit.abbrN := rfl
  refine ⟨fun absent => ⟨by rw [caps, if_pos absent], by rw [count, Fitting.abbrN, absent], fun k busy lookup => ?_⟩,
    fun rom fitted => ⟨by rw [caps, if_neg (by rw [fitted]; nofun)], by rw [count, Fitting.abbrN, fitted]⟩⟩
  obtain ⟨-, -, unitAbsent⟩ := illegalWordsByReason s.fit.hasAbbr k.cmd
  have noUnit : s.fit.hasAbbr = false := by rw [Fitting.hasAbbr, absent]; rfl
  exact stepCompletesIllegalWord s k _ busy (unitAbsent.mpr ⟨noUnit, lookup⟩)

/-! ## A lookup, XFER and the other lookup (R243) -/

/-- The last output is the byte string `bs`, and the block is fitted as `f` says. -/
structure HoldsBytes (f : Fitting) (bs : List Byte) (s : State) : Prop where
  outLen : s.outLen = word bs.length
  outu : s.status.outu = false
  obuf : Bytes.take bs.length 0x2000 s.mem.obuf = bs
  fit : s.fit = f

/-- The input of the next command is the byte string `bs`, and the block is fitted as `f` says. -/
structure HoldsText (f : Fitting) (bs : List Byte) (s : State) : Prop where
  text : Bytes.itext s.inLen.toNat s.mem.ibuf = bs
  fit : s.fit = f

theorem HoldsText.inLen {f : Fitting} {bs : List Byte} {s : State} (input : HoldsText f bs s) : s.inLen.toNat = bs.length := by
  rw [← input.text, Bytes.itext_length]

/-- XFER makes the last output the input (41_bitbuffer.md R140). -/
theorem xfer_text {f : Fitting} {bs : List Byte} {s : State} (output : HoldsBytes f bs s) (fits : bs.length ≤ 4096) :
    ∃ t, RunsClean .xfer s t ∧ HoldsText f bs t := by
  have outLen : s.outLen.toNat = bs.length := output.outLen ▸ word_toNat (by omega)
  have bytes : bs.length =
      if (s.accept 0 (encode .xfer)).status.outu then (s.outLen.toNat + 7) / 8 else s.outLen.toNat := by
    rw [State.accept_status, output.outu]
    exact outLen.symm
  obtain ⟨t, runs, ⟨-, -, err, -, -⟩, inLen, ibuf, ⟨-, padlen, -, -, fit⟩, -⟩ := xferFollowsItsRule _ _ bytes fits
  have moved : t.inLen.toNat = bs.length := inLen ▸ outLen
  refine ⟨t, ⟨(runCommand_eq_exec rfl).trans runs, err, padlen⟩, ?_, fit.trans output.fit⟩
  rw [moved]
  exact ibuf.trans output.obuf

/-- A lookup of a key the ROM has, as a run from acceptance to completion. -/
theorem IsLookup.run {i : Instr} {key out : Pair → List Byte} (lookup : IsLookup i key out) {f : Fitting} {rom : AbbrRom}
    (fitted : f.abbr = some rom) {p : Pair} (hp : p ∈ romPairs rom.image) {s : State} (input : HoldsText f (key p) s) :
    ∃ t, RunsClean i s t ∧ HoldsBytes f (out p) t := by
  obtain ⟨pos, short, -⟩ := (vocabWordOk_iff _).mp (lookup.keys rom p hp)
  have unit : s.fit.abbr = some rom := input.fit ▸ fitted
  have known : WellFormed s.fit.hasAbbr i = true := by
    rw [WellFormed, Fitting.hasAbbr, unit]
    exact Bool.or_true _
  have count : (s.accept 0 (encode i)).count = (key p).length := input.inLen
  obtain ⟨t, runs, ⟨-, -, err, -, -⟩, outLen, outu, obuf, ⟨-, padlen, -, -, fit⟩, -⟩ :=
    lookup.outputs (s := s.accept 0 (encode i)) unit (by omega) (by omega) hp input.text.symm
  exact ⟨t, ⟨(runCommand_eq_exec known).trans runs, err, padlen⟩, outLen, outu, obuf, fit.trans input.fit⟩

/-- Two lookups that exchange key and output, with XFER between them, give the key back. -/
theorem IsLookup.inverse {i j : Instr} {key out : Pair → List Byte} (first : IsLookup i key out) (second : IsLookup j out key)
    {s : State} {rom : AbbrRom} (fitted : s.fit.abbr = some rom) {p : Pair} (hp : p ∈ romPairs rom.image)
    (input : Bytes.itext s.inLen.toNat s.mem.ibuf = key p) :
    ∃ s1 s2 s3, RunsThree i .xfer j s s1 s2 s3 ∧ s3.status.err = false ∧ s3.outLen = word (key p).length ∧
      Bytes.take s3.outLen.toNat 0x2000 s3.mem.obuf = key p := by
  obtain ⟨-, outShort, -⟩ := (vocabWordOk_iff _).mp (second.keys rom p hp)
  obtain ⟨-, keyShort, -⟩ := (vocabWordOk_iff _).mp (first.keys rom p hp)
  obtain ⟨s1, run1, out1⟩ := first.run fitted hp ⟨input, rfl⟩
  obtain ⟨s2, run2, input2⟩ := xfer_text out1 (by omega)
  obtain ⟨s3, run3, out3⟩ := second.run fitted hp input2
  refine ⟨s1, s2, s3, ⟨run1.runs, run2.runs, run3.runs⟩, run3.err, out3.outLen, ?_⟩
  rw [out3.outLen, word_toNat (by omega), out3.obuf]

/-- Settles O51: each lookup's output is the other's key. -/
theorem lookupsAreInverse : Obligations.LookupsAreInverse := fun _ _ _ _ fitted hp =>
  ⟨isLookup_abbrW2A.inverse isLookup_abbrA2W fitted hp, isLookup_abbrA2W.inverse isLookup_abbrW2A fitted hp⟩

end Sys2Proof.Machine
end

section
/-! PROOFS. The two orders of the generator (spec 44_abbreviation_lookup.md R217, R227) as orders of keys, and what the insertion sort
makes of a list. -/

namespace Sys2Proof.Machine

/-! ## Bytewise order (R217) -/

/-- A string as the numbers of its bytes: bytewise order is the lexicographic order of these. -/
def strKey (w : List Byte) : List Nat := w.map BitVec.toNat

theorem strKey_injective : Function.Injective strKey := List.map_injective_iff.mpr BitVec.toNat_injective

theorem strBefore_iff (x y : List Byte) : strBefore x y = true ↔ strKey x < strKey y := by
  induction x generalizing y with
  | nil => cases y <;> simp [strBefore, strKey]
  | cons a x ih =>
    cases y with
    | nil => simp [strBefore, strKey]
    | cons b y =>
      have tails : strBefore x y = true ↔ x.map BitVec.toNat < y.map BitVec.toNat := ih y
      simp [strBefore, strKey, List.cons_lt_cons_iff, tails]

theorem strictlyAscending_of_pairwise {l : List (List Byte)} (sorted : l.Pairwise fun x y => strKey x < strKey y) :
    strictlyAscending l = true := by
  induction l with
  | nil => rfl
  | cons x l ih =>
    obtain ⟨first, rest⟩ := List.pairwise_cons.mp sorted
    cases l with
    | nil => rfl
    | cons y l =>
      rw [strictlyAscending, ih rest, (strBefore_iff x y).mpr (first y List.mem_cons_self)]
      rfl

/-! ## Processing order (R227) -/

/-- A word by its length, then by its bytes. -/
def processKey (w : List Byte) : Nat ×ₗ List Nat := toLex (w.length, strKey w)

theorem processKey_injective : Function.Injective processKey :=
  fun _ _ same => strKey_injective (congrArg (fun k => (ofLex k).2) same)

theorem processBefore_iff (x y : List Byte) : processBefore x y = true ↔ processKey x < processKey y := by
  simp [processBefore, processKey, Prod.Lex.toLex_lt_toLex, strBefore_iff]

theorem length_le_of_processKey {x y : List Byte} (h : processKey x < processKey y) : x.length ≤ y.length := by
  rcases Prod.Lex.toLex_lt_toLex.mp h with shorter | ⟨same, -⟩
  · exact shorter.le
  · exact same.le

/-! ## The sort -/

section
variable {α : Type} (lt : α → α → Bool)

theorem insertBy_perm (x : α) (ys : List α) : (insertBy lt x ys).Perm (x :: ys) := by
  induction ys with
  | nil => exact .refl _
  | cons y ys ih =>
    rw [insertBy]
    split_ifs
    · exact .refl _
    · exact (ih.cons y).trans (.swap x y ys)

theorem sortBy_perm (xs : List α) : (sortBy lt xs).Perm xs := by
  induction xs with
  | nil => exact .refl _
  | cons x xs ih => exact (insertBy_perm lt x _).trans (ih.cons x)

variable {lt} {κ : Type} [LinearOrder κ] {key : α → κ} (lt_iff : ∀ x y, lt x y = true ↔ key x < key y)
include lt_iff

theorem insertBy_sorted {x : α} {ys : List α} (sorted : ys.Pairwise fun y z => key y < key z) (fresh : ∀ y ∈ ys, key y ≠ key x) :
    (insertBy lt x ys).Pairwise fun y z => key y < key z := by
  induction ys with
  | nil => exact List.pairwise_singleton _ _
  | cons y ys ih =>
    obtain ⟨first, rest⟩ := List.pairwise_cons.mp sorted
    rw [insertBy]
    split_ifs with before
    · have ahead := (lt_iff x y).mp before
      refine List.pairwise_cons.mpr ⟨fun z hz => ?_, sorted⟩
      rcases List.mem_cons.mp hz with rfl | hz
      · exact ahead
      · exact ahead.trans (first z hz)
    · have behind : key y < key x :=
        lt_of_le_of_ne (not_lt.mp (mt (lt_iff x y).mpr before)) (fresh y List.mem_cons_self)
      refine List.pairwise_cons.mpr ⟨fun z hz => ?_, ih rest fun z hz => fresh z (List.mem_cons_of_mem y hz)⟩
      rcases List.mem_cons.mp ((insertBy_perm lt x ys).mem_iff.mp hz) with rfl | hz
      · exact behind
      · exact first z hz

/-- The sort puts entries of different keys in ascending order of the key. -/
theorem sortBy_sorted {xs : List α} (nodup : (xs.map key).Nodup) : (sortBy lt xs).Pairwise fun y z => key y < key z := by
  induction xs with
  | nil => exact List.Pairwise.nil
  | cons x xs ih =>
    obtain ⟨new, rest⟩ := List.nodup_cons.mp nodup
    refine insertBy_sorted lt_iff (ih rest) fun y hy same => new ?_
    exact List.mem_map.mpr ⟨y, (sortBy_perm lt xs).mem_iff.mp hy, same⟩

end

end Sys2Proof.Machine
end

section
/-! PROOFS. The ROM image as bytes (spec 44_abbreviation_lookup.md R211, R213): each field of an image just made reads back. -/

namespace Sys2Proof.Machine

/-! ## Fields (R210) -/

theorem leNat_leBytes {k n : Nat} (fits : n < 256 ^ k) : leNat (leBytes k n) = n := by
  induction k generalizing n with
  | zero => rw [pow_zero] at fits; rw [leBytes, leNat]; omega
  | succ k ih =>
    have rest : n / 256 < 256 ^ k := by rw [pow_succ] at fits; omega
    rw [leBytes, leNat, ih rest, BitVec.toNat_ofNat]
    omega

theorem leBytes_length (k n : Nat) : (leBytes k n).length = k := by
  induction k generalizing n with
  | zero => rfl
  | succ k ih => rw [leBytes, List.length_cons, ih]

theorem u32sFrom_leBytes {ks : List Nat} (fits : ∀ k ∈ ks, k < 256 ^ 4) : u32sFrom ks.length (ks.flatMap (leBytes 4)) = ks := by
  induction ks with
  | nil => rfl
  | cons k ks ih =>
    obtain ⟨first, rest⟩ := List.forall_mem_cons.mp fits
    have size := leBytes_length 4 k
    rw [List.flatMap_cons, List.length_cons, u32sFrom, List.take_left' size, List.drop_left' size, leNat_leBytes first, ih rest]

/-! ## Halves and records (R213) -/

section
variable {w : List Byte} (ok : vocabWordOk w = true)
include ok

theorem halfBytes_length : (halfBytes w).length = 64 := by
  obtain ⟨-, short, -⟩ := (vocabWordOk_iff w).mp ok
  simp only [halfBytes, List.length_cons, List.length_append, List.length_replicate, Config.abbrMaxW]
  omega

theorem byteOr0_halfBytes : (byteOr0 (halfBytes w) 0).toNat = w.length := by
  obtain ⟨-, short, -⟩ := (vocabWordOk_iff w).mp ok
  rw [halfBytes, byteOr0, List.getD_cons_zero, BitVec.toNat_ofNat]
  omega

theorem halfString_halfBytes : halfString (halfBytes w) = w := by
  rw [halfString, byteOr0_halfBytes ok, slice, halfBytes, List.drop_succ_cons, List.drop_zero, List.take_left' rfl]

theorem halfOk_halfBytes : halfOk (halfBytes w) = true := by
  obtain ⟨pos, short, letters⟩ := (vocabWordOk_iff w).mp ok
  have string := halfString_halfBytes ok
  rw [halfString] at string
  rw [halfOk_iff, string, byteOr0_halfBytes ok]
  refine ⟨pos, short, letters, fun b hb => ?_⟩
  rw [Nat.add_comm, halfBytes, List.drop_succ_cons, List.drop_left' rfl] at hb
  rw [List.eq_of_mem_replicate hb]
  rfl

end

/-- The record of a pair. -/
def recordBytes (p : Pair) : List Byte := halfBytes p.abbr ++ halfBytes p.wrd

/-- A pair that a record can hold (R215). -/
def PairFits (p : Pair) : Prop := vocabWordOk p.abbr = true ∧ vocabWordOk p.wrd = true

section
variable {p : Pair} (fits : PairFits p)
include fits

theorem recordBytes_length : (recordBytes p).length = 128 := by
  rw [recordBytes, List.length_append, halfBytes_length fits.1, halfBytes_length fits.2]

theorem recordBytes_halves : slice (recordBytes p) 0 64 = halfBytes p.abbr ∧ slice (recordBytes p) 64 64 = halfBytes p.wrd :=
  ⟨List.take_left' (halfBytes_length fits.1), by
    rw [slice, recordBytes, List.drop_left' (halfBytes_length fits.1), List.take_of_length_le (halfBytes_length fits.2).le]⟩

theorem halfOk_recordBytes : halfOk (slice (recordBytes p) 0 64) = true ∧ halfOk (slice (recordBytes p) 64 64) = true := by
  obtain ⟨abbr, wrd⟩ := recordBytes_halves fits
  rw [abbr, wrd]
  exact ⟨halfOk_halfBytes fits.1, halfOk_halfBytes fits.2⟩

theorem recordPair_recordBytes : recordPair (recordBytes p) = p := by
  obtain ⟨abbr, wrd⟩ := recordBytes_halves fits
  obtain ⟨abbrOk, wrdOk⟩ := halfOk_recordBytes fits
  rw [recordPair_eq abbrOk wrdOk, abbr, wrd, halfString_halfBytes fits.1, halfString_halfBytes fits.2]

end

theorem recordsFrom_recordBytes {ps : List Pair} (fits : ∀ p ∈ ps, PairFits p) (rest : List Byte) :
    recordsFrom ps.length (ps.flatMap recordBytes ++ rest) = ps.map recordBytes := by
  induction ps with
  | nil => rfl
  | cons p ps ih =>
    obtain ⟨first, others⟩ := List.forall_mem_cons.mp fits
    have size := recordBytes_length first
    rw [List.flatMap_cons, List.append_assoc, List.length_cons, recordsFrom, List.take_left' size, List.drop_left' size,
      ih others, List.map_cons]

theorem flatMap_length_const {α : Type} {f : α → List Byte} {k : Nat} {l : List α} (size : ∀ a ∈ l, (f a).length = k) :
    (l.flatMap f).length = k * l.length := by
  rw [List.length_flatMap, List.map_congr_left size, List.map_const', List.sum_replicate, smul_eq_mul, Nat.mul_comm]

/-! ## The image (R211) -/

section
variable (cutoff : Nat) (ps : List Pair) (aidx : List Nat)

theorem imageOf_fields : slice (imageOf cutoff ps aidx) 0 4 = leBytes 4 0x52424241 ∧
    slice (imageOf cutoff ps aidx) 4 4 = leBytes 4 ps.length ∧ slice (imageOf cutoff ps aidx) 8 4 = leBytes 4 cutoff ∧
    slice (imageOf cutoff ps aidx) 12 4 = leBytes 4 0 ∧
    (imageOf cutoff ps aidx).drop 16 = ps.flatMap recordBytes ++ aidx.flatMap (leBytes 4) := ⟨rfl, rfl, rfl, rfl, rfl⟩

theorem romCutoff_imageOf {cutoff : Nat} (small : cutoff < 2 ^ 32) : romCutoff (imageOf cutoff ps aidx) = cutoff := by
  obtain ⟨-, -, field, -⟩ := imageOf_fields cutoff ps aidx
  rw [romCutoff, field, leNat_leBytes small]

theorem imageOf_length {ps : List Pair} {aidx : List Nat} (fits : ∀ p ∈ ps, PairFits p) (whole : aidx.length = ps.length) :
    (imageOf cutoff ps aidx).length = 16 + 132 * ps.length := by
  obtain ⟨-, -, -, -, rest⟩ := imageOf_fields cutoff ps aidx
  have header : (imageOf cutoff ps aidx).length = ((imageOf cutoff ps aidx).drop 16).length + 16 := rfl
  rw [header, rest, List.length_append, flatMap_length_const fun p hp => recordBytes_length (fits p hp),
    flatMap_length_const fun k _ => leBytes_length 4 k, whole]
  omega

variable {ps} (few : ps.length ≤ 2 ^ 20)
include few

theorem romCount_imageOf : romCount (imageOf cutoff ps aidx) = ps.length := by
  obtain ⟨-, field, -⟩ := imageOf_fields cutoff ps aidx
  rw [romCount, field, leNat_leBytes (by omega)]

variable (fits : ∀ p ∈ ps, PairFits p)
include fits

theorem romRecords_imageOf : romRecords (imageOf cutoff ps aidx) = ps.map recordBytes := by
  obtain ⟨-, -, -, -, rest⟩ := imageOf_fields cutoff ps aidx
  rw [romRecords, romCount_imageOf cutoff aidx few, rest, recordsFrom_recordBytes fits]

theorem romPairs_imageOf : romPairs (imageOf cutoff ps aidx) = ps := by
  rw [romPairs, romRecords_imageOf cutoff aidx few fits, List.map_map]
  exact (List.map_congr_left fun p hp => recordPair_recordBytes (fits p hp)).trans (List.map_id ps)

theorem recordsOk_imageOf : recordsOk (imageOf cutoff ps aidx) = true := by
  rw [recordsOk_iff, romRecords_imageOf cutoff aidx few fits, List.forall_mem_map]
  exact fun p hp => halfOk_recordBytes (fits p hp)

variable {aidx} (whole : aidx.length = ps.length)
include whole

theorem framingOk_imageOf (pos : 1 ≤ ps.length) : framingOk (imageOf cutoff ps aidx) = true := by
  obtain ⟨magic, -, -, reserved, -⟩ := imageOf_fields cutoff ps aidx
  rw [framingOk_iff, romCount_imageOf cutoff aidx few, magic, reserved, leNat_leBytes (by omega), leNat_leBytes (by omega)]
  exact ⟨rfl, pos, few, rfl, imageOf_length cutoff fits whole⟩

theorem romAidx_imageOf (inside : ∀ k ∈ aidx, k < ps.length) : romAidx (imageOf cutoff ps aidx) = aidx := by
  obtain ⟨-, -, -, -, rest⟩ := imageOf_fields cutoff ps aidx
  rw [romAidx, romCount_imageOf cutoff aidx few, ← List.drop_drop, rest,
    List.drop_left' (flatMap_length_const fun p hp => recordBytes_length (fits p hp)), ← whole,
    u32sFrom_leBytes fun k hk => (inside k hk).trans_le (by omega)]

end

end Sys2Proof.Machine
end

section
/-! PROOFS. The image the generator emits for a table of pairs (spec 44_abbreviation_lookup.md R214-R217, R235): it keeps every premise of
a ROM, and the image made from its listing is the same. -/

namespace Sys2Proof.Machine

/-- A table of pairs that an image can hold (R214-R216). -/
structure Emittable (ps : List Pair) : Prop where
  pos : 1 ≤ ps.length
  few : ps.length ≤ 2 ^ 20
  fits : ∀ p ∈ ps, PairFits p
  words : (ps.map Pair.wrd).Nodup
  abbrs : (ps.map Pair.abbr).Nodup

theorem Emittable.perm {ps qs : List Pair} (h : Emittable ps) (perm : qs.Perm ps) : Emittable qs where
  pos := perm.length_eq ▸ h.pos
  few := perm.length_eq ▸ h.few
  fits p hp := h.fits p (perm.mem_iff.mp hp)
  words := (perm.map Pair.wrd).nodup_iff.mpr h.words
  abbrs := (perm.map Pair.abbr).nodup_iff.mpr h.abbrs

/-! ## The record numbers in order of abbreviation (R217) -/

theorem aidxOf_perm (ps : List Pair) : (aidxOf ps).Perm (List.range ps.length) := by
  rw [List.range_eq_range', ← List.zipIdx_map_snd 0 ps]
  exact (sortBy_perm _ ps.zipIdx).map Prod.snd

theorem aidxOf_length (ps : List Pair) : (aidxOf ps).length = ps.length :=
  (aidxOf_perm ps).length_eq.trans List.length_range

theorem aidxOf_nodup (ps : List Pair) : (aidxOf ps).Nodup := (aidxOf_perm ps).nodup_iff.mpr List.nodup_range

theorem aidxOf_lt (ps : List Pair) : ∀ k ∈ aidxOf ps, k < ps.length := fun _ hk =>
  List.mem_range.mp ((aidxOf_perm ps).mem_iff.mp hk)

/-- The abbreviations that AIDX picks out ascend. -/
theorem aidxOf_ascending {ps : List Pair} (abbrs : (ps.map Pair.abbr).Nodup) :
    strictlyAscending ((aidxOf ps).map fun k => ((ps[k]?).map Pair.abbr).getD []) = true := by
  set numbered := sortBy (fun x y : Pair × Nat => strBefore x.1.abbr y.1.abbr) ps.zipIdx
  have picked : (aidxOf ps).map (fun k => ((ps[k]?).map Pair.abbr).getD []) = numbered.map fun x => x.1.abbr := by
    rw [aidxOf, List.map_map]
    refine List.map_congr_left fun x hx => ?_
    have entry : ps[x.2]? = some x.1 := List.mem_zipIdx_iff_getElem?.mp ((sortBy_perm _ _).mem_iff.mp hx)
    rw [Function.comp_apply, entry, Option.map_some, Option.getD_some]
  have differ : (ps.zipIdx.map fun x => strKey x.1.abbr).Nodup := by
    have keys : ps.zipIdx.map (fun x => strKey x.1.abbr) = (ps.map Pair.abbr).map strKey := by
      conv_rhs => rw [← List.zipIdx_map_fst 0 ps]
      simp only [List.map_map, Function.comp_def]
    rw [keys]
    exact abbrs.map strKey_injective
  rw [picked]
  exact strictlyAscending_of_pairwise
    (List.pairwise_map.mpr (sortBy_sorted (fun x y => strBefore_iff x.1.abbr y.1.abbr) differ))

/-! ## The emitted image (R235) -/

/-- The pairs in the order of their words, as the records stand. -/
def inWordOrder (ps : List Pair) : List Pair := sortBy (fun x y => strBefore x.wrd y.wrd) ps

theorem inWordOrder_perm (ps : List Pair) : (inWordOrder ps).Perm ps := sortBy_perm _ ps

theorem inWordOrder_sorted {ps : List Pair} (words : (ps.map Pair.wrd).Nodup) :
    (inWordOrder ps).Pairwise fun x y => strKey x.wrd < strKey y.wrd := by
  refine sortBy_sorted (fun x y => strBefore_iff x.wrd y.wrd) ?_
  have keys := words.map strKey_injective
  rwa [List.map_map] at keys

theorem inWordOrder_idem {ps : List Pair} (words : (ps.map Pair.wrd).Nodup) : inWordOrder (inWordOrder ps) = inWordOrder ps :=
  sortBy_of_sorted _ _ ((inWordOrder_sorted words).imp (strBefore_iff _ _).mpr)

theorem emitImage_eq (cutoff : Nat) (ps : List Pair) :
    emitImage cutoff ps = imageOf cutoff (inWordOrder ps) (aidxOf (inWordOrder ps)) := rfl

section
variable (cutoff : Nat) {ps : List Pair} (h : Emittable ps)
include h

theorem romPairs_emitImage : romPairs (emitImage cutoff ps) = inWordOrder ps := by
  have sorted := h.perm (inWordOrder_perm ps)
  exact romPairs_imageOf cutoff _ sorted.few sorted.fits

theorem orderOk_emitImage : orderOk (emitImage cutoff ps) = true := by
  have sorted := h.perm (inWordOrder_perm ps)
  have words : strictlyAscending ((inWordOrder ps).map Pair.wrd) = true :=
    strictlyAscending_of_pairwise (List.pairwise_map.mpr (inWordOrder_sorted h.words))
  rw [orderOk, romPairs_emitImage cutoff h, emitImage_eq,
    romAidx_imageOf cutoff sorted.few sorted.fits (aidxOf_length _) (aidxOf_lt _), romCount_imageOf cutoff _ sorted.few, words,
    aidxOf_ascending sorted.abbrs]
  simpa [aidxOf_nodup] using aidxOf_lt _

/-- The image of a table that an image can hold keeps R214-R217. -/
theorem romOk_emitImage : romOk (emitImage cutoff ps) = true := by
  have sorted := h.perm (inWordOrder_perm ps)
  refine (romOk_iff _).mpr ⟨framingOk_imageOf cutoff sorted.few sorted.fits (aidxOf_length _) sorted.pos,
    recordsOk_imageOf cutoff _ sorted.few sorted.fits, (bijectionOk_iff _).mpr ?_, orderOk_emitImage cutoff h⟩
  rw [romPairs_emitImage cutoff h]
  exact ⟨sorted.words, sorted.abbrs⟩

/-- The listing of an emitted image gives the image back, with the cutoff it does not carry (R235). -/
theorem imageOfListing_romListing {cutoff : Nat} (small : cutoff < 2 ^ 32) :
    imageOfListing (word cutoff) (romListing (emitImage cutoff ps)) = .ok (emitImage cutoff ps) := by
  have sorted := h.perm (inWordOrder_perm ps)
  have letters : ∀ {w : List Byte}, vocabWordOk w = true → w.all isLetter = true := fun ok =>
    List.all_eq_true.mpr ((vocabWordOk_iff _).mp ok).2.2
  have read : readListing (romListing (emitImage cutoff ps)) = some (inWordOrder ps) := by
    rw [romListing, romPairs_emitImage cutoff h]
    exact readListing_listing _ fun p hp => (sorted.fits p hp).imp letters letters
  have field : u32 (word cutoff) = cutoff := (BitVec.toNat_ofNat ..).trans (Nat.mod_eq_of_lt small)
  have again : emitImage cutoff (inWordOrder ps) = emitImage cutoff ps := by
    rw [emitImage_eq, inWordOrder_idem h.words, emitImage_eq]
  rw [imageOfListing, read, field]
  exact (if_pos (romOk_emitImage cutoff sorted)).trans (congrArg Except.ok again)

end

end Sys2Proof.Machine
end

section
/-! PROOFS. The offline generator (spec 44_abbreviation_lookup.md R225-R236): what a candidate keeps of its word, the invariant of the
assignment (R234), and the two statements about generated images. -/

namespace Sys2Proof.Machine

/-! ## Candidates (R229, R230) -/

/-- A string is a word with some interior letters deleted, or the word itself: at least its two ends stand. -/
structure KeepsEnds (c w : List Byte) : Prop where
  two : 2 ≤ c.length
  sublist : c.Sublist w
  head : c.head? = w.head?
  last : c.getLast? = w.getLast?

theorem KeepsEnds.trans {c d w : List Byte} (h : KeepsEnds c d) (h' : KeepsEnds d w) : KeepsEnds c w :=
  ⟨h.two, h.sublist.trans h'.sublist, h.head.trans h'.head, h.last.trans h'.last⟩

/-- Deleting an interior letter keeps both ends. -/
theorem keepsEnds_eraseIdx {w : List Byte} {j : Nat} (lo : 1 ≤ j) (hi : j + 2 ≤ w.length) : KeepsEnds (w.eraseIdx j) w := by
  have size : (w.eraseIdx j).length = w.length - 1 := List.length_eraseIdx_of_lt (by omega)
  refine ⟨by omega, List.eraseIdx_sublist w j, ?_, ?_⟩
  · rw [List.head?_eq_getElem?, List.head?_eq_getElem?, List.getElem?_eraseIdx, if_pos (by omega)]
  · have place : w.length - 1 - 1 + 1 = w.length - 1 := by omega
    rw [List.getLast?_eq_getElem?, List.getLast?_eq_getElem?, size, List.getElem?_eraseIdx, if_neg (by omega), place]

section
variable (q : List Byte) (rand : Nat → List Byte → Nat)

/-- Both choices of R230 are interior positions. -/
theorem deletion_interior (calls : Nat) {cand : List Byte} (long : 2 < cand.length) :
    1 ≤ (deletion q rand calls cand).1 ∧ (deletion q rand calls cand).1 + 2 ≤ cand.length := by
  rw [deletion]
  split
  · next j preferred =>
    obtain ⟨k, hk, rfl⟩ := List.mem_map.mp (List.mem_of_find?_eq_some preferred)
    have := List.mem_range.mp hk
    exact ⟨Nat.le_add_left 1 k, by show k + 1 + 2 ≤ cand.length; omega⟩
  · have := Nat.mod_lt (rand calls cand) (Nat.sub_pos_of_lt long)
    exact ⟨Nat.le_add_right 1 _, by show 1 + _ + 2 ≤ cand.length; omega⟩

/-- R229's loop ends in a shorter candidate that no word has yet. -/
theorem shorten_some (a : Assigner) {fuel calls calls' : Nat} {cand c : List Byte}
    (found : shorten q rand a fuel calls cand = (some c, calls')) :
    KeepsEnds c cand ∧ c.length < cand.length ∧ a.taken c = false := by
  induction fuel generalizing calls cand with
  | zero => exact nomatch found
  | succ fuel ih =>
    simp only [shorten] at found
    split_ifs at found with short taken
    · exact nomatch found
    all_goals
      have long : 2 < cand.length := Nat.lt_of_not_le fun le => short (Nat.ble_eq.mpr le)
      obtain ⟨lo, hi⟩ := deletion_interior q rand calls long
      have ends := keepsEnds_eraseIdx lo hi
      have size : (cand.eraseIdx (deletion q rand calls cand).1).length = cand.length - 1 :=
        List.length_eraseIdx_of_lt (by omega)
    · obtain ⟨keeps, shorter, free⟩ := ih found
      exact ⟨keeps.trans ends, by omega, free⟩
    · obtain ⟨⟩ := found
      exact ⟨ends, by omega, Bool.eq_false_iff.mpr taken⟩

end

theorem Assigner.taken_eq_false_iff (a : Assigner) (c : List Byte) : a.taken c = false ↔ c ∉ a.pairs.map Pair.abbr := by
  rw [← Bool.not_eq_true, not_iff_not, Assigner.taken, List.any_eq_true, List.mem_map]
  simp only [decide_eq_true_eq]

/-! ## The invariant of the assignment (R234) -/

/-- R218 of one pair: an anchor is its own abbreviation, and a longer word's keeps the word's ends. -/
def PairRule (cutoff : Nat) (p : Pair) : Prop :=
  (p.wrd.length ≤ cutoff → p.abbr = p.wrd) ∧
    (cutoff < p.wrd.length → KeepsEnds p.abbr p.wrd ∧ p.abbr.length < p.wrd.length)

theorem PairRule.sublist {cutoff : Nat} {p : Pair} (rule : PairRule cutoff p) : p.abbr.Sublist p.wrd := by
  rcases Nat.lt_or_ge cutoff p.wrd.length with long | short
  · exact (rule.2 long).1.sublist
  · exact rule.1 short ▸ List.Sublist.refl _

/-- No abbreviation is empty. -/
theorem PairRule.abbr_pos {cutoff : Nat} {p : Pair} (rule : PairRule cutoff p) (pos : 1 ≤ p.wrd.length) : 1 ≤ p.abbr.length := by
  rcases Nat.lt_or_ge cutoff p.wrd.length with long | short
  · exact Nat.le_of_succ_le (rule.2 long).1.two
  · exact rule.1 short ▸ pos

/-- An abbreviation has letters of its word, so a record that can hold the word can hold the abbreviation. -/
theorem PairRule.fits {cutoff : Nat} {p : Pair} (rule : PairRule cutoff p) (ok : vocabWordOk p.wrd = true) : PairFits p := by
  obtain ⟨pos, short, letters⟩ := (vocabWordOk_iff _).mp ok
  exact ⟨(vocabWordOk_iff _).mpr ⟨rule.abbr_pos pos, rule.sublist.length_le.trans short,
    fun b hb => letters b (rule.sublist.subset hb)⟩, ok⟩

/-- The generator's state after the words `ws`: each is registered or exhausted, every pair keeps R218, and no key stands twice. -/
structure Assigned (cutoff : Nat) (ws : List (List Byte)) (a : Assigner) : Prop where
  words : (a.pairs.map Pair.wrd ++ a.exhausted).Perm ws
  rule : ∀ p ∈ a.pairs, PairRule cutoff p
  abbrs : (a.pairs.map Pair.abbr).Nodup

section
variable {cutoff : Nat} {ws : List (List Byte)} {a : Assigner} (h : Assigned cutoff ws a)
include h

theorem Assigned.wrd_mem {p : Pair} (hp : p ∈ a.pairs) : p.wrd ∈ ws :=
  h.words.mem_iff.mp (List.mem_append_left _ (List.mem_map_of_mem hp))

/-- Registration of a free key (R232). -/
theorem Assigned.register {p : Pair} (rule : PairRule cutoff p) (free : a.taken p.abbr = false) (calls : Nat) :
    Assigned cutoff (ws ++ [p.wrd]) { a with pairs := a.pairs ++ [p], calls := calls } where
  words := by
    rw [List.map_append, List.append_assoc]
    exact ((List.perm_append_comm.append_left _).trans (.of_eq (List.append_assoc ..).symm)).trans (h.words.append_right _)
  rule := List.forall_mem_append.mpr ⟨h.rule, List.forall_mem_singleton.mpr rule⟩
  abbrs := by
    rw [List.map_append]
    exact (List.perm_append_singleton p.abbr _).nodup_iff.mpr
      (List.nodup_cons.mpr ⟨(a.taken_eq_false_iff p.abbr).mp free, h.abbrs⟩)

/-- An exhausted word registers nothing (R233). -/
theorem Assigned.exhaust (w : List Byte) (calls : Nat) :
    Assigned cutoff (ws ++ [w]) { a with exhausted := a.exhausted ++ [w], calls := calls } where
  words := (.of_eq (List.append_assoc ..).symm : List.Perm _ _).trans (h.words.append_right _)
  rule := h.rule
  abbrs := h.abbrs

/-- An anchor never collides (R228): every word before it is no longer, so its key is itself, and it is another word. -/
theorem Assigned.anchor_free {w : List Byte} (new : w ∉ ws) (longest : ∀ u ∈ ws, u.length ≤ w.length) (short : w.length ≤ cutoff) :
    a.taken w = false := by
  refine (a.taken_eq_false_iff w).mpr fun used => ?_
  obtain ⟨p, hp, same⟩ := List.mem_map.mp used
  have anchor := (h.rule p hp).1 ((longest _ (h.wrd_mem hp)).trans short)
  exact new (same ▸ anchor ▸ h.wrd_mem hp)

/-- One word in the processing order keeps the invariant. -/
theorem Assigned.assignWord (q : List Byte) (rand : Nat → List Byte → Nat) {w : List Byte} (new : w ∉ ws)
    (longest : ∀ u ∈ ws, u.length ≤ w.length) : Assigned cutoff (ws ++ [w]) (assignWord cutoff q rand a w) := by
  rw [Machine.assignWord]
  split_ifs with anchor
  · have short : w.length ≤ cutoff := Nat.ble_eq.mp anchor
    exact h.register (p := ⟨w, w⟩) ⟨fun _ => rfl, fun long => absurd short long.not_ge⟩ (h.anchor_free new longest short) a.calls
  · have long : cutoff < w.length := Nat.lt_of_not_le fun le => anchor (Nat.ble_eq.mpr le)
    split
    · next c calls found =>
      obtain ⟨ends, shorter, free⟩ := shorten_some q rand a found
      exact h.register (p := ⟨c, w⟩) ⟨fun short => absurd short long.not_ge, fun _ => ⟨ends, shorter⟩⟩ free calls
    · next calls _ => exact h.exhaust w calls

end

/-- The run over words in the processing order, without duplicates. -/
theorem assigned_foldl (cutoff : Nat) (q : List Byte) (rand : Nat → List Byte → Nat) {ws : List (List Byte)}
    (sorted : ws.Pairwise fun x y => processKey x < processKey y) :
    Assigned cutoff ws (ws.foldl (assignWord cutoff q rand) ⟨[], [], 0⟩) := by
  induction ws using List.reverseRecOn with
  | nil => exact ⟨.refl _, List.forall_mem_nil _, List.nodup_nil⟩
  | append_singleton ws w ih =>
    obtain ⟨before, -, last⟩ := List.pairwise_append.mp sorted
    have below : ∀ u ∈ ws, processKey u < processKey w := fun u hu => last u hu w (List.mem_singleton_self w)
    rw [List.foldl_append]
    exact (ih before).assignWord q rand (fun hw => (below w hw).false) fun u hu => length_le_of_processKey (below u hu)

/-- The whole run over a vocabulary without duplicates. -/
theorem assigned_assignAll (cutoff : Nat) (q : List Byte) (rand : Nat → List Byte → Nat) {ws : List (List Byte)} (nodup : ws.Nodup) :
    Assigned cutoff ws (assignAll cutoff q rand ws) := by
  have run := assigned_foldl cutoff q rand (sortBy_sorted processBefore_iff (nodup.map processKey_injective))
  exact ⟨run.words.trans (sortBy_perm _ ws), run.rule, run.abbrs⟩

/-! ## What the generator emits (R235) -/

/-- An image comes of pairs over the whole vocabulary: every refusal is passed, and no word is exhausted. -/
theorem generate_ok {v : List (List Byte)} {cutoff : Nat} {q : List Byte} {rand : Nat → List Byte → Nat} {img : List Byte}
    (made : generate v cutoff q rand = .ok img) : ∃ ps, img = emitImage cutoff ps ∧ cutoff < 2 ^ 32 ∧ Emittable ps ∧
      (∀ p ∈ ps, PairRule cutoff p) ∧ (ps.map Pair.wrd).Perm v.dedup := by
  simp only [generate] at made
  split at made
  · exact nomatch made
  next nonempty =>
  split at made
  · exact nomatch made
  next allOk =>
  split_ifs at made with few small done
  have run := assigned_assignAll cutoff q rand v.nodup_dedup
  have words := run.words
  rw [List.isEmpty_iff.mp done, List.append_nil] at words
  have size : (assignAll cutoff q rand v.dedup).pairs.length = v.dedup.length := by rw [← words.length_eq, List.length_map]
  have ok : ∀ p ∈ (assignAll cutoff q rand v.dedup).pairs, vocabWordOk p.wrd = true := fun p hp => by
    simpa using List.find?_eq_none.mp allOk p.wrd (run.wrd_mem hp)
  refine ⟨_, (Except.ok.inj made).symm, Nat.blt_eq.mp small, ⟨?_, ?_, fun p hp => (run.rule p hp).fits (ok p hp), ?_, run.abbrs⟩,
    run.rule, words⟩
  · rw [size]
    exact List.length_pos_iff.mpr fun nil => nonempty (List.isEmpty_iff.mpr nil)
  · rw [size]
    exact Nat.ble_eq.mp few
  · exact words.nodup_iff.mpr v.nodup_dedup

/-- Settles O52: the table of the assignment is one that an image can hold, and the image reads back as it. -/
theorem generatedImagesAreWellFormed : Obligations.GeneratedImagesAreWellFormed := by
  intro v cutoff q rand img made
  obtain ⟨ps, rfl, small, table, -, words⟩ := generate_ok made
  refine ⟨romOk_emitImage cutoff table, romCutoff_imageOf _ _ small, fun w => ?_, imageOfListing_romListing table small⟩
  have vocabulary := ((inWordOrder_perm ps).map Pair.wrd).trans words
  rw [romPairs_emitImage cutoff table, ← List.mem_dedup, ← vocabulary.mem_iff, List.mem_map]

/-- Settles O53: R218 is part of the assignment's invariant, and the image's pairs are the assigned ones. -/
theorem generatedPairsKeepTheirEnds : Obligations.GeneratedPairsKeepTheirEnds := by
  intro v cutoff q rand img made p hp
  obtain ⟨ps, rfl, -, table, rule, -⟩ := generate_ok made
  rw [romPairs_emitImage cutoff table, (inWordOrder_perm ps).mem_iff] at hp
  obtain ⟨anchor, shortened⟩ := rule p hp
  refine ⟨anchor, fun long => ?_⟩
  obtain ⟨⟨two, sublist, head, last⟩, shorter⟩ := shortened long
  exact ⟨two, shorter, sublist, head, last⟩

end Sys2Proof.Machine
end

section
/-! PROOFS. The IRQ output through a command's life: what a completion of any kind makes of it, and the statement (spec
60_exceptions.md R256, R258). -/

namespace Sys2Proof.Machine

theorem State.irq_of_not_done {s : State} (clear : s.status.done = false) : s.irq = false := by
  rw [State.irq, clear, Bool.and_false]

/-- Resets clear IE itself. -/
theorem State.irq_of_not_enabled {s : State} (disabled : s.ie = false) : s.irq = false := by
  rw [State.irq, disabled, Bool.false_and]

theorem irq_of_completed {s t : State} (done : t.status.done = true) (kept : Unwritten s t) : t.irq = s.ie := by
  obtain ⟨ie, -⟩ := kept
  rw [State.irq, done, Bool.and_true, ie]

theorem exec_irq {i : Instr} {s t : State} (ends : exec i s = .next t) : t.irq = s.ie := by
  obtain ⟨-, done, kept, -⟩ := commandsWriteOnlyTheirTargets i s t ends
  exact irq_of_completed done kept

/-- An illegal word's completion is a raise, which sets DONE as every completion does (R115). -/
theorem completion_irq {w : Word} {s t : State} (ends : completion w s = .next t) : t.irq = s.ie := by
  cases decoded : decodeWord s.fit.hasAbbr w with
  | ok i => exact exec_irq ((completion_command decoded).symm.trans ends)
  | error e =>
    obtain ⟨⟩ := (completion_illegal decoded).symm.trans ends
    exact irq_of_completed rfl (.refl s)

/-- The write of a set bit 1 to STATUS clears DONE (10_state.md R24). -/
theorem State.clearFlags_irq (s : State) {v : Word} (bit1 : v.getLsbD 1 = true) : (s.clearFlags v).irq = false := by
  apply State.irq_of_not_done
  rw [State.clearFlags_status, bit1, Bool.not_true, Bool.and_false]

/-- Settles O19: acceptance and the STATUS write clear DONE, a reset clears IE, and a completion sets DONE and keeps IE. -/
theorem irqIsEnabledDone : Obligations.IrqIsEnabledDone := by
  intro s
  refine ⟨rfl, fun w n => State.irq_of_not_done rfl, fun i t ends => exec_irq ends, fun k t busy steps => ?completion,
    State.irq_of_not_enabled rfl, State.irq_of_not_enabled rfl, fun v bit1 => ?statusWrite⟩
  case completion => exact completion_irq ((step_busy_zero busy).symm.trans steps)
  case statusWrite =>
    have write : s.hostWrite 0x0010 v = s.clearFlags v := rfl
    rw [write]
    exact s.clearFlags_irq bit1

end Sys2Proof.Machine
end

section
/-! PROOFS. The two resets, with the abort of a running command memory by memory, and the results that no other access touches
(spec 70_reset_and_hazards.md R281-R283, R295). -/

namespace Sys2Proof.Machine

/-! ## The soft reset by the sequencer's state -/

theorem State.softReset_idle {s : State} (idle : s.seq = .idle) : s.softReset = s.resetRegs := by
  rw [State.softReset, State.abort, idle]

theorem State.softReset_busy {s : State} {k : Snapshot} {n : Nat} (busy : s.seq = .busy k n) :
    s.softReset = (s.abortDraws (s.command k.cmd)).resetRegs := by
  rw [State.softReset, State.abort, busy]

theorem State.abortDraws_fit (c : Option Instr) (s : State) : (s.abortDraws c).fit = s.fit := by
  cases c with
  | none => rfl
  | some i => cases i <;> rfl

/-- A soft reset keeps the ROMs. -/
@[simp] theorem State.softReset_fit (s : State) : s.softReset.fit = s.fit := by
  cases seq : s.seq with
  | idle => rw [State.softReset_idle seq]; rfl
  | busy k n => rw [State.softReset_busy seq]; exact s.abortDraws_fit _

/-! ## The abort, one memory at a time (R283) -/

/-- From `s` to `t` one memory becomes a draw if `written`, and is kept if not. -/
def DrawnIff {α : Type} (written : Prop) (s t : State) (memory : Memory → Store α) : Prop :=
  (¬written → memory t.mem = memory s.mem) ∧ (written → FreshDraw s t (memory t.mem))

section
variable {α : Type} {written : Prop} {s t : State} {memory : Memory → Store α}

theorem DrawnIff.kept (other : ¬written) (same : memory t.mem = memory s.mem) : DrawnIff written s t memory :=
  ⟨fun _ => same, fun writes => absurd writes other⟩

theorem DrawnIff.drawn (writes : written) (draw : FreshDraw s t (memory t.mem)) : DrawnIff written s t memory :=
  ⟨fun other => absurd writes other, fun _ => draw⟩

end

theorem State.abortDraws_obuf (c : Option Instr) (s : State) :
    DrawnIff (c ∈ outputCommands.map some) s (s.abortDraws c) Memory.obuf := by
  cases c with
  | none => exact .kept (by decide) rfl
  | some i =>
    cases i with
    | pad | strip | encode | decode | abbrW2A | abbrA2W =>
      exact .drawn (by decide) ⟨rfl, Nat.le_refl _, Nat.lt_succ_self _⟩
    | nop | xfer | clearFreq | buildFreq | buildSample | buildDefault => exact .kept (by decide) rfl

theorem State.abortDraws_ibuf (c : Option Instr) (s : State) :
    DrawnIff (c = some .xfer) s (s.abortDraws c) Memory.ibuf := by
  cases c with
  | none => exact .kept (by decide) rfl
  | some i =>
    cases i with
    | xfer => exact .drawn rfl ⟨rfl, Nat.le_refl _, Nat.lt_succ_self _⟩
    | nop | pad | strip | clearFreq | buildFreq | buildSample | buildDefault | encode | decode | abbrW2A | abbrA2W =>
      exact .kept (by decide) rfl

theorem State.abortDraws_freq (c : Option Instr) (s : State) :
    DrawnIff (c ∈ freqCommands.map some) s (s.abortDraws c) Memory.freq := by
  cases c with
  | none => exact .kept (by decide) rfl
  | some i =>
    cases i with
    | clearFreq => exact .drawn (by decide) ⟨rfl, Nat.le_refl _, Nat.lt_succ_self _⟩
    | buildSample | buildDefault =>
      exact .drawn (by decide) ⟨rfl, Nat.le_refl _, Nat.lt_add_of_pos_right Nat.two_pos⟩
    | nop | pad | strip | xfer | buildFreq | encode | decode | abbrW2A | abbrA2W => exact .kept (by decide) rfl

/-- A BUILD that fills FREQ too draws CTAB second. -/
theorem State.abortDraws_ctab (c : Option Instr) (s : State) :
    DrawnIff (c ∈ buildCommands.map some) s (s.abortDraws c) Memory.ctab := by
  cases c with
  | none => exact .kept (by decide) rfl
  | some i =>
    cases i with
    | buildFreq => exact .drawn (by decide) ⟨rfl, Nat.le_refl _, Nat.lt_succ_self _⟩
    | buildSample | buildDefault => exact .drawn (by decide) ⟨rfl, Nat.le_succ _, Nat.lt_succ_self _⟩
    | nop | pad | strip | xfer | clearFreq | encode | decode | abbrW2A | abbrA2W => exact .kept (by decide) rfl

/-! ## The statements about the resets -/

/-- A reset clears every flag of STATUS, so the word's sum of flags is 0. -/
theorem State.resetRegs_statusWord (s : State) : s.resetRegs.statusWord = 0 := s.resetRegs.statusWord_eq

/-- Settles O20: the registers' reset values, and the memories by whether there is a command to abort. -/
theorem softResetRule : Obligations.SoftResetRule := by
  intro s v srst
  obtain ⟨write, -⟩ := (ctrlWriteRule s v).1 srst
  refine ⟨s.softReset, write, rfl, State.resetRegs_statusWord _, rfl, rfl, rfl, rfl, rfl, rfl, rfl,
    State.irq_of_not_enabled rfl, s.softReset_master, s.softReset_fit, fun idle => ?idle, fun k n busy => ?busy⟩
  case idle => rw [State.softReset_idle idle]; rfl
  case busy =>
    rw [State.softReset_busy busy]
    obtain ⟨obufKept, obufDrawn⟩ := s.abortDraws_obuf (s.command k.cmd)
    obtain ⟨ibufKept, ibufDrawn⟩ := s.abortDraws_ibuf (s.command k.cmd)
    obtain ⟨freqKept, freqDrawn⟩ := s.abortDraws_freq (s.command k.cmd)
    obtain ⟨ctabKept, ctabDrawn⟩ := s.abortDraws_ctab (s.command k.cmd)
    exact ⟨obufKept, ibufKept, freqKept, ctabKept, obufDrawn, ibufDrawn, freqDrawn, ctabDrawn⟩

/-- Settles O21: the registers' reset values, the constants, which read from the fitting alone, and one draw for all four
memories. -/
theorem hardResetRule : Obligations.HardResetRule := by
  intro s
  have draw {α : Type} : FreshDraw s s.hardReset (⟨s.draws, []⟩ : Store α) := ⟨rfl, Nat.le_refl _, Nat.lt_succ_self _⟩
  refine ⟨rfl, State.resetRegs_statusWord _, rfl, rfl, rfl, rfl, rfl, rfl, rfl,
    State.irq_of_not_enabled rfl, rfl, fun l constant => ?constants, draw, draw, draw, draw⟩
  case constants => obtain rfl | rfl | rfl | rfl := constant <;> rfl

/-! ## Results between a completion and the next acceptance or reset (R295) -/

/-- CTRL and CMD stand at one word offset each. -/
theorem locateReg_control (a : Nat) : (locateReg a = .ctrl → a = 0x000C) ∧ (locateReg a = .cmd → a = 0x0014) := by
  unfold locateReg
  split <;> simp

theorem locateWord_control (a : Nat) : (locateWord a = .ctrl → a = 0x000C) ∧ (locateWord a = .cmd → a = 0x0014) := by
  rw [locateWord]
  split_ifs
  · exact locateReg_control a
  all_goals exact ⟨nofun, nofun⟩

/-- From `s` to `t` no result changes: not the output, nor the error, nor the table. -/
def SameResults (s t : State) : Prop :=
  SameOutput s t ∧ SameSummary s t ∧ t.errInfo = s.errInfo ∧ t.status.errCode = s.status.errCode ∧
    t.mem.ctab = s.mem.ctab ∧ t.mem.obuf = s.mem.obuf ∧ t.codes = s.codes

theorem SameResults.refl (s : State) : SameResults s s := ⟨.refl s, .refl s, rfl, rfl, rfl, rfl, rfl⟩

/-- While IDLE only CMD and a soft reset reach the results: every other place holds none of them, or is read-only. -/
theorem State.store_sameResults {s : State} (idle : s.seq = .idle) {v : Word} {l : Loc} (notCmd : l ≠ .cmd)
    (noReset : ¬(l = .ctrl ∧ v.getLsbD 1 = true)) : SameResults s (s.store v l) := by
  cases l with
  | cmd => exact absurd rfl notCmd
  | ctrl =>
    rw [State.store, State.writeCtrl, if_neg fun srst => noReset ⟨rfl, srst⟩]
    exact .refl s
  | padlen | inLen | freq a | ibuf a => rw [State.store, State.unlessBusy_idle idle]; exact .refl s
  | status | id | version | caps | outLen | errInfo | nsym | maxlen | abbrN | ctab a | obuf a | reserved => exact .refl s

/-- Settles O56: a write by the place its offset selects, and a read, which changes nothing while IDLE. -/
theorem resultsAreStable : Obligations.ResultsAreStable := by
  rintro s off v idle notCmd noReset t (rfl | rfl)
  · obtain ⟨atCtrl, atCmd⟩ := locateWord_control (wordOffset off)
    exact State.store_sameResults idle (fun cmd => notCmd (atCmd cmd)) fun ⟨ctrl, srst⟩ => noReset ⟨atCtrl ctrl, srst⟩
  · rw [State.hostRead_idle idle]
    exact SameResults.refl s

end Sys2Proof.Machine
end
